-- ==== Sys2Proof/Word.lean ====
section
/-! DEFINITION. The word types of the block: a byte, a symbol, the magic word, a code numeral. -/

namespace Sys2Proof

/-- A literal symbol, `SYM_W` = 8 bits (R5). -/
abbrev Byte := BitVec 8

/-- A symbol as a header leaf holds it, `VAL_W` = 9 bits (R5). -/
abbrev Sym := BitVec 9

/-- The magic word, `MAGIC_W` = 32 bits (R5). -/
abbrev MagicWord := BitVec 32

/-- A code as a right-aligned numeral, `CODE_MAX` = 256 bits (R5, R33). -/
abbrev CodeWord := BitVec 256

/-- A stream of bits, element 0 the first one transferred (R7). -/
abbrev Bits := List Bool

end Sys2Proof
end

