-- ==== Sys2Proof/Config.lean ====
section
/-! DEFINITION. The parameters of the block (R5, R6), its fixed constants, and the one source of free values. -/

namespace Sys2Proof

/-- The open parameters (R6; defaults of R5). A machine keeps one value of it for good. -/
structure Config where
  /-- `MAGIC`, the same in both units (R5, R94). -/
  magic : MagicWord := 0xFACE8201#32
  /-- `CNT_W`, the width of a symbol counter (R5, R22). -/
  cntW : Nat := 32
  /-- `DEC_NODE_CAP`, the entries of DEC's node store (R5, R184). -/
  decNodeCap : Nat := 1023
deriving DecidableEq, Repr

/-- `WGT_W` = `CNT_W` + 9 (R5, R147). -/
def Config.wgtW (c : Config) : Nat := c.cntW + 9

/-- The constraints on the parameters (92_eei_decisions.md, "Open parameters"). -/
abbrev Config.wf (c : Config) : Prop := 1 ≤ c.cntW ∧ 1 ≤ c.decNodeCap ∧ c.decNodeCap ≤ 1024

/-- The pseudo-end-of-stream symbol (R5). -/
abbrev pseudoEof : Sym := 256#9

/-- `NSYM` (R5). -/
abbrev nsym : Nat := 257

/-- `ENC_NODE_CAP` (R5). -/
abbrev encNodeCap : Nat := 513

/-- `ENC_STK_CAP` (R5). -/
abbrev encStkCap : Nat := 257

/-- FREE VALUE: what a register holds where the spec says "unspecified" (R49, R121) or does not state a result
(`argmin_q()` of an empty queue, R141). The arguments are the draw (`State.draws`), the register and the entry.
Nothing can be proved of it. -/
opaque Config.freeValue : Nat → Nat → Nat → Nat

end Sys2Proof
end

