-- ==== Sys2Proof/Machine/Bits.lean ====
section
/-! DEFINITION. Bit sequences and numbers (R7, R70), and the packing of a bit stream into bytes (R72). -/

namespace Sys2Proof.Machine

/-- `bits(n, v)` = `v[n-1], ..., v[0]`; bits of `v` at and above `n` are ignored (R7, R64). -/
def bits : Nat → Nat → Bits
  | 0, _ => []
  | n + 1, v => v.testBit n :: bits n v

/-- The number a bit sequence stands for, most significant bit first: the inverse of `bits` (R66, R70). -/
def valueOf (l : Bits) : Nat := l.foldl (fun acc b => 2 * acc + b.toNat) 0

/-- `P` = (8 - total mod 8) mod 8, the number of padding bits (R72, R100). -/
def padLength (total : Nat) : Nat := (8 - total % 8) % 8

/-- The stream as the packer leaves it at close: zero-padded to a byte boundary (R65, R72). -/
def padded (l : Bits) : Bits := l ++ List.replicate (padLength l.length) false

/-- The byte form of a closed stream: bit `k` is bit `7 - (k mod 8)` of byte `floor(k / 8)` (R72). -/
def pack (l : Bits) : List Byte :=
  (List.range ((l.length + 7) / 8)).map fun j => BitVec.ofNat 8 (valueOf (((padded l).drop (8 * j)).take 8))

/-- The bit sequence DEC reads from a file of bytes: `C[8j + i] = B[j][7 - i]` (R72). -/
def unpack (bytes : List Byte) : Bits := bytes.flatMap fun b => bits 8 b.toNat

/-- `zext_9(r)`: a raw byte as a symbol (R101). -/
def zext9 (r : Byte) : Sym := r.setWidth 9

/-- `v[7:0]`: a leaf value as an output byte (R67, R101). -/
def lowByte (v : Sym) : Byte := v.setWidth 8

/-- `sat_inc(v)` of a `w`-bit counter (R131). -/
def satInc (w v : Nat) : Nat := if v < 2 ^ w - 1 then v + 1 else v

/-- `bits' = (bits << 1) | b`: a code numeral one branch longer (R101, R151). -/
def shiftIn (c : CodeWord) (b : Bool) : CodeWord := (c <<< 1) ||| (if b then 1#256 else 0#256)

end Sys2Proof.Machine
end

