-- ==== Sys2Proof/Syntax.lean ====
section
/-! DEFINITION. The instruction set: one constructor per row of spec/opcode_table.json, and the tree a header carries. -/

namespace Sys2Proof

/-- One constructor per row of the opcode table (R90, R91). -/
inductive Instr where
  /-- RESET (R121), strobe word `1xx`. -/
  | reset
  /-- ENC.START (R122), strobe word `01x`; the operand is the run's raw input `S` (R47). -/
  | encStart (raw : List Byte)
  /-- DEC.START (R123), strobe word `0x1`; the operand is the run's compressed input `C` (R47). -/
  | decStart (comp : Bits)
  /-- ENC.WAIT in `IDLE`, phase code 0 (R124). -/
  | encWaitIdle
  /-- ENC.COUNT, phase code 1 (R130). -/
  | encCount
  /-- ENC.QINIT, phase code 2 (R142). -/
  | encQinit
  /-- ENC.MERGE, phase code 3 (R143). -/
  | encMerge
  /-- ENC.GEN, phase code 4 (R151). -/
  | encGen
  /-- ENC.WRMAGIC, phase code 5 (R160). -/
  | encWrmagic
  /-- ENC.WRHDR, phase code 6 (R162). -/
  | encWrhdr
  /-- ENC.REWIND, phase code 7 (R170). -/
  | encRewind
  /-- ENC.ENCODE, phase code 8 (R172). -/
  | encEncode
  /-- ENC.WREOF, phase code 9 (R174). -/
  | encWreof
  /-- ENC.CLOSE, phase code 10 (R176). -/
  | encClose
  /-- ENC.WAIT in `DONE`, phase code 11 (R124). -/
  | encWaitDone
  /-- ENC.WAIT in `FAULT`, phase code 12 (R124). -/
  | encWaitFault
  /-- DEC.WAIT in `IDLE`, phase code 0 (R124). -/
  | decWaitIdle
  /-- DEC.RDMAGIC, phase code 1 (R180). -/
  | decRdmagic
  /-- DEC.RDHDR, phase code 2 (R182). -/
  | decRdhdr
  /-- DEC.DECODE, phase code 3 (R190). -/
  | decDecode
  /-- DEC.CLOSE, phase code 4 (R194). -/
  | decClose
  /-- DEC.WAIT in `DONE`, phase code 5 (R124). -/
  | decWaitDone
  /-- DEC.WAIT in `FAULT`, phase code 6 (R124). -/
  | decWaitFault
  /-- MAGIC, format M: the 32 bits where the magic word stands (R94). -/
  | magic (m : MagicWord)
  /-- HDR.NODE, format HN: the tag `0` (R95). -/
  | hdrNode
  /-- HDR.LEAF, format HL: the tag `1` and the 9-bit value (R96). -/
  | hdrLeaf (value : Sym)
  /-- BODY.CODE, format BC: the root-to-leaf path of a symbol, root-side choice first (R98). -/
  | bodyCode (code : Bits)
  /-- BODY.EOF, format BC: the code of the pseudo-EOF symbol (R99). -/
  | bodyEof (code : Bits)
  /-- PAD: the packer's zero bits (R100). -/
  | pad (p : Nat)
deriving DecidableEq, Repr

/-- The tree a header carries, in the grammar of R97. -/
inductive HTree where
  | leaf (value : Sym)
  | node (left right : HTree)
deriving DecidableEq, Repr

end Sys2Proof
end

