-- ==== Sys2Proof/WellFormed.lean ====
section
/-! DEFINITION. The checks on an instruction as syntax: the widths the opcode table gives the variable-length items. -/

namespace Sys2Proof

/-- A BODY.CODE item has 1 to 256 bits (R98). -/
def codeLengthOk (c : Bits) : Bool := decide (1 ≤ c.length ∧ c.length ≤ 256)

/-- A BODY.EOF item has 0 to 256 bits (R99). -/
def eofLengthOk (c : Bits) : Bool := decide (c.length ≤ 256)

/-- PAD has 0 to 7 bits (R100). -/
def padLengthOk (p : Nat) : Bool := decide (p ≤ 7)

/-- The well-formed instructions: every fixed-width row is, and a variable-length item when its width is legal. -/
def Instr.wellFormed : Instr → Bool
  | .reset => true
  | .encStart _ => true
  | .decStart _ => true
  | .encWaitIdle => true
  | .encCount => true
  | .encQinit => true
  | .encMerge => true
  | .encGen => true
  | .encWrmagic => true
  | .encWrhdr => true
  | .encRewind => true
  | .encEncode => true
  | .encWreof => true
  | .encClose => true
  | .encWaitDone => true
  | .encWaitFault => true
  | .decWaitIdle => true
  | .decRdmagic => true
  | .decRdhdr => true
  | .decDecode => true
  | .decClose => true
  | .decWaitDone => true
  | .decWaitFault => true
  | .magic _ => true
  | .hdrNode => true
  | .hdrLeaf _ => true
  | .bodyCode c => codeLengthOk c
  | .bodyEof c => eofLengthOk c
  | .pad p => padLengthOk p

end Sys2Proof
end

