-- ==== Sys2Proof/Decode.lean ====
section
/-! DEFINITION. Decoding a word of each format into an instruction, total, rejecting by name (R90 to R102); then the
encoder, and the serialized tree (R97). -/

namespace Sys2Proof

open Sys2Proof.Machine (bits valueOf padLength)

/-- Where a word stands: it fixes the format that is read (R90, R91). -/
inductive Ctx where
  /-- The strobe wires on one clock edge, with the model-level operands `S` and `C` (R90, R47). -/
  | strobes (raw : List Byte) (comp : Bits)
  /-- `ENC.phase`, 4 bits (R90). -/
  | encPhase
  /-- `DEC.phase`, 3 bits (R90). -/
  | decPhase
  /-- The first 32 bits of a compressed stream (R94). -/
  | magicWord
  /-- A header record (R95, R96). -/
  | header
  /-- A body code, read against the tree of the header (R98, R99). -/
  | body (t : HTree)
  /-- The padding of a stream of `total` bits (R100). -/
  | padding (total : Nat)
deriving DecidableEq, Repr

/-- Why a word is no instruction. -/
inductive Reject where
  /-- No strobe is 1 (R90). -/
  | noCommand
  /-- ENC phase codes 13 to 15 are reserved (R102). -/
  | reservedEncPhase (code : Nat)
  /-- DEC phase code 7 is reserved (R102). -/
  | reservedDecPhase (code : Nat)
  /-- The stream ends inside the item (R102). -/
  | truncated
  /-- A path longer than the 256 bits of a BODY item (R98, R99). -/
  | codeTooLong
deriving DecidableEq, Repr

/-- An `n`-bit field off the front of a bit sequence, most significant bit first (R70). -/
def field (n : Nat) (bs : Bits) : Except Reject (Nat × Bits) :=
  if n ≤ bs.length then .ok (valueOf (bs.take n), bs.drop n) else .error .truncated

/-- The commands given on one clock edge: RESET wins over both starts; the two starts are independent (R121, R125). -/
def commands (rst encStart decStart : Bool) (raw : List Byte) (comp : Bits) : List Instr :=
  if rst then [.reset]
  else (if encStart then [.encStart raw] else []) ++ (if decStart then [.decStart comp] else [])

/-- The 3-bit strobe word {rst, enc_start, dec_start}: its first command (R90). -/
def decodeStrobes (w : Nat) (raw : List Byte) (comp : Bits) : Except Reject Instr :=
  match commands (w.testBit 2) (w.testBit 1) (w.testBit 0) raw comp with
  | [] => .error .noCommand
  | i :: _ => .ok i

/-- The 4-bit phase code of ENC (R90, R40). -/
def decodeEncPhase (code : Nat) : Except Reject Instr :=
  match code with
  | 0 => .ok .encWaitIdle
  | 1 => .ok .encCount
  | 2 => .ok .encQinit
  | 3 => .ok .encMerge
  | 4 => .ok .encGen
  | 5 => .ok .encWrmagic
  | 6 => .ok .encWrhdr
  | 7 => .ok .encRewind
  | 8 => .ok .encEncode
  | 9 => .ok .encWreof
  | 10 => .ok .encClose
  | 11 => .ok .encWaitDone
  | 12 => .ok .encWaitFault
  | c => .error (.reservedEncPhase c)

/-- The 3-bit phase code of DEC (R90, R40). -/
def decodeDecPhase (code : Nat) : Except Reject Instr :=
  match code with
  | 0 => .ok .decWaitIdle
  | 1 => .ok .decRdmagic
  | 2 => .ok .decRdhdr
  | 3 => .ok .decDecode
  | 4 => .ok .decClose
  | 5 => .ok .decWaitDone
  | 6 => .ok .decWaitFault
  | c => .error (.reservedDecPhase c)

/-- A header record: the tag tells HDR.NODE from HDR.LEAF (R95, R96, R103); no leaf value is refused (R102, R185). -/
def decodeHeader (bs : Bits) : Except Reject (Instr × Bits) :=
  match bs with
  | [] => .error .truncated
  | false :: rest => .ok (.hdrNode, rest)
  | true :: rest =>
    match field 9 rest with
    | .ok (v, rest') => .ok (.hdrLeaf (BitVec.ofNat 9 v), rest')
    | .error e => .error e

/-- Follow bits from a tree's root to a leaf: the path taken, the leaf's value and the bits left (R98). -/
def walkTree : HTree → Bits → Option (Bits × Sym × Bits)
  | .leaf v, bs => some ([], v, bs)
  | .node _ _, [] => none
  | .node l r, b :: bs =>
    match (if b then walkTree r bs else walkTree l bs) with
    | some (path, v, rest) => some (b :: path, v, rest)
    | none => none

/-- A body item: the code ends at the bit that reaches a leaf; the leaf of 256 is the terminator; a lone leaf, whatever
its value, is the terminator and has no bits (R98, R99, R192). -/
def decodeBody (t : HTree) (bs : Bits) : Except Reject (Instr × Bits) :=
  match t with
  | .leaf _ => .ok (.bodyEof [], bs)
  | .node _ _ =>
    match walkTree t bs with
    | none => .error .truncated
    | some (path, v, rest) =>
      if path.length ≤ 256 then
        if v = pseudoEof then .ok (.bodyEof path, rest) else .ok (.bodyCode path, rest)
      else .error .codeTooLong

/-- The decoder: total; the instruction that stands first in `bs`, and the bits after it. -/
def decode (c : Ctx) (bs : Bits) : Except Reject (Instr × Bits) :=
  match c with
  | .strobes raw comp =>
    match field 3 bs with
    | .ok (w, rest) => (decodeStrobes w raw comp).map (·, rest)
    | .error e => .error e
  | .encPhase =>
    match field 4 bs with
    | .ok (w, rest) => (decodeEncPhase w).map (·, rest)
    | .error e => .error e
  | .decPhase =>
    match field 3 bs with
    | .ok (w, rest) => (decodeDecPhase w).map (·, rest)
    | .error e => .error e
  | .magicWord =>
    match field 32 bs with
    | .ok (m, rest) => .ok (.magic (BitVec.ofNat 32 m), rest)
    | .error e => .error e
  | .header => decodeHeader bs
  | .body t => decodeBody t bs
  | .padding total =>
    if padLength total ≤ bs.length then .ok (.pad (padLength total), bs.drop (padLength total)) else .error .truncated

/-- The encoder: the bits of an instruction, first transferred first (R90, R94 to R100). -/
def encode : Instr → Bits
  | .reset => [true, false, false]
  | .encStart _ => [false, true, false]
  | .decStart _ => [false, false, true]
  | .encWaitIdle => bits 4 0
  | .encCount => bits 4 1
  | .encQinit => bits 4 2
  | .encMerge => bits 4 3
  | .encGen => bits 4 4
  | .encWrmagic => bits 4 5
  | .encWrhdr => bits 4 6
  | .encRewind => bits 4 7
  | .encEncode => bits 4 8
  | .encWreof => bits 4 9
  | .encClose => bits 4 10
  | .encWaitDone => bits 4 11
  | .encWaitFault => bits 4 12
  | .decWaitIdle => bits 3 0
  | .decRdmagic => bits 3 1
  | .decRdhdr => bits 3 2
  | .decDecode => bits 3 3
  | .decClose => bits 3 4
  | .decWaitDone => bits 3 5
  | .decWaitFault => bits 3 6
  | .magic m => bits 32 m.toNat
  | .hdrNode => [false]
  | .hdrLeaf v => true :: bits 9 v.toNat
  | .bodyCode c => c
  | .bodyEof c => c
  | .pad p => List.replicate p false

/-- `ser(t)`: a tree as header records, in pre-order (R97). -/
def HTree.ser : HTree → Bits
  | .leaf v => encode (.hdrLeaf v)
  | .node l r => encode .hdrNode ++ l.ser ++ r.ser

/-- The number of nodes of a tree, which is the number of its records (R97). -/
def HTree.size : HTree → Nat
  | .leaf _ => 1
  | .node l r => l.size + r.size + 1

/-- The number of leaves of a tree (R74). -/
def HTree.leafCount : HTree → Nat
  | .leaf _ => 1
  | .node l r => l.leafCount + r.leafCount

/-- The code table of a tree: each leaf's value with its path, left to right (R150). -/
def HTree.codes : HTree → List (Sym × Bits)
  | .leaf v => [(v, [])]
  | .node l r => l.codes.map (fun p => (p.1, false :: p.2)) ++ r.codes.map (fun p => (p.1, true :: p.2))

/-- The instruction the decoder reads from a word of spec/opcode_table.json of `nbits` bits. The table's formats overlap
on short words; a word of 4 to 9 bits is read as an ENC phase code, one of 2 or 3 bits as a strobe word, one bit as a
header tag, 10 to 16 bits as a 10-bit header record, 32 bits as the magic (notes/assumptions/19.md). -/
def decodeTableWord (nbits w : Nat) : Option Instr :=
  let read (c : Ctx) (n : Nat) : Option Instr :=
    if w < 2 ^ n then
      match decode c (bits n w) with
      | .ok (i, []) => some i
      | .ok (_, _ :: _) => none
      | .error _ => none
    else none
  if nbits = 1 then read .header 1
  else if nbits ≤ 3 then read (.strobes [] []) 3
  else if nbits ≤ 9 then read .encPhase 4
  else if nbits ≤ 16 then read .header 10
  else if nbits = 32 then read .magicWord 32
  else none

end Sys2Proof
end

