-- ==== Sys2Proof/Machine/State.lean ====
section
/-! DEFINITION. The state of the block, unit by unit and port by port, as plain data; the state after reset; the reasons
a step can stop. -/

namespace Sys2Proof.Machine

/-- The values of `ENC.phase` (R40). -/
inductive EncPhase where
  | idle | count | qinit | merge | gen | wrmagic | wrhdr | rewind | encode | wreof | close | done | fault
  | reserved13 | reserved14 | reserved15
deriving DecidableEq, Repr

/-- The values of `DEC.phase` (R40). -/
inductive DecPhase where
  | idle | rdmagic | rdhdr | decode | close | done | fault | reserved7
deriving DecidableEq, Repr

/-- The values of `err` (R201). -/
inductive Err where
  | none | formatError | headerCorrupt | decodeTermination | headerCapacity | encNoCode
deriving DecidableEq, Repr

/-- What a node of ENC's tree holds: a leaf its symbol, an internal node both children, never a mix (R23, R8). -/
inductive NodeKind where
  | leaf (value : Sym)
  | internal (left right : Nat)
deriving DecidableEq, Repr

/-- One entry of `node[0..512]` (R23). -/
structure Node where
  /-- `WGT_W` bits. -/
  weight : Nat
  kind : NodeKind
deriving DecidableEq, Repr

/-- One entry of `stk[0..256]` (R34). -/
structure StkEntry where
  /-- 10 bits. -/
  node : Nat
  /-- 9 bits. -/
  len : Nat
  bits : CodeWord
deriving DecidableEq, Repr

/-- One entry of `dnode` (R36); a child is `none` until its subtree's root has been read. -/
inductive DNode where
  | leaf (value : Sym)
  | internal (left right : Option Nat)
deriving DecidableEq, Repr

/-- One entry of `dstk` (R38); `side` is `true` when the left child is in place. -/
structure DStkEntry where
  node : Nat
  side : Bool
deriving DecidableEq, Repr

/-- Unit ENC (R22 to R35, R40). -/
structure Enc where
  phase : EncPhase
  err : Err
  /-- `CNT_W` bits each (R22). -/
  cnt : Vector Nat nsym
  node : Vector Node encNodeCap
  nn : Nat
  qsize : Nat
  root : Nat
  inq : Vector Bool encNodeCap
  codeValid : Vector Bool nsym
  codeLen : Vector Nat nsym
  codeBits : Vector CodeWord nsym
  stk : Vector StkEntry encStkCap
  sp : Nat
deriving DecidableEq, Repr

/-- Unit DEC (R36 to R40). The two stores have `DEC_NODE_CAP` entries (R5). -/
structure Dec where
  phase : DecPhase
  err : Err
  dnode : List DNode
  dn : Nat
  droot : Nat
  cur : Nat
  dstk : List DStkEntry
  dsp : Nat
deriving DecidableEq, Repr

/-- The raw input port: what this pass delivers, what a rewind brings back, `rpos`, and the host's handshake line
(R47, R48, R62, R63, R75, R243). -/
structure Rin where
  data : List Byte
  replay : List Byte
  pos : Nat
  valid : Bool
deriving DecidableEq, Repr

/-- The compressed output port (R48, R64, R65, R243). -/
structure Cout where
  bits : Bits
  closed : Bool
  ready : Bool
deriving DecidableEq, Repr

/-- The compressed input port (R47, R48, R66, R243). -/
structure Cin where
  data : Bits
  pos : Nat
  valid : Bool
deriving DecidableEq, Repr

/-- The raw output port (R48, R67, R68, R243). -/
structure Sout where
  bytes : List Byte
  closed : Bool
  ready : Bool
deriving DecidableEq, Repr

/-- The two units (R1). -/
inductive Agent where
  | enc | dec
deriving DecidableEq, Repr

/-- What the host can do between operations (R20, R44, R75, R210, R243). -/
inductive HostEvent where
  /-- One clock edge with these strobes (R90), and the runs' inputs (R47). -/
  | strobe (rst encStart decStart : Bool) (raw : List Byte) (comp : Bits)
  /-- The host sets its four handshake lines (R69, R243). -/
  | lines (rinValid coutReady cinValid soutReady : Bool)
  /-- The raw input will not replay what it delivered (R75, R173). -/
  | replay (raw : List Byte)
  /-- The host forces end-of-stream on the raw input (R210). -/
  | cutRaw
  /-- The host forces end-of-stream on the compressed input (R210). -/
  | cutComp
deriving DecidableEq, Repr

/-- One entry of the agenda: who moves next (R20). -/
inductive Slot where
  | unit (u : Agent)
  | host (e : HostEvent)
deriving DecidableEq, Repr

/-- The whole machine: parameters, the two units, the four ports, and the model's own scheduling data. -/
structure State where
  cfg : Config
  enc : Enc
  dec : Dec
  rin : Rin
  cout : Cout
  cin : Cin
  sout : Sout
  agenda : List Slot
  turn : Agent
  draws : Nat
deriving DecidableEq, Repr

/-- Why the machine stops. No run reaches one of these (R232); each stops where the spec names nothing to access: safe. -/
inductive Fault where
  /-- ENC.GEN, ENC.MERGE or ENC.WRHDR: an index outside `node[0..512]` (R46). Safe. -/
  | noSuchNode
  /-- ENC.GEN: a symbol outside `0..256` (R46). Safe. -/
  | noSuchSymbol
  /-- ENC.GEN or ENC.WRHDR: an index outside `stk[0..256]`, a pop of the empty stack among them (R46, R151). Safe. -/
  | noSuchStackEntry
  /-- DEC.RDHDR, DEC.DECODE, HDR.NODE, HDR.LEAF, BODY.CODE or BODY.EOF: an index outside `dnode` (R46). Safe. -/
  | noSuchDecNode
  /-- DEC.RDHDR, HDR.NODE or HDR.LEAF: an index outside `dstk` (R46). Safe. -/
  | noSuchDecStackEntry
  /-- DEC.DECODE, BODY.CODE or BODY.EOF: a descent to a child that holds no value (R36, R190). Safe. -/
  | noChild
deriving DecidableEq, Repr

/-- Why a step has no meaning. -/
inductive Refusal where
  /-- `exec`'s arm of an instruction that has no meaning yet. Safe. -/
  | notModelled (mnemonic : String)
  /-- A write to, or a close of, an output port that is closed (93_implementation_defined.md U25). No run reaches it.
  Safe. -/
  | portClosed
deriving DecidableEq, Repr

/-- An entry of ENC's node store with every bit 0 (notes/assumptions/1.md). -/
def Node.zero : Node := { weight := 0, kind := .internal 0 0 }

/-- An entry of ENC's stack with every bit 0 (notes/assumptions/1.md). -/
def StkEntry.zero : StkEntry := { node := 0, len := 0, bits := 0#256 }

/-- An entry of DEC's node store with every bit 0 (notes/assumptions/1.md). -/
def DNode.zero : DNode := .internal (some 0) (some 0)

/-- An entry of DEC's stack with every bit 0 (notes/assumptions/1.md). -/
def DStkEntry.zero : DStkEntry := { node := 0, side := false }

/-- ENC after RESET: `phase` and `err` as R49 says, every other register 0 (notes/assumptions/1.md). -/
def Enc.reset : Enc :=
  { phase := .idle, err := .none, cnt := Vector.replicate nsym 0, node := Vector.replicate encNodeCap Node.zero
    nn := 0, qsize := 0, root := 0, inq := Vector.replicate encNodeCap false
    codeValid := Vector.replicate nsym false, codeLen := Vector.replicate nsym 0
    codeBits := Vector.replicate nsym 0#256, stk := Vector.replicate encStkCap StkEntry.zero, sp := 0 }

/-- DEC after RESET, with stores of `cap` entries: as for ENC. -/
def Dec.reset (cap : Nat) : Dec :=
  { phase := .idle, err := .none, dnode := List.replicate cap DNode.zero, dn := 0, droot := 0, cur := 0
    dstk := List.replicate cap DStkEntry.zero, dsp := 0 }

/-- The machine right after reset (R49, R230), built with the parameters `c`. -/
def State.resetWith (c : Config) : State :=
  { cfg := c, enc := Enc.reset, dec := Dec.reset c.decNodeCap
    rin := { data := [], replay := [], pos := 0, valid := true }
    cout := { bits := [], closed := false, ready := true }
    cin := { data := [], pos := 0, valid := true }
    sout := { bytes := [], closed := false, ready := true }
    agenda := [], turn := .enc, draws := 0 }

/-- The machine right after reset, with the spec's default parameters (R5). -/
def State.reset : State := State.resetWith {}

end Sys2Proof.Machine
end

