-- ==== Sys2Proof/Machine/Flags.lean ====
section
/-! DEFINITION. The codes of `phase` and `err`, the STATUS words with `busy`, `done` and `fault` (R40, R43, R201). -/

namespace Sys2Proof.Machine

/-- The 4-bit code of an ENC phase (R40). -/
def EncPhase.code : EncPhase → BitVec 4
  | .idle => 0 | .count => 1 | .qinit => 2 | .merge => 3 | .gen => 4 | .wrmagic => 5 | .wrhdr => 6 | .rewind => 7
  | .encode => 8 | .wreof => 9 | .close => 10 | .done => 11 | .fault => 12
  | .reserved13 => 13 | .reserved14 => 14 | .reserved15 => 15

/-- The ENC phase of a 4-bit code (R40). -/
def EncPhase.ofCode (n : Nat) : EncPhase :=
  match n % 16 with
  | 0 => .idle | 1 => .count | 2 => .qinit | 3 => .merge | 4 => .gen | 5 => .wrmagic | 6 => .wrhdr | 7 => .rewind
  | 8 => .encode | 9 => .wreof | 10 => .close | 11 => .done | 12 => .fault
  | 13 => .reserved13 | 14 => .reserved14 | _ => .reserved15

/-- The 3-bit code of a DEC phase (R40). -/
def DecPhase.code : DecPhase → BitVec 3
  | .idle => 0 | .rdmagic => 1 | .rdhdr => 2 | .decode => 3 | .close => 4 | .done => 5 | .fault => 6 | .reserved7 => 7

/-- The DEC phase of a 3-bit code (R40). -/
def DecPhase.ofCode (n : Nat) : DecPhase :=
  match n % 8 with
  | 0 => .idle | 1 => .rdmagic | 2 => .rdhdr | 3 => .decode | 4 => .close | 5 => .done | 6 => .fault | _ => .reserved7

/-- The 3-bit error code (R201). -/
def Err.code : Err → BitVec 3
  | .none => 0 | .formatError => 1 | .headerCorrupt => 2 | .decodeTermination => 3 | .headerCapacity => 4
  | .encNoCode => 5

/-- The phases in which ENC waits and takes ENC.START (R122, R124). -/
def EncPhase.waiting : EncPhase → Bool
  | .idle => true | .done => true | .fault => true
  | .count => false | .qinit => false | .merge => false | .gen => false | .wrmagic => false | .wrhdr => false
  | .rewind => false | .encode => false | .wreof => false | .close => false
  | .reserved13 => false | .reserved14 => false | .reserved15 => false

/-- The phases in which DEC waits and takes DEC.START (R123, R124). -/
def DecPhase.waiting : DecPhase → Bool
  | .idle => true | .done => true | .fault => true
  | .rdmagic => false | .rdhdr => false | .decode => false | .close => false | .reserved7 => false

/-- `busy` of ENC: the phase is not `IDLE`, `DONE` or `FAULT` (R43). -/
def Enc.busy (e : Enc) : Bool := !e.phase.waiting

/-- `done` of ENC (R43). -/
def Enc.done (e : Enc) : Bool := decide (e.phase = .done)

/-- `fault` of ENC (R43). -/
def Enc.faulted (e : Enc) : Bool := decide (e.phase = .fault)

/-- `busy` of DEC (R43). -/
def Dec.busy (d : Dec) : Bool := !d.phase.waiting

/-- `done` of DEC (R43). -/
def Dec.done (d : Dec) : Bool := decide (d.phase = .done)

/-- `fault` of DEC (R43). -/
def Dec.faulted (d : Dec) : Bool := decide (d.phase = .fault)

/-- `enc_status`: fault, done, busy, err[2:0], phase[3:0], from bit 9 down (R43). -/
def Enc.status (e : Enc) : BitVec 10 :=
  BitVec.ofBool e.faulted ++ BitVec.ofBool e.done ++ BitVec.ofBool e.busy ++ e.err.code ++ e.phase.code

/-- `dec_status`: fault, done, busy, err[2:0], phase[2:0], from bit 8 down (R43). -/
def Dec.status (d : Dec) : BitVec 9 :=
  BitVec.ofBool d.faulted ++ BitVec.ofBool d.done ++ BitVec.ofBool d.busy ++ d.err.code ++ d.phase.code

end Sys2Proof.Machine
end

