-- ==== Sys2Proof/Machine/Ops.lean ====
section
/-! DEFINITION. The shared operations: the port primitives (R61 to R68) with the host's handshake (R243), `raise` (R204),
the queue's minimum (R141), and what RESET does to the registers it does not set (R49). -/

namespace Sys2Proof.Machine

/-- The outcome type of every meaning. -/
abbrev Result := Host.Outcome State Fault Refusal

/-- What a stream read answers: the host has supplied no item yet (R243), the end-of-stream sentinel (R61), or a value;
with the port after it. -/
inductive ReadReply (α π : Type) where
  | wait
  | eos (port : π)
  | got (value : α) (port : π)

/-- What a stream write answers: the host has not taken the item yet (R243), the port is closed (U25), or the port after
it. -/
inductive WriteReply (π : Type) where
  | wait
  | closed
  | sent (port : π)

/-- `RIN.read()` (R62). -/
def Rin.read (p : Rin) : ReadReply Byte Rin :=
  if p.valid then
    match p.data[p.pos]? with
    | some r => .got r { p with pos := p.pos + 1 }
    | none => .eos p
  else .wait

/-- `RIN.rewind()` (R63): the host restarts the stream; what it delivers then is its duty (R75). -/
def Rin.rewind (p : Rin) : Rin := { p with data := p.replay, pos := 0 }

/-- `COUT.write(n, v)` (R64); with `n = 0` it is not an event at the port. -/
def Cout.write (n v : Nat) (p : Cout) : WriteReply Cout :=
  if n = 0 then .sent p
  else if p.ready then
    if p.closed then .closed else .sent { p with bits := p.bits ++ Machine.bits n v }
  else .wait

/-- `COUT.close()` (R65). -/
def Cout.close (p : Cout) : WriteReply Cout :=
  if p.ready then
    if p.closed then .closed else .sent { p with closed := true }
  else .wait

/-- `CIN.read(n)` (R66): a short read answers `EOS` and consumes what was left. -/
def Cin.read (n : Nat) (p : Cin) : ReadReply Nat Cin :=
  if p.valid then
    if n ≤ p.data.length - p.pos then
      .got (valueOf ((p.data.drop p.pos).take n)) { p with pos := p.pos + n }
    else .eos { p with pos := p.data.length }
  else .wait

/-- `SOUT.write(v)` (R67): the low 8 bits of the leaf value. -/
def Sout.write (v : Sym) (p : Sout) : WriteReply Sout :=
  if p.ready then
    if p.closed then .closed else .sent { p with bytes := p.bytes ++ [lowByte v] }
  else .wait

/-- `SOUT.close()` (R68). -/
def Sout.close (p : Sout) : WriteReply Sout :=
  if p.ready then
    if p.closed then .closed else .sent { p with closed := true }
  else .wait

/-- `raise <Error>` in a unit (R204): this hardware's exception entry. Nothing is saved; the unit goes to `CLOSE`, whose
operation moves it to `FAULT`. There is no return (R207): only a start command or RESET leaves `FAULT`. -/
def raise (u : Agent) (e : Err) (s : State) : Result :=
  match u with
  | .enc => .next { s with enc := { s.enc with err := e, phase := .close } }
  | .dec => .next { s with dec := { s.dec with err := e, phase := .close } }

/-- The weight of node `i`, read by the queue and by ENC.MERGE (R141, R143); both look only inside the node store. -/
def weightAt (node : Vector Node encNodeCap) (i : Nat) : Nat :=
  match node[i]? with
  | some n => n.weight
  | none => 0

/-- The members of the queue, `{ i : inq[i] = 1 }` (R25, R141). -/
def queueOf (inq : Vector Bool encNodeCap) : List Nat :=
  (inq.toList.zipIdx.filter fun p => p.1).map fun p => p.2

/-- The index whose pair (weight, index) is least in lexicographic order (R141). -/
def argmin (weight : Nat → Nat) : List Nat → Option Nat
  | [] => none
  | i :: is =>
    match argmin weight is with
    | none => some i
    | some j => if weight j < weight i ∨ (weight j = weight i ∧ j < i) then some j else some i

/-- `argmin_q()` (R141). Of an empty queue the spec states no result: a free node index (notes/assumptions/9.md). The second
component is the draw counter after it. -/
def pickMin (node : Vector Node encNodeCap) (inq : Vector Bool encNodeCap) (draws : Nat) : Nat × Nat :=
  match argmin (weightAt node) (queueOf inq) with
  | some i => (i, draws)
  | none => (Config.freeValue draws 0 0 % encNodeCap, draws + 1)

/-- A register of `w` bits that RESET leaves unspecified: a free value (R49; notes/assumptions/2.md). -/
def freeBits (draw reg idx w : Nat) : Nat := Config.freeValue draw reg idx % 2 ^ w

/-- One bit that RESET leaves unspecified. -/
def freeBit (draw reg idx : Nat) : Bool := decide (freeBits draw reg idx 1 = 1)

/-- An ENC node entry that RESET leaves unspecified (R23, R49). -/
def freeNode (c : Config) (draw idx : Nat) : Node :=
  { weight := freeBits draw 2 idx c.wgtW
    kind := if freeBit draw 3 idx then .leaf (BitVec.ofNat 9 (freeBits draw 4 idx 9))
      else .internal (freeBits draw 5 idx 10) (freeBits draw 6 idx 10) }

/-- A DEC node entry that RESET leaves unspecified (R36, R49). -/
def freeDNode (draw idx : Nat) : DNode :=
  if freeBit draw 20 idx then .leaf (BitVec.ofNat 9 (freeBits draw 21 idx 9))
  else .internal (some (freeBits draw 22 idx 10)) (some (freeBits draw 23 idx 10))

/-- ENC after the instruction RESET (R121, R49): `phase` and `err` set, every other register unspecified. -/
def Enc.afterReset (c : Config) (draw : Nat) : Enc :=
  { phase := .idle, err := .none
    cnt := Vector.ofFn fun i : Fin nsym => freeBits draw 1 i.val c.cntW
    node := Vector.ofFn fun i : Fin encNodeCap => freeNode c draw i.val
    nn := freeBits draw 7 0 10, qsize := freeBits draw 8 0 10, root := freeBits draw 9 0 10
    inq := Vector.ofFn fun i : Fin encNodeCap => freeBit draw 10 i.val
    codeValid := Vector.ofFn fun i : Fin nsym => freeBit draw 11 i.val
    codeLen := Vector.ofFn fun i : Fin nsym => freeBits draw 12 i.val 9
    codeBits := Vector.ofFn fun i : Fin nsym => BitVec.ofNat 256 (freeBits draw 13 i.val 256)
    stk := Vector.ofFn fun i : Fin encStkCap =>
      { node := freeBits draw 14 i.val 10, len := freeBits draw 15 i.val 9
        bits := BitVec.ofNat 256 (freeBits draw 16 i.val 256) }
    sp := freeBits draw 17 0 9 }

/-- DEC after the instruction RESET (R121, R49), for stores of `c.decNodeCap` entries. -/
def Dec.afterReset (c : Config) (draw : Nat) : Dec :=
  { phase := .idle, err := .none
    dnode := (List.range c.decNodeCap).map fun i => freeDNode draw i
    dn := freeBits draw 24 0 10, droot := freeBits draw 25 0 10, cur := freeBits draw 26 0 10
    dstk := (List.range c.decNodeCap).map fun i =>
      { node := freeBits draw 27 i 10, side := freeBit draw 28 i }
    dsp := Config.freeValue draw 29 0 % (c.decNodeCap + 1) }

end Sys2Proof.Machine
end

