-- ==== Sys2Proof/Machine/Operands.lean ====
section
/-! DEFINITION. The implicit operands of the operations (R90): a byte as a symbol index, ENC's traversal stack (R34), DEC's
node store and pending-parent stack (R36, R38). -/

namespace Sys2Proof.Machine

/-- A raw byte as an index of the symbol space (R46, R101). -/
def byteIndex (r : Byte) : Fin nsym := ⟨r.toNat, Nat.lt_trans r.isLt (by decide)⟩

/-- The pseudo-EOF symbol as an index of the symbol space (R5). -/
def eofIndex : Fin nsym := ⟨256, by decide⟩

/-- The top entry `stk[sp - 1]`; none when there is no such entry (R34). -/
def Enc.top (e : Enc) : Option StkEntry := if e.sp = 0 then none else e.stk[e.sp - 1]?

/-- Pop: the top entry, and ENC with `sp <- sp - 1` (R151, R162). -/
def Enc.pop (e : Enc) : Option (StkEntry × Enc) :=
  match e.top with
  | some x => some (x, { e with sp := e.sp - 1 })
  | none => none

/-- Push two entries, `first` below `second` (R151); none when the stack has no room. -/
def Enc.pushTwo (first second : StkEntry) (e : Enc) : Option Enc :=
  if e.sp + 1 < encStkCap then
    some { e with stk := (e.stk.setIfInBounds e.sp first).setIfInBounds (e.sp + 1) second, sp := e.sp + 2 }
  else none

/-- The entry `k` with its `node` field written; the header walk writes no other field (R34, R160, R162). -/
def withNode (stk : Vector StkEntry encStkCap) (k n : Nat) : Vector StkEntry encStkCap :=
  match stk[k]? with
  | some x => stk.setIfInBounds k { x with node := n }
  | none => stk

/-- Push two node indices, `first` below `second` (R162); none when the stack has no room. -/
def Enc.pushTwoNodes (first second : Nat) (e : Enc) : Option Enc :=
  if e.sp + 1 < encStkCap then
    some { e with stk := withNode (withNode e.stk e.sp first) (e.sp + 1) second, sp := e.sp + 2 }
  else none

/-- The end of a walk: `if sp = 0: ENC.phase <- next` (R151, R162). -/
def Enc.endOfWalk (next : EncPhase) (e : Enc) : Enc := if e.sp = 0 then { e with phase := next } else e

/-- A node with its left child in place; a leaf has no such field (notes/assumptions/28.md). -/
def DNode.withLeft (i : Nat) : DNode → DNode
  | .internal _ r => .internal (some i) r
  | .leaf v => .leaf v

/-- A node with its right child in place. -/
def DNode.withRight (i : Nat) : DNode → DNode
  | .internal l _ => .internal l (some i)
  | .leaf v => .leaf v

/-- The child a body bit selects: `0` left, `1` right (R190). -/
def DNode.child (b : Bool) : DNode → Option Nat
  | .internal l r => if b then r else l
  | .leaf _ => none

/-- The node a record makes: a leaf with its value, or an internal node whose children hold no value yet (R182). -/
def DNode.ofRecord : Option Sym → DNode
  | some v => .leaf v
  | none => .internal none none

/-- `i <- dn; dn <- dn + 1; dnode[i] <- ...` (R182). -/
def Dec.allocate (t : Option Sym) (d : Dec) : Except Fault Dec :=
  if d.dn < d.dnode.length then .ok { d with dnode := d.dnode.set d.dn (DNode.ofRecord t), dn := d.dn + 1 }
  else .error .noSuchDecNode

/-- Hang node `i` under the parent on top of `dstk`, or name it the root (R182). -/
def Dec.hang (i : Nat) (d : Dec) : Except Fault Dec :=
  if d.dsp = 0 then .ok { d with droot := i }
  else
    match d.dstk[d.dsp - 1]? with
    | none => .error .noSuchDecStackEntry
    | some e =>
      match d.dnode[e.node]? with
      | none => .error .noSuchDecNode
      | some parent =>
        if e.side then .ok { d with dnode := d.dnode.set e.node (parent.withRight i), dsp := d.dsp - 1 }
        else .ok { d with dnode := d.dnode.set e.node (parent.withLeft i)
                          dstk := d.dstk.set (d.dsp - 1) { e with side := true } }

/-- `if t = 0: dstk[dsp] <- { node = i, side = 0 }; dsp <- dsp + 1` (R182). -/
def Dec.await (t : Option Sym) (i : Nat) (d : Dec) : Except Fault Dec :=
  match t with
  | some _ => .ok d
  | none =>
    if d.dsp < d.dstk.length then
      .ok { d with dstk := d.dstk.set d.dsp { node := i, side := false }, dsp := d.dsp + 1 }
    else .error .noSuchDecStackEntry

/-- `if dsp = 0: cur <- droot; DEC.phase <- DECODE` (R182). -/
def Dec.endOfHeader (d : Dec) : Dec := if d.dsp = 0 then { d with cur := d.droot, phase := .decode } else d

/-- What a header record, once read, does to DEC's store (R182): `some v` is a leaf, `none` an internal node. -/
def Dec.addRecord (t : Option Sym) (d : Dec) : Except Fault Dec :=
  match d.allocate t with
  | .error f => .error f
  | .ok d1 =>
    match d1.hang d.dn with
    | .error f => .error f
    | .ok d2 =>
      match d2.await t d.dn with
      | .error f => .error f
      | .ok d3 => .ok d3.endOfHeader

/-- The part of DEC.RDHDR after its reads (R182): the capacity check, then the store. -/
def takeRecord (t : Option Sym) (s : State) : Result :=
  if s.dec.dn = s.cfg.decNodeCap then raise .dec .headerCapacity s
  else
    match s.dec.addRecord t with
    | .ok d => .next { s with dec := d }
    | .error f => .fault f

/-- The part of DEC.RDMAGIC after its read (R180). -/
def takeMagic (m : MagicWord) (s : State) : Result :=
  if m = s.cfg.magic then .next { s with dec := { s.dec with phase := .rdhdr } } else raise .dec .formatError s

/-- The part of DEC.DECODE after its read of the bit `b` (R190). `held` is the state the unit keeps if the host does not
take the byte (R243). -/
def takeBit (b : Bool) (held s : State) : Result :=
  match s.dec.dnode[s.dec.cur]? with
  | none => .fault .noSuchDecNode
  | some n =>
    match n.child b with
    | none => .fault .noChild
    | some c =>
      match s.dec.dnode[c]? with
      | none => .fault .noSuchDecNode
      | some (.internal _ _) => .next { s with dec := { s.dec with cur := c } }
      | some (.leaf v) =>
        if v = pseudoEof then .next { s with dec := { s.dec with cur := c, phase := .close } }
        else
          match s.sout.write v with
          | .wait => .next held
          | .closed => .refused .portClosed
          | .sent p => .next { s with dec := { s.dec with cur := s.dec.droot }, sout := p }

/-- Whether `dnode[droot]` is a leaf (R190, R192). -/
def Dec.rootIsLeaf (d : Dec) : Option Bool :=
  match d.dnode[d.droot]? with
  | some (.leaf _) => some true
  | some (.internal _ _) => some false
  | none => none

end Sys2Proof.Machine
end

