-- ==== Sys2Proof/Machine/DecOps.lean ====
section
/-! DEFINITION. DEC's operations: DEC.RDMAGIC, DEC.RDHDR, DEC.DECODE, DEC.CLOSE (files 46 and 47). -/

namespace Sys2Proof.Machine

/-- DEC.RDMAGIC (R180); `EOS` is unequal to every number (R181). -/
def execDecRdmagic (s : State) : Result :=
  match s.cin.read 32 with
  | .wait => .next s
  | .eos p => raise .dec .formatError { s with cin := p }
  | .got m p => takeMagic (BitVec.ofNat 32 m) { s with cin := p }

/-- DEC.RDHDR (R182): the tag, the value of a leaf, then the store. -/
def execDecRdhdr (s : State) : Result :=
  match s.cin.read 1 with
  | .wait => .next s
  | .eos p => raise .dec .headerCorrupt { s with cin := p }
  | .got t p =>
    if t = 1 then
      match p.read 9 with
      | .wait => .next s
      | .eos q => raise .dec .headerCorrupt { s with cin := q }
      | .got v q => takeRecord (some (BitVec.ofNat 9 v)) { s with cin := q }
    else takeRecord none { s with cin := p }

/-- DEC.DECODE (R190): a leaf root ends the body at once (R192). -/
def execDecDecode (s : State) : Result :=
  match s.dec.rootIsLeaf with
  | none => .fault .noSuchDecNode
  | some true => .next { s with dec := { s.dec with phase := .close } }
  | some false =>
    match s.cin.read 1 with
    | .wait => .next s
    | .eos p => raise .dec .decodeTermination { s with cin := p }
    | .got b p => takeBit (decide (b = 1)) s { s with cin := p }

/-- DEC.CLOSE (R194). -/
def execDecClose (s : State) : Result :=
  match s.sout.close with
  | .wait => .next s
  | .closed => .refused .portClosed
  | .sent p =>
    .next { s with sout := p, dec := { s.dec with phase := if s.dec.err = .none then .done else .fault } }

end Sys2Proof.Machine
end

