-- ==== Sys2Proof/Machine/EncBuild.lean ====
section
/-! DEFINITION. ENC's first pass and tree: ENC.COUNT, ENC.QINIT, ENC.MERGE, ENC.GEN (files 41 to 43). -/

namespace Sys2Proof.Machine

/-- ENC.COUNT (R130). -/
def execEncCount (s : State) : Result :=
  match s.rin.read with
  | .wait => .next s
  | .eos p => .next { s with rin := p, enc := { s.enc with cnt := s.enc.cnt.set eofIndex 1, phase := .qinit } }
  | .got r p =>
    .next { s with
      rin := p
      enc := { s.enc with cnt := s.enc.cnt.set (byteIndex r) (satInc s.cfg.cntW s.enc.cnt[byteIndex r]) } }

/-- The node store, the queue and the node count while ENC.QINIT inserts the leaves (R142). -/
structure LeafFill where
  node : Vector Node encNodeCap
  inq : Vector Bool encNodeCap
  nn : Nat

/-- One turn of ENC.QINIT's loop over the symbols (R142). -/
def insertLeaf (cnt : Vector Nat nsym) (f : LeafFill) (sym : Fin nsym) : LeafFill :=
  if cnt[sym] = 0 then f
  else
    { node := f.node.setIfInBounds f.nn { weight := cnt[sym], kind := .leaf (BitVec.ofNat 9 sym.val) }
      inq := f.inq.setIfInBounds f.nn true
      nn := f.nn + 1 }

/-- The whole loop of ENC.QINIT, symbols ascending (R142). -/
def insertLeaves (e : Enc) : LeafFill :=
  (List.finRange nsym).foldl (insertLeaf e.cnt) { node := e.node, inq := Vector.replicate encNodeCap false, nn := 0 }

/-- ENC.QINIT (R142). -/
def execEncQinit (s : State) : Result :=
  let f := insertLeaves s.enc
  .next { s with
    enc := { s.enc with node := f.node, inq := f.inq, nn := f.nn, qsize := f.nn, phase := .merge } }

/-- One turn of the merging loop (R143): the first extracted node is the left child; the sum is `WGT_W` bits (R147). -/
def mergeTwo (s : State) : Result :=
  let a := pickMin s.enc.node s.enc.inq s.draws
  let inqA := s.enc.inq.setIfInBounds a.1 false
  let b := pickMin s.enc.node inqA a.2
  let inqB := inqA.setIfInBounds b.1 false
  if s.enc.nn < encNodeCap then
    .next { s with
      draws := b.2
      enc := { s.enc with
        node := s.enc.node.setIfInBounds s.enc.nn
          { weight := (weightAt s.enc.node a.1 + weightAt s.enc.node b.1) % 2 ^ s.cfg.wgtW
            kind := .internal a.1 b.1 }
        inq := inqB.setIfInBounds s.enc.nn true
        nn := s.enc.nn + 1
        qsize := s.enc.qsize - 1 } }
  else .fault .noSuchNode

/-- The final case of ENC.MERGE (R143): the one node left is the root; the code generator is prepared. -/
def finishTree (s : State) : Result :=
  let r := pickMin s.enc.node s.enc.inq s.draws
  .next { s with
    draws := r.2
    enc := { s.enc with
      root := r.1
      codeValid := Vector.replicate nsym false
      stk := s.enc.stk.setIfInBounds 0 { node := r.1, len := 0, bits := 0#256 }
      sp := 1
      phase := .gen } }

/-- ENC.MERGE (R143). -/
def execEncMerge (s : State) : Result := if 1 < s.enc.qsize then mergeTwo s else finishTree s

/-- The entry of a child one branch below `x` (R150, R151); `len` is 9 bits wide (R34). -/
def StkEntry.below (x : StkEntry) (b : Bool) (child : Nat) : StkEntry :=
  { node := child, len := (x.len + 1) % 2 ^ 9, bits := shiftIn x.bits b }

/-- A leaf's code recorded in the code table (R151). -/
def Enc.recordCode (i : Fin nsym) (x : StkEntry) (e : Enc) : Enc :=
  { e with codeLen := e.codeLen.set i x.len, codeBits := e.codeBits.set i x.bits
           codeValid := e.codeValid.set i true }

/-- ENC.GEN (R151). -/
def execEncGen (s : State) : Result :=
  match s.enc.pop with
  | none => .fault .noSuchStackEntry
  | some (x, e) =>
    match e.node[x.node]? with
    | none => .fault .noSuchNode
    | some n =>
      match n.kind with
      | .leaf v =>
        if h : v.toNat < nsym then .next { s with enc := (e.recordCode ⟨v.toNat, h⟩ x).endOfWalk .wrmagic }
        else .fault .noSuchSymbol
      | .internal l r =>
        match e.pushTwo (x.below true r) (x.below false l) with
        | none => .fault .noSuchStackEntry
        | some e' => .next { s with enc := e'.endOfWalk .wrmagic }

end Sys2Proof.Machine
end

