-- ==== Sys2Proof/Machine/EncWrite.lean ====
section
/-! DEFINITION. ENC's output: ENC.WRMAGIC, ENC.WRHDR, ENC.REWIND, ENC.ENCODE, ENC.WREOF, ENC.CLOSE (files 44 and 45). -/

namespace Sys2Proof.Machine

/-- ENC.WRMAGIC (R160): the magic, then the header walk is prepared. -/
def execEncWrmagic (s : State) : Result :=
  match s.cout.write 32 s.cfg.magic.toNat with
  | .wait => .next s
  | .closed => .refused .portClosed
  | .sent p =>
    .next { s with
      cout := p
      enc := { s.enc with stk := withNode s.enc.stk 0 s.enc.root, sp := 1, phase := .wrhdr } }

/-- The record of a leaf: `COUT.write(1, 1)` then `COUT.write(9, value)` (R162, R96). -/
def writeLeafRecord (v : Sym) (p : Cout) : WriteReply Cout :=
  match p.write 1 1 with
  | .wait => .wait
  | .closed => .closed
  | .sent p' => p'.write 9 v.toNat

/-- ENC.WRHDR (R162). -/
def execEncWrhdr (s : State) : Result :=
  match s.enc.pop with
  | none => .fault .noSuchStackEntry
  | some (x, e) =>
    match e.node[x.node]? with
    | none => .fault .noSuchNode
    | some n =>
      match n.kind with
      | .leaf v =>
        match writeLeafRecord v s.cout with
        | .wait => .next s
        | .closed => .refused .portClosed
        | .sent p => .next { s with cout := p, enc := e.endOfWalk .rewind }
      | .internal l r =>
        match s.cout.write 1 0 with
        | .wait => .next s
        | .closed => .refused .portClosed
        | .sent p =>
          match e.pushTwoNodes r l with
          | none => .fault .noSuchStackEntry
          | some e' => .next { s with cout := p, enc := e'.endOfWalk .rewind }

/-- ENC.REWIND (R170). -/
def execEncRewind (s : State) : Result :=
  .next { s with rin := s.rin.rewind, enc := { s.enc with phase := .encode } }

/-- The code of a symbol in ENC's table, as bits (R33, R153). -/
def codeOf (e : Enc) (i : Fin nsym) : Bits := bits e.codeLen[i] e.codeBits[i].toNat

/-- `COUT.write(code_len[s], code_bits[s])` (R172, R174). -/
def writeCode (e : Enc) (i : Fin nsym) (p : Cout) : WriteReply Cout := p.write e.codeLen[i] e.codeBits[i].toNat

/-- ENC.ENCODE (R172); a byte without a code raises EncNoCode (R173). -/
def execEncEncode (s : State) : Result :=
  match s.rin.read with
  | .wait => .next s
  | .eos p => .next { s with rin := p, enc := { s.enc with phase := .wreof } }
  | .got r p =>
    if s.enc.codeValid[byteIndex r] then
      match writeCode s.enc (byteIndex r) s.cout with
      | .wait => .next s
      | .closed => .refused .portClosed
      | .sent q => .next { s with rin := p, cout := q }
    else raise .enc .encNoCode { s with rin := p }

/-- ENC.WREOF (R174). -/
def execEncWreof (s : State) : Result :=
  match writeCode s.enc eofIndex s.cout with
  | .wait => .next s
  | .closed => .refused .portClosed
  | .sent p => .next { s with cout := p, enc := { s.enc with phase := .close } }

/-- ENC.CLOSE (R176). -/
def execEncClose (s : State) : Result :=
  match s.cout.close with
  | .wait => .next s
  | .closed => .refused .portClosed
  | .sent p =>
    .next { s with cout := p, enc := { s.enc with phase := if s.enc.err = .none then .done else .fault } }

end Sys2Proof.Machine
end

