-- ==== Sys2Proof/Machine/HostCmd.lean ====
section
/-! DEFINITION. Host commands and the waiting phases (40_host_commands.md): RESET, ENC.START, DEC.START, ENC.WAIT,
DEC.WAIT. -/

namespace Sys2Proof.Machine

/-- RESET (R121): both units to `IDLE` with `err` 0; every other register unspecified (R49); no output closed (R231). -/
def execReset (s : State) : Result :=
  .next { s with enc := Enc.afterReset s.cfg s.draws, dec := Dec.afterReset s.cfg s.draws, draws := s.draws + 1 }

/-- ENC.START(S) (R122): taken in `IDLE`, `DONE` and `FAULT`, ignored in any other phase. -/
def execEncStart (raw : List Byte) (s : State) : Result :=
  if s.enc.phase.waiting then
    .next { s with
      enc := { s.enc with cnt := Vector.replicate nsym 0, err := .none, phase := .count }
      rin := { s.rin with data := raw, replay := raw, pos := 0 }
      cout := { s.cout with bits := [], closed := false } }
  else .next s

/-- DEC.START(C) (R123): taken in `IDLE`, `DONE` and `FAULT`, ignored in any other phase. -/
def execDecStart (comp : Bits) (s : State) : Result :=
  if s.dec.phase.waiting then
    .next { s with
      dec := { s.dec with dn := 0, dsp := 0, err := .none, phase := .rdmagic }
      cin := { s.cin with data := comp, pos := 0 }
      sout := { s.sout with bytes := [], closed := false } }
  else .next s

/-- A waiting phase: no state changes (R124). -/
def waitOp (s : State) : Result := .next s

/-- ENC.WAIT in `IDLE` (R124). -/
def execEncWaitIdle (s : State) : Result := waitOp s

/-- ENC.WAIT in `DONE` (R124). -/
def execEncWaitDone (s : State) : Result := waitOp s

/-- ENC.WAIT in `FAULT` (R124). -/
def execEncWaitFault (s : State) : Result := waitOp s

/-- DEC.WAIT in `IDLE` (R124). -/
def execDecWaitIdle (s : State) : Result := waitOp s

/-- DEC.WAIT in `DONE` (R124). -/
def execDecWaitDone (s : State) : Result := waitOp s

/-- DEC.WAIT in `FAULT` (R124). -/
def execDecWaitFault (s : State) : Result := waitOp s

end Sys2Proof.Machine
end

