-- ==== Sys2Proof/Machine/Items.lean ====
section
/-! DEFINITION. The stream items as instructions of DEC (30_encoding.md): the item stands next on the compressed input and
DEC, in the phase that reads its format, takes it. In another phase, or while the host holds the port, it is not taken and
nothing changes (R69, R243; notes/assumptions/15.md). -/

namespace Sys2Proof.Machine

/-- `cpos` moved past an item of `n` bits (R66). -/
def pastItem (n : Nat) (s : State) : State := { s with cin := { s.cin with pos := s.cin.pos + n } }

/-- MAGIC (R94): taken in `RDMAGIC`, compared with the parameter (R180). -/
def execMagic (m : MagicWord) (s : State) : Result :=
  if s.dec.phase = .rdmagic ∧ s.cin.valid then takeMagic m (pastItem 32 s) else .next s

/-- HDR.NODE (R95): taken in `RDHDR`; builds an internal node (R182). -/
def execHdrNode (s : State) : Result :=
  if s.dec.phase = .rdhdr ∧ s.cin.valid then takeRecord none (pastItem 1 s) else .next s

/-- HDR.LEAF (R96): taken in `RDHDR`; builds a leaf, whatever its value (R182, R185). -/
def execHdrLeaf (v : Sym) (s : State) : Result :=
  if s.dec.phase = .rdhdr ∧ s.cin.valid then takeRecord (some v) (pastItem 10 s) else .next s

/-- DEC.DECODE once per bit of an item, as long as the phase selects it and the host does not hold it (R190, R243). -/
def takeBits : Bits → State → Result
  | [], s => .next s
  | b :: bs, s =>
    if s.dec.phase = .decode ∧ s.cin.valid then
      match takeBit b s (pastItem 1 s) with
      | .next t => if t.cin.pos = s.cin.pos then .next t else takeBits bs t
      | .fault f => .fault f
      | .refused r => .refused r
    else .next s

/-- A body item in the phase that reads it (R190): a leaf root ends the body and no bit is read (R192). -/
def takeBody (code : Bits) (s : State) : Result :=
  if s.dec.phase = .decode then
    match s.dec.rootIsLeaf with
    | none => .fault .noSuchDecNode
    | some true => .next { s with dec := { s.dec with phase := .close } }
    | some false => takeBits code s
  else .next s

/-- BODY.CODE (R98): its bits walk the tree from the root to a leaf, whose byte is written (R190). -/
def execBodyCode (code : Bits) (s : State) : Result := takeBody code s

/-- BODY.EOF (R99): its bits walk the tree to the leaf of 256, which ends the body and writes nothing (R190). -/
def execBodyEof (code : Bits) (s : State) : Result := takeBody code s

/-- PAD (R100): never read by DEC (R193), so it changes nothing, however many bits it has. -/
def execPad (_p : Nat) (s : State) : Result := .next s

end Sys2Proof.Machine
end

