-- ==== Sys2Proof/Machine/Dispatch.lean ====
section
/-! DEFINITION. The meaning of every instruction, one arm per constructor. -/

namespace Sys2Proof.Machine

def exec (i : Instr) (s : State) : Host.Outcome State Fault Refusal :=
  match i with
  -- host commands (file 40)
  | .reset => Sys2Proof.Machine.execReset s
  | .encStart raw => Sys2Proof.Machine.execEncStart raw s
  | .decStart comp => Sys2Proof.Machine.execDecStart comp s
  -- unit ENC (files 40 to 45)
  | .encWaitIdle => Sys2Proof.Machine.execEncWaitIdle s
  | .encCount => Sys2Proof.Machine.execEncCount s
  | .encQinit => Sys2Proof.Machine.execEncQinit s
  | .encMerge => Sys2Proof.Machine.execEncMerge s
  | .encGen => Sys2Proof.Machine.execEncGen s
  | .encWrmagic => Sys2Proof.Machine.execEncWrmagic s
  | .encWrhdr => Sys2Proof.Machine.execEncWrhdr s
  | .encRewind => Sys2Proof.Machine.execEncRewind s
  | .encEncode => Sys2Proof.Machine.execEncEncode s
  | .encWreof => Sys2Proof.Machine.execEncWreof s
  | .encClose => Sys2Proof.Machine.execEncClose s
  | .encWaitDone => Sys2Proof.Machine.execEncWaitDone s
  | .encWaitFault => Sys2Proof.Machine.execEncWaitFault s
  -- unit DEC (files 40, 46 and 47)
  | .decWaitIdle => Sys2Proof.Machine.execDecWaitIdle s
  | .decRdmagic => Sys2Proof.Machine.execDecRdmagic s
  | .decRdhdr => Sys2Proof.Machine.execDecRdhdr s
  | .decDecode => Sys2Proof.Machine.execDecDecode s
  | .decClose => Sys2Proof.Machine.execDecClose s
  | .decWaitDone => Sys2Proof.Machine.execDecWaitDone s
  | .decWaitFault => Sys2Proof.Machine.execDecWaitFault s
  -- stream items (file 30)
  | .magic m => Sys2Proof.Machine.execMagic m s
  | .hdrNode => Sys2Proof.Machine.execHdrNode s
  | .hdrLeaf value => Sys2Proof.Machine.execHdrLeaf value s
  | .bodyCode code => Sys2Proof.Machine.execBodyCode code s
  | .bodyEof code => Sys2Proof.Machine.execBodyEof code s
  | .pad p => Sys2Proof.Machine.execPad p s

end Sys2Proof.Machine
end

