-- ==== Sys2Proof/Machine/Fetch.lean ====
section
/-! DEFINITION. What the machine does next: the agenda says who moves (R20), a unit's phase code says which operation it
executes (R40, R90), a strobe word says which command the host gives (R90, R121, R125). -/

namespace Sys2Proof.Machine

/-- The word a unit's `phase` register holds, as the decoder reads it (R90). -/
def phaseWord (u : Agent) (s : State) : Bits :=
  match u with
  | .enc => bits 4 s.enc.phase.code.toNat
  | .dec => bits 3 s.dec.phase.code.toNat

/-- The format of a unit's phase word (R90). -/
def phaseCtx (u : Agent) : Ctx :=
  match u with
  | .enc => .encPhase
  | .dec => .decPhase

/-- The operation a unit's phase selects; none for a reserved code (R40). -/
def fetchUnit (u : Agent) (s : State) : Option Instr :=
  match decode (phaseCtx u) (phaseWord u s) with
  | .ok (i, _) => some i
  | .error _ => none

/-- The unit that moves after `u` when the agenda is empty (notes/assumptions/5.md). -/
def Agent.other : Agent → Agent
  | .enc => .dec
  | .dec => .enc

/-- What a host event that is no strobe does (R75, R210, R243). -/
def applyEvent (e : HostEvent) (s : State) : State :=
  match e with
  | .strobe _ _ _ _ _ => s
  | .lines a b c d =>
    { s with rin := { s.rin with valid := a }, cout := { s.cout with ready := b }
             cin := { s.cin with valid := c }, sout := { s.sout with ready := d } }
  | .replay raw => { s with rin := { s.rin with replay := raw } }
  | .cutRaw =>
    { s with rin := { s.rin with data := s.rin.data.take s.rin.pos, replay := s.rin.data.take s.rin.pos } }
  | .cutComp => { s with cin := { s.cin with data := s.cin.data.take s.cin.pos } }

/-- What is fetched: the instruction the step runs, if any, and the state it runs on. -/
structure Fetched where
  instr : Option Instr
  state : State

/-- A host event taken off the agenda: a strobe word gives its first command, and what it still commands stays first on
the agenda (notes/assumptions/6.md). -/
def fetchHost (e : HostEvent) (s : State) : Fetched :=
  match e with
  | .strobe rst es ds raw comp =>
    match commands rst es ds raw comp with
    | [] => { instr := none, state := s }
    | [i] => { instr := some i, state := s }
    | i :: _ :: _ =>
      { instr := some i, state := { s with agenda := .host (.strobe false false ds raw comp) :: s.agenda } }
  | .lines _ _ _ _ => { instr := none, state := applyEvent e s }
  | .replay _ => { instr := none, state := applyEvent e s }
  | .cutRaw => { instr := none, state := applyEvent e s }
  | .cutComp => { instr := none, state := applyEvent e s }

/-- The next move of the machine. -/
def fetch (s : State) : Fetched :=
  match s.agenda with
  | [] => { instr := fetchUnit s.turn s, state := { s with turn := s.turn.other } }
  | .unit u :: rest => { instr := fetchUnit u s, state := { s with agenda := rest } }
  | .host e :: rest => fetchHost e { s with agenda := rest }

/-- The compressed input with `item` standing at `cpos` and the host presenting it. -/
def Cin.place (item : Bits) (p : Cin) : Cin :=
  { data := p.data.take p.pos ++ item ++ p.data.drop (p.pos + item.length), pos := p.pos, valid := true }

/-- The state in which unit DEC moves next, in `phase`, with `item` standing at its port. -/
def placeItem (phase : DecPhase) (item : Bits) (s : State) : State :=
  { s with dec := { s.dec with phase := phase }, cin := s.cin.place item, agenda := .unit .dec :: s.agenda }

/-- The state in which unit ENC moves next, in the phase of this code. -/
def placeEnc (code : Nat) (s : State) : State :=
  { s with enc := { s.enc with phase := EncPhase.ofCode code }, agenda := .unit .enc :: s.agenda }

/-- The state in which unit DEC moves next, in the phase of this code. -/
def placeDec (code : Nat) (s : State) : State :=
  { s with dec := { s.dec with phase := DecPhase.ofCode code }, agenda := .unit .dec :: s.agenda }

/-- The state in which the host gives this strobe word next. -/
def placeStrobe (rst es ds : Bool) (raw : List Byte) (comp : Bits) (s : State) : State :=
  { s with agenda := .host (.strobe rst es ds raw comp) :: s.agenda }

/-- `s` with the instruction `i` standing where the next step finds it (notes/assumptions/20.md). -/
def placeInstr (i : Instr) (s : State) : State :=
  match i with
  | .reset => placeStrobe true false false [] [] s
  | .encStart raw => placeStrobe false true false raw [] s
  | .decStart comp => placeStrobe false false true [] comp s
  | .encWaitIdle => placeEnc 0 s
  | .encCount => placeEnc 1 s
  | .encQinit => placeEnc 2 s
  | .encMerge => placeEnc 3 s
  | .encGen => placeEnc 4 s
  | .encWrmagic => placeEnc 5 s
  | .encWrhdr => placeEnc 6 s
  | .encRewind => placeEnc 7 s
  | .encEncode => placeEnc 8 s
  | .encWreof => placeEnc 9 s
  | .encClose => placeEnc 10 s
  | .encWaitDone => placeEnc 11 s
  | .encWaitFault => placeEnc 12 s
  | .decWaitIdle => placeDec 0 s
  | .decRdmagic => placeDec 1 s
  | .decRdhdr => placeDec 2 s
  | .decDecode => placeDec 3 s
  | .decClose => placeDec 4 s
  | .decWaitDone => placeDec 5 s
  | .decWaitFault => placeDec 6 s
  | .magic m => placeItem .rdmagic (encode (.magic m)) s
  | .hdrNode => placeItem .rdhdr (encode .hdrNode) s
  | .hdrLeaf v => placeItem .rdhdr (encode (.hdrLeaf v)) s
  | .bodyCode c => placeItem .decode c s
  | .bodyEof c => placeItem .decode c s
  | .pad p => placeItem .close (encode (.pad p)) s

/-- The host's question about one table word (see `State.withFetchWord`): the instruction of the word is placed; a word
that is no instruction is placed as a reserved ENC phase code. -/
def placeWord (nbits w : Nat) (s : State) : State :=
  match decodeTableWord nbits w with
  | some i => placeInstr i s
  | none => placeEnc 15 s

end Sys2Proof.Machine
end

