-- ==== Sys2Proof/Machine/Step.lean ====
section
/-! DEFINITION. One step: fetch, then the fetched instruction's meaning. A fetch that finds no operation (a reserved phase
code, a strobe word that commands nothing, a host event) changes no more than the fetch itself (R40, R243). -/

namespace Sys2Proof.Machine

/-- One step of the machine. -/
def step (s : State) : Host.Outcome State Fault Refusal :=
  match (fetch s).instr with
  | some i => exec i (fetch s).state
  | none => .next (fetch s).state

/-- One turn of a unit: the operation its phase selects (R90); none for a reserved code (R40). -/
def runUnit (u : Agent) (s : State) : Host.Outcome State Fault Refusal :=
  match fetchUnit u s with
  | some i => exec i s
  | none => .next s

/-- `s` with the instruction of a table word where `step` fetches its next instruction. -/
def State.withFetchWord (s : State) (nbits w : Nat) : State := placeWord nbits w s

end Sys2Proof.Machine
end

