-- ==== Sys2Proof/Safety.lean ====
section
/-! DEFINITION. What claims are stated in: turns of one unit, trees held in the node stores, the queue's minimum, the phase
tables, widths, and the invariants of a safe run (one in which no model fault or refusal can arise, R232). -/

namespace Sys2Proof.Machine

/-- `k` turns of one unit; it stops at the first fault or refusal (R21, R105). -/
def turns (u : Agent) : Nat → State → Result
  | 0, s => .next s
  | k + 1, s =>
    match runUnit u s with
    | .next t => turns u k t
    | .fault f => .fault f
    | .refused r => .refused r

/-- The host completes every handshake (R243). -/
def LinesReady (s : State) : Prop :=
  s.rin.valid = true ∧ s.cout.ready = true ∧ s.cin.valid = true ∧ s.sout.ready = true

/-- The compressed output can take bits now: the host is ready and the port is open. -/
def CoutOpen (s : State) : Prop := s.cout.ready = true ∧ s.cout.closed = false

/-- The raw output can take bytes now. -/
def SoutOpen (s : State) : Prop := s.sout.ready = true ∧ s.sout.closed = false

/-- The compressed input holds `item` next (R66). -/
def CinPresents (item : Bits) (s : State) : Prop :=
  s.cin.valid = true ∧ item.length ≤ s.cin.data.length - s.cin.pos ∧
    (s.cin.data.drop s.cin.pos).take item.length = item

/-- ENC's node store holds the tree at this index; a child's index is lower than its parent's (R23, R145). -/
def NodeRep (node : Vector Node encNodeCap) : HTree → Nat → Prop
  | .leaf v, i => ∃ w, node[i]? = some { weight := w, kind := .leaf v }
  | .node l r, i =>
    ∃ w a b, node[i]? = some { weight := w, kind := .internal a b } ∧ a < i ∧ b < i ∧
      NodeRep node l a ∧ NodeRep node r b

/-- DEC's node store holds the tree at this index (R36). -/
def DNodeRep (dnode : List DNode) : HTree → Nat → Prop
  | .leaf v, i => dnode[i]? = some (.leaf v)
  | .node l r, i =>
    ∃ a b, dnode[i]? = some (.internal (some a) (some b)) ∧ DNodeRep dnode l a ∧ DNodeRep dnode r b

/-- The leaf values of a tree, left to right. -/
def HTree.leafValues : HTree → List Sym
  | .leaf v => [v]
  | .node l r => HTree.leafValues l ++ HTree.leafValues r

/-- Every leaf value is a symbol `0..256` (R23). -/
def SymbolsLegal (t : HTree) : Prop := ∀ v ∈ HTree.leafValues t, v.toNat < nsym

/-- `(weight, index)` of `i` is at most that of `j` in lexicographic order (R141). -/
def QueueLE (node : Vector Node encNodeCap) (i j : Nat) : Prop :=
  weightAt node i < weightAt node j ∨ (weightAt node i = weightAt node j ∧ i ≤ j)

/-- `i` is the member of the queue that `argmin_q()` names (R141). -/
def IsQueueMin (node : Vector Node encNodeCap) (inq : Vector Bool encNodeCap) (i : Nat) : Prop :=
  inq[i]? = some true ∧ ∀ j, inq[j]? = some true → QueueLE node i j

/-- The symbols with a nonzero count, ascending (R142). -/
def presentSymbols (cnt : Vector Nat nsym) : List (Fin nsym) := (List.finRange nsym).filter fun i => cnt[i] ≠ 0

/-- How often a byte occurs in the input (R132). -/
def occurrences (r : Byte) (raw : List Byte) : Nat := raw.countP fun x => x == r

/-- The number of distinct symbols of an input, pseudo-EOF included (R105, R245). -/
def distinctSymbols (raw : List Byte) : Nat := raw.dedup.length + 1

/-- The unit an instruction acts on; RESET acts on both (R121). -/
def Instr.unit : Instr → Option Agent
  | .reset => none
  | .encStart _ => some .enc
  | .decStart _ => some .dec
  | .encWaitIdle => some .enc
  | .encCount => some .enc
  | .encQinit => some .enc
  | .encMerge => some .enc
  | .encGen => some .enc
  | .encWrmagic => some .enc
  | .encWrhdr => some .enc
  | .encRewind => some .enc
  | .encEncode => some .enc
  | .encWreof => some .enc
  | .encClose => some .enc
  | .encWaitDone => some .enc
  | .encWaitFault => some .enc
  | .decWaitIdle => some .dec
  | .decRdmagic => some .dec
  | .decRdhdr => some .dec
  | .decDecode => some .dec
  | .decClose => some .dec
  | .decWaitDone => some .dec
  | .decWaitFault => some .dec
  | .magic _ => some .dec
  | .hdrNode => some .dec
  | .hdrLeaf _ => some .dec
  | .bodyCode _ => some .dec
  | .bodyEof _ => some .dec
  | .pad _ => some .dec

/-- Two states that show the same to unit `u`: its registers, its ports, the parameters (and, for ENC, the counter of free
values). -/
def SameView (u : Agent) (s t : State) : Prop :=
  match u with
  | .enc => s.cfg = t.cfg ∧ s.enc = t.enc ∧ s.rin = t.rin ∧ s.cout = t.cout ∧ s.draws = t.draws
  | .dec => s.cfg = t.cfg ∧ s.dec = t.dec ∧ s.cin = t.cin ∧ s.sout = t.sout

/-- Two results that are the same to unit `u`. -/
def SameResult (u : Agent) : Result → Result → Prop
  | .next s, .next t => SameView u s t
  | .fault f, .fault g => f = g
  | .refused f, .refused g => f = g
  | .next _, .fault _ => False
  | .next _, .refused _ => False
  | .fault _, .next _ => False
  | .fault _, .refused _ => False
  | .refused _, .next _ => False
  | .refused _, .fault _ => False

/-- The moves of `ENC.phase` in the table of R41; RESET's move to `IDLE` is the first entry of each row. -/
def encMoves : EncPhase → List EncPhase
  | .idle => [.idle, .count]
  | .count => [.idle, .count, .qinit]
  | .qinit => [.idle, .merge]
  | .merge => [.idle, .merge, .gen]
  | .gen => [.idle, .gen, .wrmagic]
  | .wrmagic => [.idle, .wrhdr]
  | .wrhdr => [.idle, .wrhdr, .rewind]
  | .rewind => [.idle, .encode]
  | .encode => [.idle, .encode, .close, .wreof]
  | .wreof => [.idle, .close]
  | .close => [.idle, .done, .fault]
  | .done => [.idle, .count]
  | .fault => [.idle, .count]
  | .reserved13 => [.idle]
  | .reserved14 => [.idle]
  | .reserved15 => [.idle]

/-- The moves of `DEC.phase` in the table of R42. -/
def decMoves : DecPhase → List DecPhase
  | .idle => [.idle, .rdmagic]
  | .rdmagic => [.idle, .rdhdr, .close]
  | .rdhdr => [.idle, .close, .rdhdr, .decode]
  | .decode => [.idle, .close, .decode]
  | .close => [.idle, .done, .fault]
  | .done => [.idle, .rdmagic]
  | .fault => [.idle, .rdmagic]
  | .reserved7 => [.idle]

/-- A node of ENC's store fits its fields' widths (R23). -/
def Node.Fits (c : Config) (n : Node) : Prop :=
  n.weight < 2 ^ c.wgtW ∧
    match n.kind with
    | .leaf _ => True
    | .internal l r => l < 2 ^ 10 ∧ r < 2 ^ 10

/-- A node of DEC's store fits its fields' widths (R36). -/
def DNode.Fits (n : DNode) : Prop := ∀ b i, n.child b = some i → i < 2 ^ 10

/-- Every register of ENC fits its width (R22 to R34). -/
def Enc.Fits (c : Config) (e : Enc) : Prop :=
  (∀ i : Fin nsym, e.cnt[i] < 2 ^ c.cntW) ∧ (∀ i : Fin encNodeCap, Node.Fits c e.node[i]) ∧
    e.nn < 2 ^ 10 ∧ e.qsize < 2 ^ 10 ∧ e.root < 2 ^ 10 ∧ (∀ i : Fin nsym, e.codeLen[i] < 2 ^ 9) ∧
    (∀ i : Fin encStkCap, e.stk[i].node < 2 ^ 10 ∧ e.stk[i].len < 2 ^ 9) ∧ e.sp < 2 ^ 9

/-- Every register of DEC fits its width, and its stores have `DEC_NODE_CAP` entries (R36 to R38). -/
def Dec.Fits (c : Config) (d : Dec) : Prop :=
  d.dnode.length = c.decNodeCap ∧ d.dstk.length = c.decNodeCap ∧ (∀ n ∈ d.dnode, DNode.Fits n) ∧
    (∀ x ∈ d.dstk, x.node < 2 ^ 10) ∧ d.dn ≤ 2 ^ 10 ∧ d.droot < 2 ^ 10 ∧ d.cur < 2 ^ 10 ∧ d.dsp ≤ c.decNodeCap

/-- The whole state fits the widths the spec gives, and the stream positions lie inside their streams (R46, R48). -/
def State.Fits (s : State) : Prop :=
  s.cfg.wf ∧ Enc.Fits s.cfg s.enc ∧ Dec.Fits s.cfg s.dec ∧ s.rin.pos ≤ s.rin.data.length ∧
    s.cin.pos ≤ s.cin.data.length

/-- `err` and `phase` agree (R204, R206, R207): an error is held only in `CLOSE` and `FAULT`; `FAULT` holds one, `DONE`
none; codes belong to their unit (R201). -/
def State.ErrAgrees (s : State) : Prop :=
  (s.enc.err ≠ .none → s.enc.err = .encNoCode ∧ (s.enc.phase = .close ∨ s.enc.phase = .fault)) ∧
    (s.enc.phase = .fault → s.enc.err ≠ .none) ∧
    (s.dec.err ≠ .none → s.dec.err ≠ .encNoCode ∧ (s.dec.phase = .close ∨ s.dec.phase = .fault)) ∧
    (s.dec.phase = .fault → s.dec.err ≠ .none)

/-- An output is open while its unit is busy and closed once the run has ended (R65, R68, R206). -/
def State.OutputsAgree (s : State) : Prop :=
  (s.enc.busy = true → s.cout.closed = false) ∧
    (s.enc.phase = .done ∨ s.enc.phase = .fault → s.cout.closed = true) ∧
    (s.dec.busy = true → s.sout.closed = false) ∧
    (s.dec.phase = .done ∨ s.dec.phase = .fault → s.sout.closed = true)

/-- No unit is in a reserved phase (R40). -/
def State.PhasesLegal (s : State) : Prop :=
  s.enc.phase ≠ .reserved13 ∧ s.enc.phase ≠ .reserved14 ∧ s.enc.phase ≠ .reserved15 ∧ s.dec.phase ≠ .reserved7

/-- The builder's forest (R140 to R145): the queue's members are the roots of disjointly counted trees, at most 257 leaves
in all, and the node store has room for every merge that is left. -/
def ForestOk (e : Enc) : Prop :=
  ∃ q : List (Nat × HTree),
    (q.map Prod.fst).Nodup ∧ (∀ i, e.inq[i]? = some true ↔ i ∈ q.map Prod.fst) ∧
      q.length = e.qsize ∧ 1 ≤ e.qsize ∧ e.nn + e.qsize ≤ encNodeCap + 1 ∧
      (∀ p ∈ q, p.1 < e.nn ∧ NodeRep e.node p.2 p.1 ∧ SymbolsLegal p.2) ∧
      (q.map fun p => p.2.leafCount).sum ≤ nsym

/-- The finished tree (R145). -/
def TreeOk (e : Enc) : Prop := ∃ t, NodeRep e.node t e.root ∧ SymbolsLegal t ∧ t.leafCount ≤ nsym

/-- A walk under way (R152): the stack holds the roots of the subtrees still to be visited. -/
def WalkOk (e : Enc) : Prop :=
  ∃ ts : List HTree,
    ts.length = e.sp ∧ 1 ≤ e.sp ∧
      (∀ k (h : k < ts.length), ∃ x, e.stk[k]? = some x ∧ NodeRep e.node ts[k] x.node ∧ SymbolsLegal ts[k]) ∧
      (ts.map HTree.leafCount).sum ≤ nsym

/-- What holds of ENC in each phase of a run (R232). -/
def Enc.Safe (e : Enc) : Prop :=
  match e.phase with
  | .idle => True
  | .count => True
  | .qinit => e.cnt[eofIndex] = 1
  | .merge => ForestOk e
  | .gen => TreeOk e ∧ WalkOk e
  | .wrmagic => TreeOk e
  | .wrhdr => WalkOk e
  | .rewind => True
  | .encode => True
  | .wreof => True
  | .close => True
  | .done => True
  | .fault => True
  | .reserved13 => True
  | .reserved14 => True
  | .reserved15 => True

/-- The header reader's store (R182, R183): the pending parents are distinct allocated internal nodes, each missing exactly
the children its side says; every other internal node is complete; children and root are allocated. -/
def PendingOk (d : Dec) : Prop :=
  d.dsp ≤ d.dn ∧ (0 < d.dn → d.droot = 0 ∧ 0 < d.dsp) ∧
    ((d.dstk.take d.dsp).map DStkEntry.node).Nodup ∧
    (∀ x ∈ d.dstk.take d.dsp, x.node < d.dn ∧
      if x.side then ∃ l, d.dnode[x.node]? = some (.internal (some l) none) ∧ l < d.dn
      else d.dnode[x.node]? = some (.internal none none)) ∧
    (∀ i, i < d.dn → i ∉ (d.dstk.take d.dsp).map DStkEntry.node →
      ∀ l r, d.dnode[i]? = some (.internal l r) → ∃ a b, l = some a ∧ r = some b ∧ a < d.dn ∧ b < d.dn)

/-- The finished tree of DEC and the walker on it (R36, R190): the walker stands on an internal node unless the root is a
leaf. -/
def DecodeOk (d : Dec) : Prop :=
  d.dn ≤ d.dnode.length ∧ d.droot < d.dn ∧ d.cur < d.dn ∧
    (∀ i, i < d.dn → ∀ l r, d.dnode[i]? = some (.internal l r) → ∃ a b, l = some a ∧ r = some b ∧ a < d.dn ∧ b < d.dn) ∧
    (d.rootIsLeaf = some false → ∃ l r, d.dnode[d.cur]? = some (.internal l r))

/-- What holds of DEC in each phase of a run (R232). -/
def Dec.Safe (c : Config) (d : Dec) : Prop :=
  d.dnode.length = c.decNodeCap ∧ d.dstk.length = c.decNodeCap ∧
    match d.phase with
    | .idle => True
    | .rdmagic => d.dn = 0 ∧ d.dsp = 0
    | .rdhdr => d.dn ≤ c.decNodeCap ∧ PendingOk d
    | .decode => DecodeOk d
    | .close => True
    | .done => True
    | .fault => True
    | .reserved7 => True

/-- The invariant of a safe run: no operation can meet a model fault or a closed port (R232, R205). -/
def State.Safe (s : State) : Prop :=
  s.OutputsAgree ∧ s.PhasesLegal ∧ s.enc.Safe ∧ Dec.Safe s.cfg s.dec

/-- The bits of a header record: `none` is HDR.NODE, `some v` is HDR.LEAF(v) (R95, R96). -/
def recordBits : Option Sym → Bits
  | none => [false]
  | some v => true :: bits 9 v.toNat

/-- The header record as an instruction. -/
def recordItem : Option Sym → Instr
  | none => .hdrNode
  | some v => .hdrLeaf v

/-- DEC, in this state, is about to take the header record `r`: by DEC.RDHDR, the record standing on the compressed input,
or by the record as an item (R182, R95, R96). -/
def TakesRecord (r : Option Sym) (s : State) (i : Instr) : Prop :=
  (i = .decRdhdr ∧ CinPresents (recordBits r) s) ∨ (i = recordItem r ∧ s.dec.phase = .rdhdr ∧ s.cin.valid = true)

/-- DEC, in this state, is about to walk the body bit `b`: by DEC.DECODE, the bit standing on the compressed input, or by a
body item that begins with it (R190, R98, R99). -/
def WalksBit (b : Bool) (s : State) (i : Instr) : Prop :=
  (i = .decDecode ∧ CinPresents [b] s) ∨
    (∃ bs, (i = .bodyCode (b :: bs) ∨ i = .bodyEof (b :: bs)) ∧ s.dec.phase = .decode ∧ s.cin.valid = true)

/-- The index in DEC's store that a path of body bits leads to from the index `k` (R190). -/
def nodeAlong (dnode : List DNode) : Bits → Nat → Option Nat
  | [], k => some k
  | b :: bs, k =>
    match dnode[k]? with
    | none => none
    | some n =>
      match n.child b with
      | none => none
      | some c => nodeAlong dnode bs c

/-- The decoder as a function (R196): from the node `cur` of the tree `root`, the bytes written, whether the pseudo-EOF leaf
was reached, and the number of bits read. -/
def bodyWalk (root : HTree) : HTree → Bits → List Byte × Bool × Nat
  | .leaf _, _ => ([], false, 0)
  | .node _ _, [] => ([], false, 0)
  | .node l r, b :: bs =>
    match (if b then r else l) with
    | .leaf v =>
      if v = pseudoEof then ([], true, 1)
      else
        let rest := bodyWalk root root bs
        (lowByte v :: rest.1, rest.2.1, rest.2.2 + 1)
    | .node l' r' =>
      let rest := bodyWalk root (.node l' r') bs
      (rest.1, rest.2.1, rest.2.2 + 1)

/-- Which instructions stand in which place (R90, R91): the operands of a strobe word are the host's, a body item is a path
of the tree, the padding has the length the stream's bits leave. -/
def StandsIn : Ctx → Instr → Prop
  | .strobes raw comp, i => i = .reset ∨ i = .encStart raw ∨ i = .decStart comp
  | .encPhase, i =>
    i ∈ [Instr.encWaitIdle, .encCount, .encQinit, .encMerge, .encGen, .encWrmagic, .encWrhdr, .encRewind, .encEncode,
      .encWreof, .encClose, .encWaitDone, .encWaitFault]
  | .decPhase, i =>
    i ∈ [Instr.decWaitIdle, .decRdmagic, .decRdhdr, .decDecode, .decClose, .decWaitDone, .decWaitFault]
  | .magicWord, i => ∃ m, i = .magic m
  | .header, i => ∃ r, i = recordItem r
  | .body (.leaf _), i => i = .bodyEof []
  | .body (.node l r), i =>
    (∃ c v, (v, c) ∈ (HTree.node l r).codes ∧ v ≠ pseudoEof ∧ i = .bodyCode c) ∨
      (∃ c, (pseudoEof, c) ∈ (HTree.node l r).codes ∧ i = .bodyEof c)
  | .padding total, i => i = .pad (padLength total)

/-- The operation each ENC phase selects (R40, R124). -/
def encOperation : EncPhase → Option Instr
  | .idle => some .encWaitIdle
  | .count => some .encCount
  | .qinit => some .encQinit
  | .merge => some .encMerge
  | .gen => some .encGen
  | .wrmagic => some .encWrmagic
  | .wrhdr => some .encWrhdr
  | .rewind => some .encRewind
  | .encode => some .encEncode
  | .wreof => some .encWreof
  | .close => some .encClose
  | .done => some .encWaitDone
  | .fault => some .encWaitFault
  | .reserved13 => none
  | .reserved14 => none
  | .reserved15 => none

/-- The operation each DEC phase selects (R40, R124). -/
def decOperation : DecPhase → Option Instr
  | .idle => some .decWaitIdle
  | .rdmagic => some .decRdmagic
  | .rdhdr => some .decRdhdr
  | .decode => some .decDecode
  | .close => some .decClose
  | .done => some .decWaitDone
  | .fault => some .decWaitFault
  | .reserved7 => none

end Sys2Proof.Machine
end

