-- ==== Sys2Proof/Certificates/Slice0/Obligations.lean ====
section
/-! DEFINITION. The statements for the provers. An equation `exec i s = .next { s with ... }` says the instruction's whole
effect: every register, port and stream that the right side does not name is unchanged. -/

open Sys2Proof Sys2Proof.Machine

/-! ## Reset and the host's commands (files 40 and 70) -/

/-- The state right after reset, in what the spec gives it (R49, R230): both units `IDLE` with `err` 0, both STATUS words 0,
no unit busy, done or faulted. -/
def Obligations.ResetStateIsIdle : Prop :=
  State.reset.enc.phase = .idle ∧ State.reset.enc.err = .none ∧ State.reset.dec.phase = .idle ∧
    State.reset.dec.err = .none ∧ State.reset.enc.status = 0 ∧ State.reset.dec.status = 0 ∧
    State.reset.enc.busy = false ∧ State.reset.enc.done = false ∧ State.reset.enc.faulted = false ∧
    State.reset.dec.busy = false ∧ State.reset.dec.done = false ∧ State.reset.dec.faulted = false

/-- The command RESET (R121, R231), from every state: both units go to `IDLE` with `err` 0; no port changes, so an output
under way is not closed and what was written stays. Of the other registers nothing is said (R49). -/
def Obligations.ResetCommandGoesIdle : Prop :=
  ∀ s : State, ∃ t, exec .reset s = .next t ∧ t.enc.phase = .idle ∧ t.enc.err = .none ∧ t.dec.phase = .idle ∧
    t.dec.err = .none ∧ t.enc.status = 0 ∧ t.dec.status = 0 ∧
    t.rin = s.rin ∧ t.cout = s.cout ∧ t.cin = s.cin ∧ t.sout = s.sout ∧ t.cfg = s.cfg

/-- ENC.START(S) (R122): in `IDLE`, `DONE` or `FAULT` it clears the counts and `err`, binds fresh streams and goes to
`COUNT`; in any other phase it changes nothing. -/
def Obligations.EncStartBeginsOrIsIgnored : Prop :=
  ∀ (raw : List Byte) (s : State),
    ((s.enc.phase = .idle ∨ s.enc.phase = .done ∨ s.enc.phase = .fault) →
      exec (.encStart raw) s = .next { s with
        enc := { s.enc with cnt := Vector.replicate 257 0, err := .none, phase := .count }
        rin := { s.rin with data := raw, replay := raw, pos := 0 }
        cout := { s.cout with bits := [], closed := false } }) ∧
    (¬(s.enc.phase = .idle ∨ s.enc.phase = .done ∨ s.enc.phase = .fault) → exec (.encStart raw) s = .next s)

/-- DEC.START(C) (R123). -/
def Obligations.DecStartBeginsOrIsIgnored : Prop :=
  ∀ (comp : Bits) (s : State),
    ((s.dec.phase = .idle ∨ s.dec.phase = .done ∨ s.dec.phase = .fault) →
      exec (.decStart comp) s = .next { s with
        dec := { s.dec with dn := 0, dsp := 0, err := .none, phase := .rdmagic }
        cin := { s.cin with data := comp, pos := 0 }
        sout := { s.sout with bytes := [], closed := false } }) ∧
    (¬(s.dec.phase = .idle ∨ s.dec.phase = .done ∨ s.dec.phase = .fault) → exec (.decStart comp) s = .next s)

/-- The six waiting operations change nothing, in any state (R124); PAD, which DEC never reads, changes nothing (R100,
R193). -/
def Obligations.WaitingOperationsChangeNothing : Prop :=
  ∀ (s : State) (p : Nat),
    exec .encWaitIdle s = .next s ∧ exec .encWaitDone s = .next s ∧ exec .encWaitFault s = .next s ∧
    exec .decWaitIdle s = .next s ∧ exec .decWaitDone s = .next s ∧ exec .decWaitFault s = .next s ∧
    exec (.pad p) s = .next s

/-! ## Unit ENC: counting and the tree (files 41 to 43) -/

/-- ENC.COUNT (R130, R131): a byte's count goes up by one and sticks at all ones; `EOS` sets `cnt[256]` to 1 and moves to
`QINIT`. Every other register, count and port is unchanged. -/
def Obligations.CountTalliesOneItem : Prop :=
  ∀ s : State, s.rin.valid = true →
    (∀ r, s.rin.data[s.rin.pos]? = some r → ∃ t, exec .encCount s = .next t ∧
      t.enc.cnt[byteIndex r] =
        (if s.enc.cnt[byteIndex r] < 2 ^ s.cfg.cntW - 1 then s.enc.cnt[byteIndex r] + 1 else s.enc.cnt[byteIndex r]) ∧
      (∀ x : Fin nsym, x ≠ byteIndex r → t.enc.cnt[x] = s.enc.cnt[x]) ∧
      t = { s with rin := { s.rin with pos := s.rin.pos + 1 }, enc := { s.enc with cnt := t.enc.cnt } }) ∧
    (s.rin.data[s.rin.pos]? = none → ∃ t, exec .encCount s = .next t ∧
      t.enc.cnt[eofIndex] = 1 ∧ (∀ x : Fin nsym, x ≠ eofIndex → t.enc.cnt[x] = s.enc.cnt[x]) ∧
      t = { s with enc := { s.enc with cnt := t.enc.cnt, phase := .qinit } })

/-- ENC.QINIT (R142), from every state: node `k` is the leaf of the `k`-th smallest symbol of nonzero count with that count
as its weight, the queue holds exactly these nodes, and `nn` and `qsize` are their number. Nothing else changes. That the
nodes from `nn` on, which the spec gives any value, keep theirs is the model's choice (notes/assumptions/13.md). -/
def Obligations.QinitMakesOneLeafPerPresentSymbol : Prop :=
  ∀ s : State, ∃ t, exec .encQinit s = .next t ∧
    t.enc.nn = (presentSymbols s.enc.cnt).length ∧ t.enc.qsize = (presentSymbols s.enc.cnt).length ∧
    (∀ k (h : k < (presentSymbols s.enc.cnt).length),
      t.enc.node[k]? = some { weight := s.enc.cnt[(presentSymbols s.enc.cnt)[k]]
                              kind := .leaf (BitVec.ofNat 9 (presentSymbols s.enc.cnt)[k].val) }) ∧
    (∀ k, (presentSymbols s.enc.cnt).length ≤ k → t.enc.node[k]? = s.enc.node[k]?) ∧
    (∀ k, k < encNodeCap → t.enc.inq[k]? = some (decide (k < (presentSymbols s.enc.cnt).length))) ∧
    t = { s with enc := { s.enc with node := t.enc.node, inq := t.enc.inq, nn := t.enc.nn, qsize := t.enc.qsize
                                     phase := .merge } }

/-- `argmin_q()` (R141): of a queue that is not empty it is the one member least in (weight, index), and no free value is
drawn. -/
def Obligations.QueueMinimumIsLeastByWeightThenIndex : Prop :=
  ∀ (node : Vector Node encNodeCap) (inq : Vector Bool encNodeCap) (draws i : Nat), inq[i]? = some true →
    ∃ a, IsQueueMin node inq a ∧ pickMin node inq draws = (a, draws) ∧ ∀ b, IsQueueMin node inq b → b = a

/-- ENC.MERGE (R143, R147): with two or more nodes in the queue the least `a` and the least of the rest `b` become the left
and the right child of a new node, whose weight is their sum in `WGT_W` bits, exact when it fits; with one left, it is the
root and the code generator is prepared. -/
def Obligations.MergeJoinsTheTwoLightest : Prop :=
  ∀ (s : State),
    (∀ a b, 1 < s.enc.qsize → s.enc.nn < encNodeCap → IsQueueMin s.enc.node s.enc.inq a →
      IsQueueMin s.enc.node (s.enc.inq.setIfInBounds a false) b →
      exec .encMerge s = .next { s with enc := { s.enc with
        node := s.enc.node.setIfInBounds s.enc.nn
          { weight := (weightAt s.enc.node a + weightAt s.enc.node b) % 2 ^ (s.cfg.cntW + 9), kind := .internal a b }
        inq := ((s.enc.inq.setIfInBounds a false).setIfInBounds b false).setIfInBounds s.enc.nn true
        nn := s.enc.nn + 1
        qsize := s.enc.qsize - 1 } }) ∧
    (∀ r, ¬ 1 < s.enc.qsize → IsQueueMin s.enc.node s.enc.inq r →
      exec .encMerge s = .next { s with enc := { s.enc with
        root := r, codeValid := Vector.replicate 257 false
        stk := s.enc.stk.setIfInBounds 0 { node := r, len := 0, bits := 0#256 }, sp := 1, phase := .gen } })

/-- ENC.MERGE completes whenever a merge has room for its node, whatever the queue holds; of an empty queue it takes a free
node index (the model's choice, notes/assumptions/9.md). -/
def Obligations.MergeCompletesWithRoom : Prop :=
  ∀ s : State, (1 < s.enc.qsize → s.enc.nn < encNodeCap) → ∃ t, exec .encMerge s = .next t ∧
    t.dec = s.dec ∧ t.rin = s.rin ∧ t.cout = s.cout ∧ t.cin = s.cin ∧ t.sout = s.sout ∧ t.cfg = s.cfg ∧
    t.enc.cnt = s.enc.cnt ∧ t.enc.err = s.enc.err ∧ t.enc.codeLen = s.enc.codeLen ∧ t.enc.codeBits = s.enc.codeBits ∧
    (¬ 1 < s.enc.qsize → t.enc.root < encNodeCap ∧ t.enc.phase = .gen ∧ t.enc.sp = 1 ∧
      t.enc.stk[0]? = some { node := t.enc.root, len := 0, bits := 0#256 } ∧ t.enc.node = s.enc.node)

/-- ENC.GEN (R151): the top entry is popped; a leaf's symbol gets its length and numeral and becomes valid; an internal
node's children are pushed one branch longer, the left one on top; the walk ends when the stack is empty. That the stack
entries at or above the pointer and the codes that are not valid, which the spec gives any value, keep theirs is the model's
choice (notes/assumptions/13.md). -/
def Obligations.GenVisitsOneNode : Prop :=
  ∀ (s : State) (x : StkEntry) (w : Nat), 1 ≤ s.enc.sp → s.enc.stk[s.enc.sp - 1]? = some x →
    (∀ (v : Sym) (h : v.toNat < nsym), s.enc.node[x.node]? = some { weight := w, kind := .leaf v } →
      exec .encGen s = .next { s with enc := { s.enc with
        codeLen := s.enc.codeLen.set v.toNat x.len, codeBits := s.enc.codeBits.set v.toNat x.bits
        codeValid := s.enc.codeValid.set v.toNat true, sp := s.enc.sp - 1
        phase := if s.enc.sp = 1 then .wrmagic else s.enc.phase } }) ∧
    (∀ l r, s.enc.sp < encStkCap → s.enc.node[x.node]? = some { weight := w, kind := .internal l r } →
      exec .encGen s = .next { s with enc := { s.enc with
        stk := (s.enc.stk.setIfInBounds (s.enc.sp - 1)
            { node := r, len := (x.len + 1) % 2 ^ 9, bits := (x.bits <<< 1) ||| 1#256 }).setIfInBounds s.enc.sp
            { node := l, len := (x.len + 1) % 2 ^ 9, bits := x.bits <<< 1 }
        sp := s.enc.sp + 1 } })

/-! ## Unit ENC: the output (files 44 and 45) -/

/-- ENC.WRMAGIC (R160): the 32 bits of the magic are appended and the header walk is prepared at the root. That the
other stack entries, which the spec gives any value, keep theirs is the model's choice (notes/assumptions/13.md). -/
def Obligations.WrmagicWritesMagicAndPreparesWalk : Prop :=
  ∀ s : State, CoutOpen s → ∃ t, exec .encWrmagic s = .next t ∧
    (∃ x, t.enc.stk[0]? = some x ∧ x.node = s.enc.root) ∧ (∀ k, k ≠ 0 → t.enc.stk[k]? = s.enc.stk[k]?) ∧
    t = { s with cout := { s.cout with bits := s.cout.bits ++ bits 32 s.cfg.magic.toNat }
                 enc := { s.enc with stk := t.enc.stk, sp := 1, phase := .wrhdr } }

/-- ENC.WRHDR (R162): a leaf is written as the bits of HDR.LEAF, an internal node as those of HDR.NODE with its children
pushed, the left one on top; the walk ends when the stack is empty. That the stack entries at or above the pointer, which the
spec gives any value, keep theirs is the model's choice (notes/assumptions/13.md). -/
def Obligations.WrhdrWritesOneRecord : Prop :=
  ∀ (s : State) (x : StkEntry) (w : Nat), CoutOpen s → 1 ≤ s.enc.sp → s.enc.stk[s.enc.sp - 1]? = some x →
    (∀ v : Sym, s.enc.node[x.node]? = some { weight := w, kind := .leaf v } →
      exec .encWrhdr s = .next { s with
        cout := { s.cout with bits := s.cout.bits ++ encode (.hdrLeaf v) }
        enc := { s.enc with sp := s.enc.sp - 1, phase := if s.enc.sp = 1 then .rewind else s.enc.phase } }) ∧
    (∀ l r, s.enc.sp < encStkCap → s.enc.node[x.node]? = some { weight := w, kind := .internal l r } →
      ∃ t, exec .encWrhdr s = .next t ∧
        (∃ y z, t.enc.stk[s.enc.sp - 1]? = some y ∧ y.node = r ∧ t.enc.stk[s.enc.sp]? = some z ∧ z.node = l) ∧
        (∀ k, k ≠ s.enc.sp - 1 → k ≠ s.enc.sp → t.enc.stk[k]? = s.enc.stk[k]?) ∧
        t = { s with cout := { s.cout with bits := s.cout.bits ++ encode .hdrNode }
                     enc := { s.enc with stk := t.enc.stk, sp := s.enc.sp + 1 } })

/-- ENC.REWIND (R170, R63), from every state: the next read gives the first byte of what the input replays. -/
def Obligations.RewindRestartsTheInput : Prop :=
  ∀ s : State, exec .encRewind s =
    .next { s with rin := { s.rin with data := s.rin.replay, pos := 0 }, enc := { s.enc with phase := .encode } }

/-- ENC.ENCODE (R172, R173): a byte with a code is consumed and its code appended; a byte without one is consumed, writes
nothing and raises EncNoCode; `EOS` moves to `WREOF`. -/
def Obligations.EncodeWritesOneCode : Prop :=
  ∀ s : State, s.rin.valid = true →
    (∀ r, s.rin.data[s.rin.pos]? = some r → s.enc.codeValid[byteIndex r] = true → CoutOpen s →
      exec .encEncode s = .next { s with
        rin := { s.rin with pos := s.rin.pos + 1 }
        cout := { s.cout with bits := s.cout.bits ++ codeOf s.enc (byteIndex r) } }) ∧
    (∀ r, s.rin.data[s.rin.pos]? = some r → s.enc.codeValid[byteIndex r] = false →
      exec .encEncode s = .next { s with
        rin := { s.rin with pos := s.rin.pos + 1 }
        enc := { s.enc with err := .encNoCode, phase := .close } }) ∧
    (s.rin.data[s.rin.pos]? = none →
      exec .encEncode s = .next { s with enc := { s.enc with phase := .wreof } })

/-- ENC.WREOF (R174): the code of symbol 256 is appended; an empty code writes nothing and needs no handshake (R64). -/
def Obligations.WreofWritesTheTerminator : Prop :=
  ∀ s : State,
    (CoutOpen s → exec .encWreof s = .next { s with
      cout := { s.cout with bits := s.cout.bits ++ codeOf s.enc eofIndex }, enc := { s.enc with phase := .close } }) ∧
    (s.enc.codeLen[eofIndex] = 0 → exec .encWreof s = .next { s with enc := { s.enc with phase := .close } })

/-- ENC.CLOSE (R176) and DEC.CLOSE (R194): the output is closed; `DONE` without an error, `FAULT` with one. -/
def Obligations.CloseEndsTheRun : Prop :=
  ∀ s : State,
    (CoutOpen s → exec .encClose s = .next { s with
      cout := { s.cout with closed := true }
      enc := { s.enc with phase := if s.enc.err = .none then .done else .fault } }) ∧
    (SoutOpen s → exec .decClose s = .next { s with
      sout := { s.sout with closed := true }
      dec := { s.dec with phase := if s.dec.err = .none then .done else .fault } })

/-! ## Unit DEC: the header (file 46) -/

/-- DEC.RDMAGIC and the item MAGIC (R180, R181): the 32 bits equal to the parameter move to `RDHDR`; any other value, or
fewer than 32 bits, raises FormatError with the bits consumed. -/
def Obligations.RdmagicChecksTheMagic : Prop :=
  ∀ s : State,
    (∀ m : MagicWord, CinPresents (bits 32 m.toNat) s → m = s.cfg.magic →
      exec .decRdmagic s = .next { s with
        cin := { s.cin with pos := s.cin.pos + 32 }, dec := { s.dec with phase := .rdhdr } }) ∧
    (∀ m : MagicWord, CinPresents (bits 32 m.toNat) s → m ≠ s.cfg.magic →
      exec .decRdmagic s = .next { s with
        cin := { s.cin with pos := s.cin.pos + 32 }, dec := { s.dec with err := .formatError, phase := .close } }) ∧
    (s.cin.valid = true → s.cin.data.length - s.cin.pos < 32 →
      exec .decRdmagic s = .next { s with
        cin := { s.cin with pos := s.cin.data.length }, dec := { s.dec with err := .formatError, phase := .close } })

/-- The item MAGIC, taken in `RDMAGIC` (R94, R180). -/
def Obligations.MagicItemIsCompared : Prop :=
  ∀ (s : State) (m : MagicWord), s.dec.phase = .rdmagic → s.cin.valid = true →
    exec (.magic m) s = .next { s with
      cin := { s.cin with pos := s.cin.pos + 32 }
      dec := if m = s.cfg.magic then { s.dec with phase := .rdhdr }
        else { s.dec with err := .formatError, phase := .close } }

/-- DEC.RDHDR's errors, in the order they are tested (R182, R184, R208): `EOS` on the tag, `EOS` in the value of a leaf,
then a full node store, which the items HDR.NODE and HDR.LEAF meet as well. -/
def Obligations.RdhdrRaisesInOrder : Prop :=
  ∀ s : State, s.cin.valid = true →
    (s.cin.data.length ≤ s.cin.pos →
      exec .decRdhdr s = .next { s with
        cin := { s.cin with pos := s.cin.data.length }, dec := { s.dec with err := .headerCorrupt, phase := .close } }) ∧
    (CinPresents [true] s → s.cin.data.length - s.cin.pos < 10 →
      exec .decRdhdr s = .next { s with
        cin := { s.cin with pos := s.cin.data.length }, dec := { s.dec with err := .headerCorrupt, phase := .close } }) ∧
    (∀ r, CinPresents (recordBits r) s → s.dec.dn = s.cfg.decNodeCap →
      exec .decRdhdr s = .next { s with
        cin := { s.cin with pos := s.cin.pos + (recordBits r).length }
        dec := { s.dec with err := .headerCapacity, phase := .close } }) ∧
    (∀ r, s.dec.phase = .rdhdr → s.dec.dn = s.cfg.decNodeCap →
      exec (recordItem r) s = .next { s with
        cin := { s.cin with pos := s.cin.pos + (recordBits r).length }
        dec := { s.dec with err := .headerCapacity, phase := .close } })

/-- DEC.RDHDR reading a leaf record, and the item HDR.LEAF (R182, R185, R96): the leaf takes the next index, whatever its
value, and becomes the root, a left child or a right child; a right child completes its parent; when no parent is left the
walker goes to the root and the body begins. -/
def Obligations.LeafRecordHangsALeaf : Prop :=
  ∀ (s : State) (v : Sym) (d : Dec), s.cin.valid = true → s.dec.dn < s.dec.dnode.length →
    s.dec.dn ≠ s.cfg.decNodeCap →
    ((s.dec.dsp = 0 ∧
        d = { s.dec with dnode := s.dec.dnode.set s.dec.dn (.leaf v), dn := s.dec.dn + 1, droot := s.dec.dn
                         cur := s.dec.dn, phase := .decode }) ∨
      (∃ p l r, 0 < s.dec.dsp ∧ s.dec.dstk[s.dec.dsp - 1]? = some { node := p, side := false } ∧ p < s.dec.dn ∧
        s.dec.dnode[p]? = some (.internal l r) ∧
        d = { s.dec with
          dnode := (s.dec.dnode.set s.dec.dn (.leaf v)).set p (.internal (some s.dec.dn) r), dn := s.dec.dn + 1
          dstk := s.dec.dstk.set (s.dec.dsp - 1) { node := p, side := true } }) ∨
      (∃ p l r, 0 < s.dec.dsp ∧ s.dec.dstk[s.dec.dsp - 1]? = some { node := p, side := true } ∧ p < s.dec.dn ∧
        s.dec.dnode[p]? = some (.internal l r) ∧
        d = { s.dec with
          dnode := (s.dec.dnode.set s.dec.dn (.leaf v)).set p (.internal l (some s.dec.dn)), dn := s.dec.dn + 1
          dsp := s.dec.dsp - 1
          cur := if s.dec.dsp = 1 then s.dec.droot else s.dec.cur
          phase := if s.dec.dsp = 1 then .decode else s.dec.phase })) →
    (CinPresents (true :: bits 9 v.toNat) s →
      exec .decRdhdr s = .next { s with cin := { s.cin with pos := s.cin.pos + 10 }, dec := d }) ∧
    (s.dec.phase = .rdhdr →
      exec (.hdrLeaf v) s = .next { s with cin := { s.cin with pos := s.cin.pos + 10 }, dec := d })

/-- DEC.RDHDR reading an internal-node record, and the item HDR.NODE (R182, R95): the node takes the next index, hangs as
the root, a left child or a right child (which completes its parent), and waits on the stack for its own two children. -/
def Obligations.NodeRecordWaitsForChildren : Prop :=
  ∀ (s : State) (d : Dec), s.cin.valid = true → s.dec.dn < s.dec.dnode.length → s.dec.dn ≠ s.cfg.decNodeCap →
    ((s.dec.dsp = 0 ∧ 0 < s.dec.dstk.length ∧
        d = { s.dec with
          dnode := s.dec.dnode.set s.dec.dn (.internal none none), dn := s.dec.dn + 1, droot := s.dec.dn
          dstk := s.dec.dstk.set 0 { node := s.dec.dn, side := false }, dsp := 1 }) ∨
      (∃ p l r, 0 < s.dec.dsp ∧ s.dec.dsp < s.dec.dstk.length ∧
        s.dec.dstk[s.dec.dsp - 1]? = some { node := p, side := false } ∧ p < s.dec.dn ∧
        s.dec.dnode[p]? = some (.internal l r) ∧
        d = { s.dec with
          dnode := (s.dec.dnode.set s.dec.dn (.internal none none)).set p (.internal (some s.dec.dn) r)
          dn := s.dec.dn + 1
          dstk := (s.dec.dstk.set (s.dec.dsp - 1) { node := p, side := true }).set s.dec.dsp
            { node := s.dec.dn, side := false }
          dsp := s.dec.dsp + 1 }) ∨
      (∃ p l r, 0 < s.dec.dsp ∧ s.dec.dstk[s.dec.dsp - 1]? = some { node := p, side := true } ∧ p < s.dec.dn ∧
        s.dec.dnode[p]? = some (.internal l r) ∧
        d = { s.dec with
          dnode := (s.dec.dnode.set s.dec.dn (.internal none none)).set p (.internal l (some s.dec.dn))
          dn := s.dec.dn + 1
          dstk := s.dec.dstk.set (s.dec.dsp - 1) { node := s.dec.dn, side := false } })) →
    (CinPresents [false] s →
      exec .decRdhdr s = .next { s with cin := { s.cin with pos := s.cin.pos + 1 }, dec := d }) ∧
    (s.dec.phase = .rdhdr →
      exec .hdrNode s = .next { s with cin := { s.cin with pos := s.cin.pos + 1 }, dec := d })

/-- In the phase that reads a format, the operation and the item that stands on the compressed input are one and the same
step (R91, R180, R182): what DEC.RDMAGIC and DEC.RDHDR do is what the decoded item says. -/
def Obligations.ReadersExecuteTheDecodedItem : Prop :=
  ∀ (s : State) (i : Instr) (rest : Bits), s.cin.valid = true →
    (s.dec.phase = .rdmagic → decode .magicWord (s.cin.data.drop s.cin.pos) = .ok (i, rest) →
      exec .decRdmagic s = exec i s) ∧
    (s.dec.phase = .rdhdr → decode .header (s.cin.data.drop s.cin.pos) = .ok (i, rest) →
      exec .decRdhdr s = exec i s)

/-! ## Unit DEC: the body (file 47) -/

/-- DEC.DECODE (R190, R191, R192): a leaf root ends the body with success and reads no bit; otherwise one bit moves the
walker; `EOS` raises DecodeTerminationError; the leaf of 256 ends the body and writes nothing; any other leaf writes its low
byte and sends the walker back to the root. -/
def Obligations.DecodeWalksOneBit : Prop :=
  ∀ s : State,
    (∀ v, s.dec.dnode[s.dec.droot]? = some (.leaf v) →
      exec .decDecode s = .next { s with dec := { s.dec with phase := .close } }) ∧
    (∀ rl rr, s.dec.dnode[s.dec.droot]? = some (.internal rl rr) →
      (s.cin.valid = true → s.cin.data.length ≤ s.cin.pos →
        exec .decDecode s = .next { s with
          cin := { s.cin with pos := s.cin.data.length }
          dec := { s.dec with err := .decodeTermination, phase := .close } }) ∧
      (∀ (b : Bool) (l r : Option Nat) (c : Nat), CinPresents [b] s →
        s.dec.dnode[s.dec.cur]? = some (.internal l r) → (if b then r else l) = some c →
        (∀ cl cr, s.dec.dnode[c]? = some (.internal cl cr) →
          exec .decDecode s = .next { s with
            cin := { s.cin with pos := s.cin.pos + 1 }, dec := { s.dec with cur := c } }) ∧
        (s.dec.dnode[c]? = some (.leaf 256#9) →
          exec .decDecode s = .next { s with
            cin := { s.cin with pos := s.cin.pos + 1 }, dec := { s.dec with cur := c, phase := .close } }) ∧
        (∀ v, v ≠ 256#9 → s.dec.dnode[c]? = some (.leaf v) → SoutOpen s →
          exec .decDecode s = .next { s with
            cin := { s.cin with pos := s.cin.pos + 1 }
            sout := { s.sout with bytes := s.sout.bytes ++ [v.setWidth 8] }
            dec := { s.dec with cur := s.dec.droot } })))

/-- The item BODY.CODE (R98, R190): the code of a leaf that is not 256 writes that leaf's low byte; the walker is at the
root before and after; nothing else changes. If the host does not take the byte, all bits but the last are consumed, which is
where DEC.DECODE holds (R243): the walker stands on the node that those bits lead to, whose child on the last bit is the
leaf. The item as an instruction is the model's reading (notes/assumptions/15.md, 16.md). -/
def Obligations.BodyCodeWritesItsSymbol : Prop :=
  ∀ (s : State) (l r : HTree) (v : Sym) (c : Bits),
    s.dec.phase = .decode → s.cin.valid = true → s.dec.cur = s.dec.droot →
    DNodeRep s.dec.dnode (.node l r) s.dec.droot → (v, c) ∈ (HTree.node l r).codes → v ≠ pseudoEof →
    (SoutOpen s → exec (.bodyCode c) s = .next { s with
      cin := { s.cin with pos := s.cin.pos + c.length }
      sout := { s.sout with bytes := s.sout.bytes ++ [lowByte v] } }) ∧
    (s.sout.ready = false → ∃ path b k n j, c = path ++ [b] ∧ nodeAlong s.dec.dnode path s.dec.droot = some k ∧
      s.dec.dnode[k]? = some n ∧ n.child b = some j ∧ s.dec.dnode[j]? = some (.leaf v) ∧
      exec (.bodyCode c) s = .next { s with
        cin := { s.cin with pos := s.cin.pos + path.length }, dec := { s.dec with cur := k } })

/-- The item BODY.EOF (R99, R190, R192): the code of the leaf of 256 ends the body and writes nothing; with a leaf root it
is the empty item, and the body ends at once. -/
def Obligations.BodyEofEndsTheBody : Prop :=
  ∀ (s : State), s.dec.phase = .decode →
    (∀ (l r : HTree) (c : Bits), s.cin.valid = true → s.dec.cur = s.dec.droot →
      DNodeRep s.dec.dnode (.node l r) s.dec.droot → (pseudoEof, c) ∈ (HTree.node l r).codes →
      ∃ k, s.dec.dnode[k]? = some (.leaf pseudoEof) ∧
        exec (.bodyEof c) s = .next { s with
          cin := { s.cin with pos := s.cin.pos + c.length }, dec := { s.dec with cur := k, phase := .close } }) ∧
    (∀ v, DNodeRep s.dec.dnode (.leaf v) s.dec.droot →
      exec (.bodyEof []) s = .next { s with dec := { s.dec with phase := .close } })

/-- A body item is its bits, one execution of DEC.DECODE each (R98, R190): from the root, when the item's bits stand on the
compressed input, as many turns of DEC as it has bits do what the item does. -/
def Obligations.BodyItemIsOneTurnPerBit : Prop :=
  ∀ (s : State) (l r : HTree) (v : Sym) (c : Bits),
    s.dec.phase = .decode → SoutOpen s → s.dec.cur = s.dec.droot → CinPresents c s →
    DNodeRep s.dec.dnode (.node l r) s.dec.droot → (v, c) ∈ (HTree.node l r).codes →
    turns .dec c.length s = exec (if v = pseudoEof then .bodyEof c else .bodyCode c) s

/-! ## Handshakes, closed ports, and where the model stops -/

/-- An operation that needs an item the host has not supplied, or needs the host to take one, does not execute: no state
changes (R21, R243). -/
def Obligations.HeldOperationsChangeNothing : Prop :=
  ∀ s : State,
    (s.rin.valid = false → exec .encCount s = .next s ∧ exec .encEncode s = .next s) ∧
    (s.cin.valid = false → exec .decRdmagic s = .next s ∧ exec .decRdhdr s = .next s ∧
      (s.dec.rootIsLeaf = some false → exec .decDecode s = .next s)) ∧
    (s.cout.ready = false → exec .encWrmagic s = .next s ∧ exec .encClose s = .next s ∧
      (s.enc.codeLen[eofIndex] ≠ 0 → exec .encWreof s = .next s) ∧
      (∀ x n, s.enc.top = some x → s.enc.node[x.node]? = some n → exec .encWrhdr s = .next s) ∧
      (∀ r, s.rin.data[s.rin.pos]? = some r → s.enc.codeValid[byteIndex r] = true → s.enc.codeLen[byteIndex r] ≠ 0 →
        exec .encEncode s = .next s)) ∧
    (s.sout.ready = false → exec .decClose s = .next s ∧
      (∀ b l r c v, s.dec.rootIsLeaf = some false → CinPresents [b] s →
        s.dec.dnode[s.dec.cur]? = some (.internal l r) → (if b then r else l) = some c →
        s.dec.dnode[c]? = some (.leaf v) → v ≠ pseudoEof → exec .decDecode s = .next s))

/-- A stream item in a phase that does not read its format is not taken, nor is one the host is not presenting (R69, R243;
the model's reading, notes/assumptions/15.md). -/
def Obligations.ItemsOutOfPhaseAreNotTaken : Prop :=
  ∀ (s : State) (m : MagicWord) (v : Sym) (c : Bits),
    (s.dec.phase ≠ .rdmagic ∨ s.cin.valid = false → exec (.magic m) s = .next s) ∧
    (s.dec.phase ≠ .rdhdr ∨ s.cin.valid = false → exec .hdrNode s = .next s ∧ exec (.hdrLeaf v) s = .next s) ∧
    (s.dec.phase ≠ .decode → exec (.bodyCode c) s = .next s ∧ exec (.bodyEof c) s = .next s) ∧
    (s.cin.valid = false → s.dec.rootIsLeaf = some false →
      exec (.bodyCode c) s = .next s ∧ exec (.bodyEof c) s = .next s)

/-- A write to, or a second close of, a closed port is refused (U25 of 93_implementation_defined.md;
notes/assumptions/14.md): every operation that writes bits or closes, ENC.ENCODE and ENC.WREOF on a code of nonzero length
among them; DEC.CLOSE; and DEC.DECODE, or a body item, on a bit that leads to a literal leaf, BODY.CODE from the root at the
end of its code. -/
def Obligations.ClosedPortsRefuse : Prop :=
  ∀ s : State,
    (s.cout.ready = true → s.cout.closed = true →
      exec .encWrmagic s = .refused .portClosed ∧ exec .encClose s = .refused .portClosed ∧
      (s.enc.codeLen[eofIndex] ≠ 0 → exec .encWreof s = .refused .portClosed) ∧
      (∀ x n, s.enc.top = some x → s.enc.node[x.node]? = some n → exec .encWrhdr s = .refused .portClosed) ∧
      (∀ r, s.rin.valid = true → s.rin.data[s.rin.pos]? = some r → s.enc.codeValid[byteIndex r] = true →
        s.enc.codeLen[byteIndex r] ≠ 0 → exec .encEncode s = .refused .portClosed)) ∧
    (s.sout.ready = true → s.sout.closed = true →
      exec .decClose s = .refused .portClosed ∧
      (∀ i b n c v, s.dec.rootIsLeaf = some false → WalksBit b s i → s.dec.dnode[s.dec.cur]? = some n →
        n.child b = some c → s.dec.dnode[c]? = some (.leaf v) → v ≠ pseudoEof → exec i s = .refused .portClosed) ∧
      (∀ (l r : HTree) (v : Sym) (c : Bits), s.dec.phase = .decode → s.cin.valid = true → s.dec.cur = s.dec.droot →
        DNodeRep s.dec.dnode (.node l r) s.dec.droot → (v, c) ∈ (HTree.node l r).codes → v ≠ pseudoEof →
        exec (.bodyCode c) s = .refused .portClosed))

/-- Where the model stops (notes/assumptions/10.md, 11.md): an access outside an address space of R46, or a walk to a child
that holds no value (R36). ENC: the stack empty, its pointer past the stack, the stack full, a node index past the store, a
symbol above 256, the node store full. DEC taking a record: the node store full, the pointer past the stack, the pending
parent past the node store, the stack full. DEC in the body: the root past the store, then the walker, the selected child not
given, that child past the store. -/
def Obligations.AccessesOutsideASpaceFault : Prop :=
  ∀ s : State,
    (s.enc.sp = 0 ∨ encStkCap < s.enc.sp →
      exec .encGen s = .fault .noSuchStackEntry ∧ exec .encWrhdr s = .fault .noSuchStackEntry) ∧
    (∀ x, s.enc.top = some x → encNodeCap ≤ x.node →
      exec .encGen s = .fault .noSuchNode ∧ exec .encWrhdr s = .fault .noSuchNode) ∧
    (∀ x w v, s.enc.top = some x → s.enc.node[x.node]? = some { weight := w, kind := .leaf v } → nsym ≤ v.toNat →
      exec .encGen s = .fault .noSuchSymbol) ∧
    (∀ x w l r, s.enc.sp = encStkCap → s.enc.top = some x →
      s.enc.node[x.node]? = some { weight := w, kind := .internal l r } →
      exec .encGen s = .fault .noSuchStackEntry ∧ (CoutOpen s → exec .encWrhdr s = .fault .noSuchStackEntry)) ∧
    (1 < s.enc.qsize → encNodeCap ≤ s.enc.nn → exec .encMerge s = .fault .noSuchNode) ∧
    (∀ i r, TakesRecord r s i → s.dec.dn ≠ s.cfg.decNodeCap →
      (s.dec.dnode.length ≤ s.dec.dn → exec i s = .fault .noSuchDecNode) ∧
      (s.dec.dn < s.dec.dnode.length →
        (s.dec.dstk.length < s.dec.dsp → exec i s = .fault .noSuchDecStackEntry) ∧
        (∀ e, 0 < s.dec.dsp → s.dec.dstk[s.dec.dsp - 1]? = some e → s.dec.dnode.length ≤ e.node →
          exec i s = .fault .noSuchDecNode) ∧
        (r = none → s.dec.dsp = s.dec.dstk.length →
          (s.dec.dsp = 0 ∨ ∃ p, s.dec.dstk[s.dec.dsp - 1]? = some { node := p, side := false } ∧ p < s.dec.dnode.length) →
          exec i s = .fault .noSuchDecStackEntry))) ∧
    (s.dec.dnode.length ≤ s.dec.droot → exec .decDecode s = .fault .noSuchDecNode ∧
      (∀ c, s.dec.phase = .decode →
        exec (.bodyCode c) s = .fault .noSuchDecNode ∧ exec (.bodyEof c) s = .fault .noSuchDecNode)) ∧
    (∀ i b, s.dec.rootIsLeaf = some false → WalksBit b s i →
      (s.dec.dnode.length ≤ s.dec.cur → exec i s = .fault .noSuchDecNode) ∧
      (∀ n, s.dec.dnode[s.dec.cur]? = some n →
        (n.child b = none → exec i s = .fault .noChild) ∧
        (∀ c, n.child b = some c → s.dec.dnode.length ≤ c → exec i s = .fault .noSuchDecNode)))

/-! ## Decoding, encoding and the step (file 30) -/

/-- Words written out from the spec's tables decode to the rows they stand for (R90, R94, R95, R96). -/
def Obligations.TableWordsDecode : Prop :=
  decode (.strobes [] []) [true, false, false] = .ok (.reset, []) ∧
  decode (.strobes [0x61#8] []) [false, true, false] = .ok (.encStart [0x61#8], []) ∧
  decode (.strobes [] [true]) [false, false, true] = .ok (.decStart [true], []) ∧
  decode .encPhase [false, true, false, false] = .ok (.encGen, []) ∧
  decode .encPhase [true, false, true, false] = .ok (.encClose, []) ∧
  decode .decPhase [false, true, true] = .ok (.decDecode, []) ∧
  decode .header [true, false, false, true, true, false, false, false, false, true] = .ok (.hdrLeaf 97#9, []) ∧
  decode .header [true, true, false, false, false, false, false, false, false, false] = .ok (.hdrLeaf 256#9, []) ∧
  decode .header [false, true] = .ok (.hdrNode, [true]) ∧
  decode .encPhase [true, true, false, true] = .error (.reservedEncPhase 13) ∧
  decode .decPhase [true, true, true] = .error (.reservedDecPhase 7)

/-- Decode and encode agree: wherever a well-formed instruction may stand, its bits, followed by anything, decode to it and
leave what follows (R90 to R100). -/
def Obligations.DecodeInvertsEncode : Prop :=
  ∀ (c : Ctx) (i : Instr) (rest : Bits), StandsIn c i → i.wellFormed = true →
    decode c (encode i ++ rest) = .ok (i, rest)

/-- What the decoder accepts is well-formed, may stand there, and (but for the don't-care bits of a strobe word and the
unread bits of a padding) is exactly the bits it has consumed (R90 to R100). -/
def Obligations.DecodedWordsAreEncodings : Prop :=
  ∀ (c : Ctx) (i : Instr) (bs rest : Bits), decode c bs = .ok (i, rest) →
    StandsIn c i ∧ i.wellFormed = true ∧
      (match c with
       | .strobes _ _ => bs.length = 3 + rest.length
       | .padding total => bs.length = padLength total + rest.length
       | _ => bs = encode i ++ rest)

/-- A step runs the decoded instruction (R40, R90): a unit's turn runs the operation its phase code decodes to, which is the
one the tables of R40 name. That with an empty agenda the turn then passes to the other unit is the model's own scheduling
(notes/assumptions/5.md). -/
def Obligations.StepRunsTheSelectedOperation : Prop :=
  ∀ (s : State) (u : Agent) (i : Instr) (rest : Bits), decode (phaseCtx u) (phaseWord u s) = .ok (i, rest) →
    (some i = match u with | .enc => encOperation s.enc.phase | .dec => decOperation s.dec.phase) ∧
    runUnit u s = exec i s ∧
    (∀ a, s.agenda = .unit u :: a → step s = exec i { s with agenda := a }) ∧
    (s.agenda = [] → s.turn = u → step s = exec i { s with turn := u.other })

/-- A step gives the host's command (R90, R121, R125): RESET wins over the starts; both starts on one edge are given one
after the other (ENC's first: notes/assumptions/6.md); a word that commands nothing changes nothing but the agenda. Any other
host event runs no operation and changes only its port: the four handshake lines (R69, R243); what the raw input will replay
(R75); a stream the host ends (R210), of which every later read answers `EOS` and moves past nothing (R61), for the raw input
in the second pass too (notes/assumptions/24.md). -/
def Obligations.StepGivesTheHostsCommand : Prop :=
  ∀ (s : State) (raw : List Byte) (comp : Bits) (e d : Bool) (a : List Slot),
    (s.agenda = .host (.strobe true e d raw comp) :: a → step s = exec .reset { s with agenda := a }) ∧
    (s.agenda = .host (.strobe false true false raw comp) :: a →
      step s = exec (.encStart raw) { s with agenda := a }) ∧
    (s.agenda = .host (.strobe false true true raw comp) :: a →
      step s = exec (.encStart raw) { s with agenda := .host (.strobe false false true raw comp) :: a }) ∧
    (s.agenda = .host (.strobe false false true raw comp) :: a →
      step s = exec (.decStart comp) { s with agenda := a }) ∧
    (s.agenda = .host (.strobe false false false raw comp) :: a → step s = .next { s with agenda := a }) ∧
    (∀ rv cr cv sr, s.agenda = .host (.lines rv cr cv sr) :: a → step s = .next { s with
      agenda := a, rin := { s.rin with valid := rv }, cout := { s.cout with ready := cr }
      cin := { s.cin with valid := cv }, sout := { s.sout with ready := sr } }) ∧
    (s.agenda = .host (.replay raw) :: a →
      step s = .next { s with agenda := a, rin := { s.rin with replay := raw } }) ∧
    (s.agenda = .host .cutRaw :: a → ∃ rest, rest = s.rin.data.take s.rin.pos ∧
      step s = .next { s with agenda := a, rin := { s.rin with data := rest, replay := rest } } ∧
      (s.rin.valid = true → Rin.read { s.rin with data := rest, replay := rest } =
        .eos { s.rin with data := rest, replay := rest })) ∧
    (s.agenda = .host .cutComp :: a → ∃ rest, rest = s.cin.data.take s.cin.pos ∧
      step s = .next { s with agenda := a, cin := { s.cin with data := rest } } ∧
      (∀ n, 0 < n → s.cin.valid = true → s.cin.pos ≤ s.cin.data.length → Cin.read n { s.cin with data := rest } =
        .eos { s.cin with data := rest }))

/-- A unit in a reserved phase executes no operation and stays; its start command is ignored (R40, R102); RESET leaves it
(ResetCommandGoesIdle). -/
def Obligations.ReservedPhasesOnlyResetLeaves : Prop :=
  ∀ s : State,
    ((s.enc.phase = .reserved13 ∨ s.enc.phase = .reserved14 ∨ s.enc.phase = .reserved15) →
      runUnit .enc s = .next s ∧ (∀ raw, exec (.encStart raw) s = .next s) ∧ s.enc.busy = true ∧
        s.enc.done = false ∧ s.enc.faulted = false) ∧
    (s.dec.phase = .reserved7 →
      runUnit .dec s = .next s ∧ (∀ comp, exec (.decStart comp) s = .next s) ∧ s.dec.busy = true ∧
        s.dec.done = false ∧ s.dec.faulted = false)

/-- The STATUS words (R43, R40, R201): phase, err, busy, done and fault stand in their bits, and exactly one of busy, done,
fault and idle holds. -/
def Obligations.StatusFieldsStandInTheirBits : Prop :=
  ∀ (e : Enc) (d : Dec),
    e.status.extractLsb' 0 4 = e.phase.code ∧ e.status.extractLsb' 4 3 = e.err.code ∧
    e.status.getLsbD 7 = e.busy ∧ e.status.getLsbD 8 = e.done ∧ e.status.getLsbD 9 = e.faulted ∧
    d.status.extractLsb' 0 3 = d.phase.code ∧ d.status.extractLsb' 3 3 = d.err.code ∧
    d.status.getLsbD 6 = d.busy ∧ d.status.getLsbD 7 = d.done ∧ d.status.getLsbD 8 = d.faulted ∧
    [e.busy, e.done, e.faulted, decide (e.phase = .idle)].count true = 1 ∧
    [d.busy, d.done, d.faulted, decide (d.phase = .idle)].count true = 1 ∧
    e.phase = EncPhase.ofCode e.phase.code.toNat ∧ d.phase = DecPhase.ofCode d.phase.code.toNat

/-! ## Whole-machine rules -/

/-- The two units share nothing (R20, R125): an instruction of one unit leaves the other unit's registers and ports alone,
and does the same in two states that look the same to its own unit. -/
def Obligations.UnitsDoNotInterfere : Prop :=
  ∀ (i : Instr) (u : Agent), Instr.unit i = some u →
    (∀ s t, exec i s = .next t → t.agenda = s.agenda ∧ t.turn = s.turn ∧
      match u with
      | .enc => t.dec = s.dec ∧ t.cin = s.cin ∧ t.sout = s.sout
      | .dec => t.enc = s.enc ∧ t.rin = s.rin ∧ t.cout = s.cout ∧ t.draws = s.draws) ∧
    (∀ s t, SameView u s t → SameResult u (exec i s) (exec i t))

/-- The two starts may come on one edge and their order does not matter (R125). -/
def Obligations.StartsAreIndependent : Prop :=
  ∀ (s : State) (raw : List Byte) (comp : Bits), ∃ a b t,
    exec (.encStart raw) s = .next a ∧ exec (.decStart comp) a = .next t ∧
    exec (.decStart comp) s = .next b ∧ exec (.encStart raw) b = .next t

/-- No phase transition but those of the tables (R41, R42), whatever the step; and the parameters never change (R47). -/
def Obligations.PhasesMoveOnlyByTheTables : Prop :=
  ∀ s t, step s = .next t → t.cfg = s.cfg ∧
    (t.enc.phase = s.enc.phase ∨ t.enc.phase ∈ encMoves s.enc.phase) ∧
    (t.dec.phase = s.dec.phase ∨ t.dec.phase ∈ decMoves s.dec.phase)

/-- The only operations that raise, and what each raises (R203, R201, R204, R205): any other instruction leaves `err` or
(RESET, a start) clears it; a raise takes its unit to `CLOSE` and writes no register beside `err` and `phase`. -/
def Obligations.OnlyTheNamedOperationsRaise : Prop :=
  ∀ (i : Instr) (s t : State), exec i s = .next t →
    (t.enc.err = s.enc.err ∨ (t.enc.err = .none ∧ (i = .reset ∨ ∃ raw, i = .encStart raw)) ∨
      (i = .encEncode ∧ t = { s with rin := t.rin, enc := { s.enc with err := .encNoCode, phase := .close } })) ∧
    (t.dec.err = s.dec.err ∨ (t.dec.err = .none ∧ (i = .reset ∨ ∃ comp, i = .decStart comp)) ∨
      (∃ e, t = { s with cin := t.cin, dec := { s.dec with err := e, phase := .close } } ∧
        ((e = .formatError ∧ (i = .decRdmagic ∨ ∃ m, i = .magic m)) ∨
          (e = .headerCorrupt ∧ i = .decRdhdr) ∨
          (e = .headerCapacity ∧ (i = .decRdhdr ∨ i = .hdrNode ∨ ∃ v, i = .hdrLeaf v)) ∨
          (e = .decodeTermination ∧ i = .decDecode))))

/-- Errors do not nest and are final (R204, R206, R207): along every step `err` and `phase` keep agreeing, and a unit that
holds an error keeps that error unless the step gives RESET or the unit's own start command, which clear it. -/
def Obligations.ErrorsStayFinal : Prop :=
  ∀ s t, s.ErrAgrees → step s = .next t → t.ErrAgrees ∧
    (s.enc.err ≠ .none → t.enc.err = s.enc.err ∨
      (t.enc.err = .none ∧ ((fetch s).instr = some .reset ∨ ∃ raw, (fetch s).instr = some (.encStart raw)))) ∧
    (s.dec.err ≠ .none → t.dec.err = s.dec.err ∨
      (t.dec.err = .none ∧ ((fetch s).instr = some .reset ∨ ∃ comp, (fetch s).instr = some (.decStart comp))))

/-- An output is open while its unit is busy and closed when its run has ended (R65, R68, R206), along every step, and no
step brings a unit into a reserved phase (R40). -/
def Obligations.OutputsCloseExactlyAtTheEnd : Prop :=
  ∀ s t, s.OutputsAgree → s.PhasesLegal → step s = .next t → t.OutputsAgree ∧ t.PhasesLegal

/-- Every register keeps within its width, and each stream position within its stream, along every step (R22 to R38, R46,
R48). For `dn` the bound is 1024: where DEC_NODE_CAP is 1024, `dn` reaches one more than the ten bits of R37 hold
(notes/assumptions/27.md). -/
def Obligations.RegistersKeepTheirWidths : Prop :=
  ∀ s t, s.Fits → step s = .next t → t.Fits

/-- No step of a safe state stops, and it gives a safe state (R232, R152, R183, R205): no operation of a run reads what
nothing has written, leaves an array, overflows a stack or writes to a closed port. -/
def Obligations.SafeStatesNeverStop : Prop :=
  ∀ s, s.Safe → ∃ t, step s = .next t ∧ t.Safe

/-- The state after reset is safe, agrees and fits. -/
def Obligations.ResetStateIsSafe : Prop :=
  State.reset.Safe ∧ State.reset.ErrAgrees ∧ State.reset.Fits

/-! ## Runs of a phase -/

/-- The count pass (R132): from ENC.START(S) on, after `N + 1` turns the phase is first `QINIT`, each byte's count is its
number of occurrences, saturated, `cnt[256]` is 1, and nothing has been written. -/
def Obligations.CountPassTalliesTheInput : Prop :=
  ∀ (s : State) (raw : List Byte), s.enc.phase.waiting = true → s.rin.valid = true →
    ∃ s0 t, exec (.encStart raw) s = .next s0 ∧ turns .enc (raw.length + 1) s0 = .next t ∧
      (∀ k, k ≤ raw.length → ∃ m, turns .enc k s0 = .next m ∧ m.enc.phase = .count) ∧
      (∀ r : Byte, t.enc.cnt[byteIndex r] = min (occurrences r raw) (2 ^ s.cfg.cntW - 1)) ∧ t.enc.cnt[eofIndex] = 1 ∧
      t.cout.bits = [] ∧
      t = { s0 with rin := { s0.rin with pos := raw.length }, enc := { s0.enc with cnt := t.enc.cnt, phase := .qinit } }

/-- The builder (R145, R140): from any counts with `cnt[256]` not 0, one ENC.QINIT and `n` ENC.MERGE, for `n` symbols of
nonzero count, leave in the node store a tree whose leaves are exactly those symbols, with `2n - 1` nodes, the root the last
of them, its weight the sum of the counts, and the code generator prepared. -/
def Obligations.BuilderMakesATreeOfThePresentSymbols : Prop :=
  ∀ s : State, s.enc.phase = .qinit → s.enc.cnt[eofIndex] ≠ 0 → (∀ i : Fin nsym, s.enc.cnt[i] < 2 ^ s.cfg.cntW) →
    ∃ t T, turns .enc (1 + (presentSymbols s.enc.cnt).length) s = .next t ∧
      NodeRep t.enc.node T t.enc.root ∧
      (HTree.leafValues T).Perm ((presentSymbols s.enc.cnt).map fun i => BitVec.ofNat 9 i.val) ∧
      t.enc.nn = 2 * (presentSymbols s.enc.cnt).length - 1 ∧ t.enc.root = t.enc.nn - 1 ∧
      weightAt t.enc.node t.enc.root = ((presentSymbols s.enc.cnt).map fun i => s.enc.cnt[i]).sum ∧
      t.enc.phase = .gen ∧ t.enc.sp = 1 ∧ t.enc.stk[0]? = some { node := t.enc.root, len := 0, bits := 0#256 } ∧
      t.enc.codeValid = Vector.replicate 257 false ∧
      t = { s with enc := t.enc } ∧ t.enc.cnt = s.enc.cnt ∧ t.enc.err = s.enc.err

/-- The code generator (R153, R150, R152): its walk of a tree of distinct symbols takes one turn per node, records for every
leaf its path, and leaves every other symbol without a code. -/
def Obligations.GeneratorRecordsEveryPath : Prop :=
  ∀ (s : State) (T : HTree), s.enc.phase = .gen → s.enc.sp = 1 →
    s.enc.stk[0]? = some { node := s.enc.root, len := 0, bits := 0#256 } → NodeRep s.enc.node T s.enc.root →
    T.leafCount ≤ nsym → SymbolsLegal T → (HTree.leafValues T).Nodup → s.enc.codeValid = Vector.replicate 257 false →
    ∃ t, turns .enc T.size s = .next t ∧ t.enc.phase = .wrmagic ∧ t.enc.sp = 0 ∧
      (∀ (v : Sym) (c : Bits) (h : v.toNat < nsym), (v, c) ∈ T.codes →
        t.enc.codeValid[v.toNat] = true ∧ t.enc.codeLen[v.toNat] = c.length ∧ codeOf t.enc ⟨v.toNat, h⟩ = c ∧
          t.enc.codeBits[v.toNat].toNat < 2 ^ c.length) ∧
      (∀ i : Fin nsym, BitVec.ofNat 9 i.val ∉ HTree.leafValues T → t.enc.codeValid[i] = false) ∧
      t = { s with enc := { s.enc with codeValid := t.enc.codeValid, codeLen := t.enc.codeLen
                                       codeBits := t.enc.codeBits, stk := t.enc.stk, sp := 0, phase := .wrmagic } }

/-- The codes of a tree (R104): no leaf's code is a prefix of another leaf's; the lengths satisfy the Kraft equality; every
infinite bit sequence begins with a code. -/
def Obligations.CodesArePrefixFree : Prop :=
  ∀ T : HTree,
    (∀ (j k : Nat) (v w : Sym) (c d : Bits), T.codes[j]? = some (v, c) → T.codes[k]? = some (w, d) → c <+: d → j = k) ∧
    (T.codes.map fun p => (1 / 2 : Rat) ^ p.2.length).sum = 1 ∧
    (∀ f : Nat → Bool, ∃ v c, (v, c) ∈ T.codes ∧ c = (List.range c.length).map f)

/-- The header writer (R163, R97): its walk of a tree takes one turn per node and appends exactly `ser` of the tree. -/
def Obligations.HeaderWriterSerializesTheTree : Prop :=
  ∀ (s : State) (T : HTree) (x : StkEntry), s.enc.phase = .wrhdr → s.enc.sp = 1 → CoutOpen s →
    s.enc.stk[0]? = some x → NodeRep s.enc.node T x.node → T.leafCount ≤ nsym →
    ∃ t, turns .enc T.size s = .next t ∧
      t = { s with cout := { s.cout with bits := s.cout.bits ++ T.ser }
                   enc := { s.enc with stk := t.enc.stk, sp := 0, phase := .rewind } }

/-- The size of a header (R97, R74): a tree of `L` leaves has `2L - 1` nodes and serializes to `11L - 1` bits. -/
def Obligations.HeaderHasElevenBitsPerLeafLessOne : Prop :=
  ∀ T : HTree, T.ser.length = 11 * T.leafCount - 1 ∧ T.size = 2 * T.leafCount - 1 ∧ 1 ≤ T.leafCount

/-- The header reader (R186, R183): on the serialization of a tree it takes one turn per node, consumes exactly those bits,
raises nothing, and leaves an isomorphic tree with the walker on its root. -/
def Obligations.HeaderReaderRebuildsTheTree : Prop :=
  ∀ (s : State) (T : HTree), s.dec.phase = .rdhdr → s.dec.dn = 0 → s.dec.dsp = 0 →
    s.dec.dnode.length = s.cfg.decNodeCap → s.dec.dstk.length = s.cfg.decNodeCap → T.size ≤ s.cfg.decNodeCap →
    CinPresents T.ser s →
    ∃ t, turns .dec T.size s = .next t ∧ DNodeRep t.dec.dnode T t.dec.droot ∧ t.dec.phase = .decode ∧
      t.dec.dn = T.size ∧ t.dec.droot = 0 ∧ t.dec.cur = 0 ∧ t.dec.dsp = 0 ∧ t.dec.err = s.dec.err ∧
      t = { s with cin := { s.cin with pos := s.cin.pos + T.ser.length }, dec := t.dec }

/-- A header cut short (R212, R182): if the stream ends inside the serialization of a tree, the reader ends in `CLOSE` with
HeaderCorruptError, every bit consumed and nothing written. -/
def Obligations.TruncatedHeaderIsHeaderCorrupt : Prop :=
  ∀ (s : State) (T : HTree) (k : Nat), s.dec.phase = .rdhdr → s.dec.dn = 0 → s.dec.dsp = 0 →
    s.dec.dnode.length = s.cfg.decNodeCap → s.dec.dstk.length = s.cfg.decNodeCap → T.size ≤ s.cfg.decNodeCap →
    s.cin.valid = true → s.cin.pos ≤ s.cin.data.length → k < T.ser.length →
    s.cin.data.drop s.cin.pos = T.ser.take k →
    ∃ n t, n ≤ T.size ∧ turns .dec n s = .next t ∧ t.dec.phase = .close ∧ t.dec.err = .headerCorrupt ∧
      t.cin.pos = s.cin.data.length ∧ t.sout = s.sout

/-- The decoder as a function (R196): from the root of a tree that is no single leaf, DEC.DECODE reads the body one bit a
turn and writes exactly what `bodyWalk` writes; it ends in `CLOSE`, without an error at the leaf of 256, with
DecodeTerminationError at the end of the stream. -/
def Obligations.DecoderComputesTheWalk : Prop :=
  ∀ (s : State) (l r : HTree), s.dec.phase = .decode → s.dec.err = .none → s.cin.valid = true → SoutOpen s →
    s.dec.cur = s.dec.droot → DNodeRep s.dec.dnode (.node l r) s.dec.droot → s.cin.pos ≤ s.cin.data.length →
    ∀ out ended n, bodyWalk (.node l r) (.node l r) (s.cin.data.drop s.cin.pos) = (out, ended, n) →
    ∃ t, turns .dec (if ended then n else n + 1) s = .next t ∧
      t = { s with cin := { s.cin with pos := s.cin.pos + n }
                   sout := { s.sout with bytes := s.sout.bytes ++ out }
                   dec := { s.dec with cur := t.dec.cur, err := if ended then .none else .decodeTermination
                                       phase := .close } } ∧
      (ended = false → s.cin.pos + n = s.cin.data.length)

/-- Every run of DEC ends (R245): on any finite input, with the host completing its handshakes, DEC reaches `DONE` without an
error or `FAULT` with one, its output closed, within as many turns as the input has bits, and two. -/
def Obligations.DecoderRunAlwaysEnds : Prop :=
  ∀ (s : State) (comp : Bits), s.dec.phase.waiting = true → s.cin.valid = true → s.sout.ready = true →
    s.dec.dnode.length = s.cfg.decNodeCap → s.dec.dstk.length = s.cfg.decNodeCap →
    ∃ s0 k t, exec (.decStart comp) s = .next s0 ∧ k ≤ comp.length + 2 ∧ turns .dec k s0 = .next t ∧
      ((t.dec.phase = .done ∧ t.dec.err = .none) ∨ (t.dec.phase = .fault ∧ t.dec.err ≠ .none)) ∧
      t.sout.closed = true ∧ t.cin.pos ≤ comp.length

/-- The packer (R72, R100): unpacking the bytes of a stream gives the stream and fewer than 8 zero bits. -/
def Obligations.PackingRoundTrips : Prop :=
  ∀ l : Bits, unpack (pack l) = l ++ List.replicate (padLength l.length) false ∧ padLength l.length < 8 ∧
    (pack l).length = (l.length + 7) / 8

/-! ## Whole runs -/

/-- A whole run of ENC (R177, R245): on every input, with the host completing its handshakes and replaying faithfully, ENC
ends in `DONE` after exactly `2N + 5n + 6` operations, ENC.START among them; its output is the magic, the tree, the code of
every byte in order and the code of pseudo-EOF, and is closed. -/
def Obligations.EncoderWritesTheWholeStream : Prop :=
  ∀ (s : State) (raw : List Byte), s.enc.phase.waiting = true → LinesReady s → 1 ≤ s.cfg.cntW →
    ∃ s0 t T, exec (.encStart raw) s = .next s0 ∧
      turns .enc (2 * raw.length + 5 * distinctSymbols raw + 5) s0 = .next t ∧
      t.enc.phase = .done ∧ t.enc.err = .none ∧ t.cout.closed = true ∧
      (HTree.leafValues T).Nodup ∧ pseudoEof ∈ HTree.leafValues T ∧ T.leafCount = distinctSymbols raw ∧
      (∀ (v : Sym) (c : Bits) (h : v.toNat < nsym), (v, c) ∈ T.codes → codeOf t.enc ⟨v.toNat, h⟩ = c) ∧
      (∀ r ∈ raw, zext9 r ∈ HTree.leafValues T) ∧
      t.cout.bits = bits 32 s.cfg.magic.toNat ++ T.ser ++ (raw.flatMap fun r => codeOf t.enc (byteIndex r)) ++
        codeOf t.enc eofIndex ∧
      t.dec = s.dec ∧ t.cin = s.cin ∧ t.sout = s.sout

/-- Round trip (R195): for every byte sequence, ENC's output followed by any bits makes DEC, with the same magic, end in
`DONE` with exactly that byte sequence written and closed, no error, and the stream read up to the terminator. -/
def Obligations.CompressThenDecompressIsTheInput : Prop :=
  ∀ (s : State) (raw : List Byte) (tail : Bits), s.enc.phase.waiting = true → s.dec.phase.waiting = true →
    LinesReady s → 1 ≤ s.cfg.cntW → 513 ≤ s.cfg.decNodeCap → s.dec.dnode.length = s.cfg.decNodeCap →
    s.dec.dstk.length = s.cfg.decNodeCap →
    ∃ s0 t s1 u m n, exec (.encStart raw) s = .next s0 ∧ turns .enc m s0 = .next t ∧ t.enc.phase = .done ∧
      exec (.decStart (t.cout.bits ++ tail)) t = .next s1 ∧ turns .dec n s1 = .next u ∧
      u.dec.phase = .done ∧ u.dec.err = .none ∧ u.sout.bytes = raw ∧ u.sout.closed = true ∧
      u.cin.pos = t.cout.bits.length
end

