-- ==== Sys2Proof/Laws/Bits.lean ====
section
/-! SUPPORT. Laws of bit sequences and numbers. -/

namespace Sys2Proof.Machine

@[simp] theorem bits_zero (v : Nat) : bits 0 v = [] := rfl

theorem bits_succ (n v : Nat) : bits (n + 1) v = v.testBit n :: bits n v := rfl

@[simp] theorem length_bits (n v : Nat) : (bits n v).length = n := by
  induction n with
  | zero => rfl
  | succ n ih => simp [bits_succ, ih]

@[simp] theorem valueOf_nil : valueOf [] = 0 := rfl

theorem foldl_valueOf (l : Bits) (a : Nat) :
    l.foldl (fun acc b => 2 * acc + b.toNat) a = a * 2 ^ l.length + valueOf l := by
  induction l generalizing a with
  | nil => simp [valueOf]
  | cons b l ih =>
    simp only [List.foldl_cons, List.length_cons, valueOf]
    rw [ih, ih (2 * 0 + b.toNat)]
    ring

theorem valueOf_cons (b : Bool) (l : Bits) : valueOf (b :: l) = b.toNat * 2 ^ l.length + valueOf l := by
  show List.foldl _ _ l = _
  rw [foldl_valueOf]
  simp

theorem valueOf_lt (l : Bits) : valueOf l < 2 ^ l.length := by
  induction l with
  | nil => simp
  | cons b l ih =>
    rw [valueOf_cons, List.length_cons, pow_succ]
    cases b <;> simp <;> omega

/-- The number a field of `n` bits carries is the value modulo `2^n`. -/
theorem valueOf_bits (n v : Nat) : valueOf (bits n v) = v % 2 ^ n := by
  induction n with
  | zero => simp [Nat.mod_one]
  | succ n ih =>
    rw [bits_succ, valueOf_cons, length_bits, ih, Nat.mod_pow_succ, Nat.toNat_testBit]
    ring

/-- Writing a number back gives the bits it was read from. -/
theorem bits_valueOf (l : Bits) : bits l.length (valueOf l) = l := by
  have inj : ∀ n (a b : Bits), a.length = n → b.length = n → valueOf a = valueOf b → a = b := by
    intro n
    induction n with
    | zero =>
      intro a b ha hb _
      rw [List.length_eq_zero_iff.mp ha, List.length_eq_zero_iff.mp hb]
    | succ n ih =>
      intro a b ha hb h
      match a, b with
      | x :: a, y :: b =>
        simp only [List.length_cons, Nat.add_right_cancel_iff] at ha hb
        rw [valueOf_cons, valueOf_cons, ha, hb] at h
        have hla := valueOf_lt a
        have hlb := valueOf_lt b
        rw [ha] at hla
        rw [hb] at hlb
        have hxy : x = y := by
          cases x <;> cases y <;> simp at h ⊢ <;> omega
        subst hxy
        rw [ih a b ha hb (by omega)]
  exact inj l.length _ _ (length_bits _ _) rfl (by rw [valueOf_bits, Nat.mod_eq_of_lt (valueOf_lt l)])

theorem field_append (n : Nat) (a rest : Bits) (h : a.length = n) : field n (a ++ rest) = .ok (valueOf a, rest) := by
  subst h
  simp [field]

theorem field_ok {n v : Nat} {bs rest : Bits} (h : field n bs = .ok (v, rest)) :
    n ≤ bs.length ∧ v = valueOf (bs.take n) ∧ rest = bs.drop n := by
  unfold field at h
  split at h
  · simp only [Except.ok.injEq, Prod.mk.injEq] at h
    exact ⟨‹_›, h.1.symm, h.2.symm⟩
  · cases h

end Sys2Proof.Machine
end

