-- ==== Sys2Proof/Laws/State.lean ====
section
/-! SUPPORT. One lemma per field for every named update of the state, so that no proof unfolds one. -/

namespace Sys2Proof.Machine

section PastItem
variable (n : Nat) (s : State)

@[simp] theorem pastItem_cfg : (pastItem n s).cfg = s.cfg := rfl
@[simp] theorem pastItem_enc : (pastItem n s).enc = s.enc := rfl
@[simp] theorem pastItem_dec : (pastItem n s).dec = s.dec := rfl
@[simp] theorem pastItem_rin : (pastItem n s).rin = s.rin := rfl
@[simp] theorem pastItem_cout : (pastItem n s).cout = s.cout := rfl
@[simp] theorem pastItem_cin_pos : (pastItem n s).cin.pos = s.cin.pos + n := rfl
@[simp] theorem pastItem_cin_data : (pastItem n s).cin.data = s.cin.data := rfl
@[simp] theorem pastItem_cin_valid : (pastItem n s).cin.valid = s.cin.valid := rfl
@[simp] theorem pastItem_sout : (pastItem n s).sout = s.sout := rfl
@[simp] theorem pastItem_agenda : (pastItem n s).agenda = s.agenda := rfl
@[simp] theorem pastItem_turn : (pastItem n s).turn = s.turn := rfl
@[simp] theorem pastItem_draws : (pastItem n s).draws = s.draws := rfl

end PastItem

section Rewind
variable (p : Rin)

@[simp] theorem rewind_data : p.rewind.data = p.replay := rfl
@[simp] theorem rewind_replay : p.rewind.replay = p.replay := rfl
@[simp] theorem rewind_pos : p.rewind.pos = 0 := rfl
@[simp] theorem rewind_valid : p.rewind.valid = p.valid := rfl

end Rewind

section RecordCode
variable (i : Fin nsym) (x : StkEntry) (e : Enc)

@[simp] theorem recordCode_phase : (e.recordCode i x).phase = e.phase := rfl
@[simp] theorem recordCode_err : (e.recordCode i x).err = e.err := rfl
@[simp] theorem recordCode_cnt : (e.recordCode i x).cnt = e.cnt := rfl
@[simp] theorem recordCode_node : (e.recordCode i x).node = e.node := rfl
@[simp] theorem recordCode_nn : (e.recordCode i x).nn = e.nn := rfl
@[simp] theorem recordCode_qsize : (e.recordCode i x).qsize = e.qsize := rfl
@[simp] theorem recordCode_root : (e.recordCode i x).root = e.root := rfl
@[simp] theorem recordCode_inq : (e.recordCode i x).inq = e.inq := rfl
@[simp] theorem recordCode_stk : (e.recordCode i x).stk = e.stk := rfl
@[simp] theorem recordCode_sp : (e.recordCode i x).sp = e.sp := rfl
@[simp] theorem recordCode_codeLen : (e.recordCode i x).codeLen = e.codeLen.set i x.len := rfl
@[simp] theorem recordCode_codeBits : (e.recordCode i x).codeBits = e.codeBits.set i x.bits := rfl
@[simp] theorem recordCode_codeValid : (e.recordCode i x).codeValid = e.codeValid.set i true := rfl

end RecordCode

section EndOfWalk
variable (p : EncPhase) (e : Enc)

theorem endOfWalk_zero (h : e.sp = 0) : e.endOfWalk p = { e with phase := p } := by simp [Enc.endOfWalk, h]
theorem endOfWalk_pos (h : e.sp ≠ 0) : e.endOfWalk p = e := by simp [Enc.endOfWalk, h]

theorem endOfWalk_phase : (e.endOfWalk p).phase = if e.sp = 0 then p else e.phase := by
  unfold Enc.endOfWalk; split <;> rfl
@[simp] theorem endOfWalk_err : (e.endOfWalk p).err = e.err := by unfold Enc.endOfWalk; split <;> rfl
@[simp] theorem endOfWalk_cnt : (e.endOfWalk p).cnt = e.cnt := by unfold Enc.endOfWalk; split <;> rfl
@[simp] theorem endOfWalk_node : (e.endOfWalk p).node = e.node := by unfold Enc.endOfWalk; split <;> rfl
@[simp] theorem endOfWalk_nn : (e.endOfWalk p).nn = e.nn := by unfold Enc.endOfWalk; split <;> rfl
@[simp] theorem endOfWalk_qsize : (e.endOfWalk p).qsize = e.qsize := by unfold Enc.endOfWalk; split <;> rfl
@[simp] theorem endOfWalk_root : (e.endOfWalk p).root = e.root := by unfold Enc.endOfWalk; split <;> rfl
@[simp] theorem endOfWalk_inq : (e.endOfWalk p).inq = e.inq := by unfold Enc.endOfWalk; split <;> rfl
@[simp] theorem endOfWalk_codeValid : (e.endOfWalk p).codeValid = e.codeValid := by
  unfold Enc.endOfWalk; split <;> rfl
@[simp] theorem endOfWalk_codeLen : (e.endOfWalk p).codeLen = e.codeLen := by unfold Enc.endOfWalk; split <;> rfl
@[simp] theorem endOfWalk_codeBits : (e.endOfWalk p).codeBits = e.codeBits := by unfold Enc.endOfWalk; split <;> rfl
@[simp] theorem endOfWalk_stk : (e.endOfWalk p).stk = e.stk := by unfold Enc.endOfWalk; split <;> rfl
@[simp] theorem endOfWalk_sp : (e.endOfWalk p).sp = e.sp := by unfold Enc.endOfWalk; split <;> rfl

end EndOfWalk

section EndOfHeader
variable (d : Dec)

theorem endOfHeader_zero (h : d.dsp = 0) : d.endOfHeader = { d with cur := d.droot, phase := .decode } := by
  simp [Dec.endOfHeader, h]
theorem endOfHeader_pos (h : d.dsp ≠ 0) : d.endOfHeader = d := by simp [Dec.endOfHeader, h]

theorem endOfHeader_phase : d.endOfHeader.phase = if d.dsp = 0 then .decode else d.phase := by
  unfold Dec.endOfHeader; split <;> rfl
theorem endOfHeader_cur : d.endOfHeader.cur = if d.dsp = 0 then d.droot else d.cur := by
  unfold Dec.endOfHeader; split <;> rfl
@[simp] theorem endOfHeader_err : d.endOfHeader.err = d.err := by unfold Dec.endOfHeader; split <;> rfl
@[simp] theorem endOfHeader_dnode : d.endOfHeader.dnode = d.dnode := by unfold Dec.endOfHeader; split <;> rfl
@[simp] theorem endOfHeader_dn : d.endOfHeader.dn = d.dn := by unfold Dec.endOfHeader; split <;> rfl
@[simp] theorem endOfHeader_droot : d.endOfHeader.droot = d.droot := by unfold Dec.endOfHeader; split <;> rfl
@[simp] theorem endOfHeader_dstk : d.endOfHeader.dstk = d.dstk := by unfold Dec.endOfHeader; split <;> rfl
@[simp] theorem endOfHeader_dsp : d.endOfHeader.dsp = d.dsp := by unfold Dec.endOfHeader; split <;> rfl

end EndOfHeader

section Below
variable (x : StkEntry) (b : Bool) (c : Nat)

@[simp] theorem below_node : (x.below b c).node = c := rfl
@[simp] theorem below_len : (x.below b c).len = (x.len + 1) % 2 ^ 9 := rfl
@[simp] theorem below_bits : (x.below b c).bits = shiftIn x.bits b := rfl

end Below

section Event
variable (e : HostEvent) (s : State)

/-- A host event that is no strobe touches no unit, no output stream and no scheduling data. -/
@[simp] theorem applyEvent_cfg : (applyEvent e s).cfg = s.cfg := by cases e <;> rfl
@[simp] theorem applyEvent_enc : (applyEvent e s).enc = s.enc := by cases e <;> rfl
@[simp] theorem applyEvent_dec : (applyEvent e s).dec = s.dec := by cases e <;> rfl
@[simp] theorem applyEvent_cout_bits : (applyEvent e s).cout.bits = s.cout.bits := by cases e <;> rfl
@[simp] theorem applyEvent_cout_closed : (applyEvent e s).cout.closed = s.cout.closed := by cases e <;> rfl
@[simp] theorem applyEvent_sout_bytes : (applyEvent e s).sout.bytes = s.sout.bytes := by cases e <;> rfl
@[simp] theorem applyEvent_sout_closed : (applyEvent e s).sout.closed = s.sout.closed := by cases e <;> rfl
@[simp] theorem applyEvent_rin_pos : (applyEvent e s).rin.pos = s.rin.pos := by cases e <;> rfl
@[simp] theorem applyEvent_cin_pos : (applyEvent e s).cin.pos = s.cin.pos := by cases e <;> rfl
@[simp] theorem applyEvent_agenda : (applyEvent e s).agenda = s.agenda := by cases e <;> rfl
@[simp] theorem applyEvent_turn : (applyEvent e s).turn = s.turn := by cases e <;> rfl
@[simp] theorem applyEvent_draws : (applyEvent e s).draws = s.draws := by cases e <;> rfl

end Event

end Sys2Proof.Machine
end

