-- ==== Sys2Proof/Laws/Operands.lean ====
section
/-! SUPPORT. What the stack and store operations can answer, and when (R34, R36, R38, R151, R162, R182). -/

namespace Sys2Proof.Machine

theorem Enc.top_some {e : Enc} {x : StkEntry} (h0 : 1 ≤ e.sp) (h : e.stk[e.sp - 1]? = some x) : e.top = some x := by
  simp [Enc.top, h, Nat.ne_of_gt h0]

theorem Enc.top_none {e : Enc} (h : e.sp = 0) : e.top = none := by simp [Enc.top, h]

/-- Everything `top` can find. -/
theorem Enc.top_eq_some {e : Enc} {x : StkEntry} (h : e.top = some x) : 1 ≤ e.sp ∧ e.stk[e.sp - 1]? = some x := by
  unfold Enc.top at h
  split at h
  · cases h
  · exact ⟨by omega, h⟩

theorem Enc.pop_some {e : Enc} {x : StkEntry} (h : e.top = some x) : e.pop = some (x, { e with sp := e.sp - 1 }) := by
  simp [Enc.pop, h]

theorem Enc.pop_none {e : Enc} (h : e.top = none) : e.pop = none := by simp [Enc.pop, h]

theorem Enc.pop_eq_some {e e' : Enc} {x : StkEntry} (h : e.pop = some (x, e')) :
    e.top = some x ∧ e' = { e with sp := e.sp - 1 } := by
  unfold Enc.pop at h
  split at h
  · simp only [Option.some.injEq, Prod.mk.injEq] at h
    obtain ⟨rfl, rfl⟩ := h
    exact ⟨‹_›, rfl⟩
  · cases h

theorem Enc.pushTwo_some {e : Enc} {x y : StkEntry} (h : e.sp + 1 < encStkCap) :
    e.pushTwo x y = some { e with stk := (e.stk.setIfInBounds e.sp x).setIfInBounds (e.sp + 1) y, sp := e.sp + 2 } := by
  simp [Enc.pushTwo, h]

theorem Enc.pushTwo_eq_some {e e' : Enc} {x y : StkEntry} (h : e.pushTwo x y = some e') :
    e.sp + 1 < encStkCap ∧
      e' = { e with stk := (e.stk.setIfInBounds e.sp x).setIfInBounds (e.sp + 1) y, sp := e.sp + 2 } := by
  unfold Enc.pushTwo at h
  split at h
  · cases h; exact ⟨‹_›, rfl⟩
  · cases h

theorem Enc.pushTwoNodes_some {e : Enc} {a b : Nat} (h : e.sp + 1 < encStkCap) :
    e.pushTwoNodes a b =
      some { e with stk := withNode (withNode e.stk e.sp a) (e.sp + 1) b, sp := e.sp + 2 } := by
  simp [Enc.pushTwoNodes, h]

theorem Enc.pushTwoNodes_eq_some {e e' : Enc} {a b : Nat} (h : e.pushTwoNodes a b = some e') :
    e.sp + 1 < encStkCap ∧ e' = { e with stk := withNode (withNode e.stk e.sp a) (e.sp + 1) b, sp := e.sp + 2 } := by
  unfold Enc.pushTwoNodes at h
  split at h
  · cases h; exact ⟨‹_›, rfl⟩
  · cases h

/-- Writing one entry's node leaves every other entry. -/
theorem withNode_ne {stk : Vector StkEntry encStkCap} {k j n : Nat} (h : j ≠ k) : (withNode stk k n)[j]? = stk[j]? := by
  unfold withNode
  split
  · rw [Vector.getElem?_setIfInBounds_ne (Ne.symm h)]
  · rfl

/-- Writing an entry's node keeps the entry's other fields. -/
theorem withNode_same {stk : Vector StkEntry encStkCap} {k n : Nat} {x : StkEntry} (h : stk[k]? = some x) :
    (withNode stk k n)[k]? = some { x with node := n } := by
  obtain ⟨hk, rfl⟩ := Vector.getElem?_eq_some_iff.mp h
  simp [withNode, hk]

theorem Dec.allocate_ok {d : Dec} {t : Option Sym} (h : d.dn < d.dnode.length) :
    d.allocate t = .ok { d with dnode := d.dnode.set d.dn (DNode.ofRecord t), dn := d.dn + 1 } := by
  simp [Dec.allocate, h]

theorem Dec.allocate_eq_ok {d d' : Dec} {t : Option Sym} (h : d.allocate t = .ok d') :
    d.dn < d.dnode.length ∧ d' = { d with dnode := d.dnode.set d.dn (DNode.ofRecord t), dn := d.dn + 1 } := by
  unfold Dec.allocate at h
  split at h
  · cases h; exact ⟨‹_›, rfl⟩
  · cases h

/-- Everything hanging a node can do (R182): it is the root, or it becomes the child the top of the stack waits for. -/
theorem Dec.hang_eq_ok {d d' : Dec} {i : Nat} (h : d.hang i = .ok d') :
    (d.dsp = 0 ∧ d' = { d with droot := i }) ∨
      (∃ e n, d.dsp ≠ 0 ∧ d.dstk[d.dsp - 1]? = some e ∧ d.dnode[e.node]? = some n ∧
        ((e.side = true ∧ d' = { d with dnode := d.dnode.set e.node (n.withRight i), dsp := d.dsp - 1 }) ∨
          (e.side = false ∧
            d' = { d with dnode := d.dnode.set e.node (n.withLeft i)
                          dstk := d.dstk.set (d.dsp - 1) { e with side := true } }))) := by
  unfold Dec.hang at h
  split at h
  · cases h; exact .inl ⟨‹_›, rfl⟩
  · split at h
    · cases h
    · split at h
      · cases h
      · split at h
        · cases h; exact .inr ⟨_, _, ‹_›, ‹_›, ‹_›, .inl ⟨‹_›, rfl⟩⟩
        · cases h; exact .inr ⟨_, _, ‹_›, ‹_›, ‹_›, .inr ⟨Bool.eq_false_iff.mpr ‹_›, rfl⟩⟩

theorem Dec.await_leaf {d : Dec} {v : Sym} {i : Nat} : d.await (some v) i = .ok d := rfl

theorem Dec.await_eq_ok {d d' : Dec} {t : Option Sym} {i : Nat} (h : d.await t i = .ok d') :
    (t ≠ none ∧ d' = d) ∨
      (t = none ∧ d.dsp < d.dstk.length ∧
        d' = { d with dstk := d.dstk.set d.dsp { node := i, side := false }, dsp := d.dsp + 1 }) := by
  unfold Dec.await at h
  split at h
  · cases h; exact .inl ⟨by simp, rfl⟩
  · split at h
    · cases h; exact .inr ⟨rfl, ‹_›, rfl⟩
    · cases h

/-- A record is allocated, hung and, if it is an internal node, put on the stack (R182). -/
theorem Dec.addRecord_eq_ok {d d' : Dec} {t : Option Sym} (h : d.addRecord t = .ok d') :
    ∃ d1 d2 d3, d.allocate t = .ok d1 ∧ d1.hang d.dn = .ok d2 ∧ d2.await t d.dn = .ok d3 ∧ d' = d3.endOfHeader := by
  unfold Dec.addRecord at h
  split at h
  · cases h
  · split at h
    · cases h
    · split at h
      · cases h
      · cases h; exact ⟨_, _, _, ‹_›, ‹_›, ‹_›, rfl⟩

theorem Dec.addRecord_ok {d d1 d2 d3 : Dec} {t : Option Sym} (h1 : d.allocate t = .ok d1) (h2 : d1.hang d.dn = .ok d2)
    (h3 : d2.await t d.dn = .ok d3) : d.addRecord t = .ok d3.endOfHeader := by
  simp [Dec.addRecord, h1, h2, h3]

theorem rootIsLeaf_leaf {d : Dec} {v : Sym} (h : d.dnode[d.droot]? = some (.leaf v)) : d.rootIsLeaf = some true := by
  simp [Dec.rootIsLeaf, h]

theorem rootIsLeaf_internal {d : Dec} {l r : Option Nat} (h : d.dnode[d.droot]? = some (.internal l r)) :
    d.rootIsLeaf = some false := by
  simp [Dec.rootIsLeaf, h]

/-- What a leaf root means for the store. -/
theorem rootIsLeaf_true {d : Dec} (h : d.rootIsLeaf = some true) : ∃ v, d.dnode[d.droot]? = some (.leaf v) := by
  unfold Dec.rootIsLeaf at h
  split at h
  · exact ⟨_, ‹_›⟩
  · cases h
  · cases h

theorem rootIsLeaf_false {d : Dec} (h : d.rootIsLeaf = some false) :
    ∃ l r, d.dnode[d.droot]? = some (.internal l r) := by
  unfold Dec.rootIsLeaf at h
  split at h
  · cases h
  · exact ⟨_, _, ‹_›⟩
  · cases h

/-- Everything one body bit can do when the step goes on (R190, R243). -/
theorem takeBit_next {b : Bool} {held s t : State} (h : takeBit b held s = .next t) :
    ∃ n c m, s.dec.dnode[s.dec.cur]? = some n ∧ n.child b = some c ∧ s.dec.dnode[c]? = some m ∧
      ((∃ l r, m = .internal l r ∧ t = { s with dec := { s.dec with cur := c } }) ∨
        (m = .leaf pseudoEof ∧ t = { s with dec := { s.dec with cur := c, phase := .close } }) ∨
        (∃ v, m = .leaf v ∧ v ≠ pseudoEof ∧
          ((s.sout.write v = .wait ∧ t = held) ∨
            (∃ p, s.sout.write v = .sent p ∧
              t = { s with dec := { s.dec with cur := s.dec.droot }, sout := p })))) := by
  unfold takeBit at h
  split at h
  · cases h
  · split at h
    · cases h
    · split at h
      · cases h
      · cases h; exact ⟨_, _, _, ‹_›, ‹_›, ‹_›, .inl ⟨_, _, rfl, rfl⟩⟩
      · split at h
        · subst_vars; cases h; exact ⟨_, _, _, ‹_›, ‹_›, ‹_›, .inr (.inl ⟨rfl, rfl⟩)⟩
        · split at h
          · cases h; exact ⟨_, _, _, ‹_›, ‹_›, ‹_›, .inr (.inr ⟨_, rfl, ‹_›, .inl ⟨‹_›, rfl⟩⟩)⟩
          · cases h
          · cases h; exact ⟨_, _, _, ‹_›, ‹_›, ‹_›, .inr (.inr ⟨_, rfl, ‹_›, .inr ⟨_, ‹_›, rfl⟩⟩)⟩

end Sys2Proof.Machine
end

