-- ==== Sys2Proof/Laws/Ports.lean ====
section
/-! SUPPORT. What each port primitive can answer, and when (R61 to R68, R243). -/

namespace Sys2Proof.Machine

theorem Rin.read_wait {p : Rin} (h : p.valid = false) : p.read = .wait := by simp [Rin.read, h]

theorem Rin.read_got {p : Rin} {r : Byte} (h : p.valid = true) (hr : p.data[p.pos]? = some r) :
    p.read = .got r { p with pos := p.pos + 1 } := by simp [Rin.read, h, hr]

theorem Rin.read_eos {p : Rin} (h : p.valid = true) (hr : p.data[p.pos]? = none) : p.read = .eos p := by
  simp only [Rin.read, h, hr, if_true]

/-- Everything `RIN.read()` can answer. -/
theorem Rin.read_cases (p : Rin) :
    (p.valid = false ∧ p.read = .wait) ∨
      (p.valid = true ∧ p.data[p.pos]? = none ∧ p.read = .eos p) ∨
      (∃ r, p.valid = true ∧ p.data[p.pos]? = some r ∧ p.read = .got r { p with pos := p.pos + 1 }) := by
  cases hv : p.valid with
  | false => exact .inl ⟨rfl, Rin.read_wait hv⟩
  | true =>
    cases hr : p.data[p.pos]? with
    | none => exact .inr (.inl ⟨rfl, rfl, Rin.read_eos hv hr⟩)
    | some r => exact .inr (.inr ⟨r, rfl, rfl, by rw [Rin.read_got hv hr]; simp [hv]⟩)

theorem Cout.write_open {p : Cout} {n v : Nat} (hr : p.ready = true) (hc : p.closed = false) :
    p.write n v = .sent { p with bits := p.bits ++ Machine.bits n v } := by
  unfold Cout.write
  split
  · subst n; simp
  · simp [hr, hc]

theorem Cout.write_nothing {p : Cout} {v : Nat} : p.write 0 v = .sent p := by simp [Cout.write]

theorem Cout.write_wait {p : Cout} {n v : Nat} (hn : n ≠ 0) (hr : p.ready = false) : p.write n v = .wait := by
  simp [Cout.write, hn, hr]

theorem Cout.write_closed {p : Cout} {n v : Nat} (hn : n ≠ 0) (hr : p.ready = true) (hc : p.closed = true) :
    p.write n v = .closed := by simp [Cout.write, hn, hr, hc]

/-- What `COUT.write(n, v)` leaves when the host took it. -/
theorem Cout.write_sent {p q : Cout} {n v : Nat} (h : p.write n v = .sent q) :
    q = { p with bits := p.bits ++ Machine.bits n v } := by
  unfold Cout.write at h
  split at h
  · subst n; cases h; simp
  · split at h
    · split at h <;> cases h
      rfl
    · cases h

/-- `COUT.write` finds the port closed only if it is. -/
theorem Cout.write_closed_iff {p : Cout} {n v : Nat} (h : p.write n v = .closed) : p.closed = true := by
  unfold Cout.write at h
  split at h
  · cases h
  · split at h
    · split at h
      · assumption
      · cases h
    · cases h

theorem Cout.close_open {p : Cout} (hr : p.ready = true) (hc : p.closed = false) :
    p.close = .sent { p with closed := true } := by simp [Cout.close, hr, hc]

theorem Cout.close_wait {p : Cout} (hr : p.ready = false) : p.close = .wait := by simp [Cout.close, hr]

theorem Cout.close_closed {p : Cout} (hr : p.ready = true) (hc : p.closed = true) : p.close = .closed := by
  simp [Cout.close, hr, hc]

theorem Cout.close_sent {p q : Cout} (h : p.close = .sent q) : q = { p with closed := true } := by
  unfold Cout.close at h
  split at h
  · split at h <;> cases h
    rfl
  · cases h

theorem Cout.close_closed_iff {p : Cout} (h : p.close = .closed) : p.closed = true := by
  unfold Cout.close at h
  split at h
  · split at h
    · assumption
    · cases h
  · cases h

theorem Sout.write_open {p : Sout} {v : Sym} (hr : p.ready = true) (hc : p.closed = false) :
    p.write v = .sent { p with bytes := p.bytes ++ [lowByte v] } := by simp [Sout.write, hr, hc]

theorem Sout.write_wait {p : Sout} {v : Sym} (hr : p.ready = false) : p.write v = .wait := by simp [Sout.write, hr]

theorem Sout.write_sent {p q : Sout} {v : Sym} (h : p.write v = .sent q) :
    q = { p with bytes := p.bytes ++ [lowByte v] } := by
  unfold Sout.write at h
  split at h
  · split at h <;> cases h
    rfl
  · cases h

theorem Sout.write_closed_iff {p : Sout} {v : Sym} (h : p.write v = .closed) : p.closed = true := by
  unfold Sout.write at h
  split at h
  · split at h
    · assumption
    · cases h
  · cases h

theorem Sout.close_open {p : Sout} (hr : p.ready = true) (hc : p.closed = false) :
    p.close = .sent { p with closed := true } := by simp [Sout.close, hr, hc]

theorem Sout.close_wait {p : Sout} (hr : p.ready = false) : p.close = .wait := by simp [Sout.close, hr]

theorem Sout.close_closed {p : Sout} (hr : p.ready = true) (hc : p.closed = true) : p.close = .closed := by
  simp [Sout.close, hr, hc]

theorem Sout.close_sent {p q : Sout} (h : p.close = .sent q) : q = { p with closed := true } := by
  unfold Sout.close at h
  split at h
  · split at h <;> cases h
    rfl
  · cases h

theorem Sout.close_closed_iff {p : Sout} (h : p.close = .closed) : p.closed = true := by
  unfold Sout.close at h
  split at h
  · split at h
    · assumption
    · cases h
  · cases h

/-! What a port was, from what a primitive answered. -/

theorem Cout.write_eq_wait {p : Cout} {n v : Nat} (h : p.write n v = .wait) : n ≠ 0 ∧ p.ready = false := by
  refine ⟨fun hn => (by rw [hn, Cout.write_nothing] at h; cases h), ?_⟩
  cases hr : p.ready with
  | false => rfl
  | true =>
    unfold Cout.write at h
    split at h
    · cases h
    · simp only [hr] at h
      split at h <;> cases h

theorem Cout.close_eq {p q : Cout} (h : p.close = .sent q) : p.ready = true ∧ q = { p with closed := true } := by
  refine ⟨?_, Cout.close_sent h⟩
  cases hr : p.ready with
  | true => rfl
  | false => rw [Cout.close_wait hr] at h; cases h

theorem Cout.close_eq_wait {p : Cout} (h : p.close = .wait) : p.ready = false := by
  cases hr : p.ready with
  | false => rfl
  | true => unfold Cout.close at h; simp only [hr, if_true] at h; split at h <;> cases h

theorem Sout.close_eq {p q : Sout} (h : p.close = .sent q) : p.ready = true ∧ q = { p with closed := true } := by
  refine ⟨?_, Sout.close_sent h⟩
  cases hr : p.ready with
  | true => rfl
  | false => rw [Sout.close_wait hr] at h; cases h

theorem Sout.close_eq_wait {p : Sout} (h : p.close = .wait) : p.ready = false := by
  cases hr : p.ready with
  | false => rfl
  | true => unfold Sout.close at h; simp only [hr, if_true] at h; split at h <;> cases h

theorem Sout.write_eq {p q : Sout} {v : Sym} (h : p.write v = .sent q) :
    p.ready = true ∧ q = { p with bytes := p.bytes ++ [lowByte v] } := by
  refine ⟨?_, Sout.write_sent h⟩
  cases hr : p.ready with
  | true => rfl
  | false => rw [Sout.write_wait hr] at h; cases h

theorem Sout.write_eq_wait {p : Sout} {v : Sym} (h : p.write v = .wait) : p.ready = false := by
  cases hr : p.ready with
  | false => rfl
  | true => unfold Sout.write at h; simp only [hr, if_true] at h; split at h <;> cases h

theorem Cin.read_wait {p : Cin} {n : Nat} (h : p.valid = false) : p.read n = .wait := by simp [Cin.read, h]

theorem Cin.read_got {p : Cin} {n : Nat} (h : p.valid = true) (hn : n ≤ p.data.length - p.pos) :
    p.read n = .got (valueOf ((p.data.drop p.pos).take n)) { p with pos := p.pos + n } := by simp [Cin.read, h, hn]

theorem Cin.read_eos {p : Cin} {n : Nat} (h : p.valid = true) (hn : p.data.length - p.pos < n) :
    p.read n = .eos { p with pos := p.data.length } := by
  simp [Cin.read, h, Nat.not_le.mpr hn]

/-- Everything `CIN.read(n)` can answer. -/
theorem Cin.read_cases (n : Nat) (p : Cin) :
    (p.valid = false ∧ p.read n = .wait) ∨
      (p.valid = true ∧ p.data.length - p.pos < n ∧ p.read n = .eos { p with pos := p.data.length }) ∨
      (p.valid = true ∧ n ≤ p.data.length - p.pos ∧
        p.read n = .got (valueOf ((p.data.drop p.pos).take n)) { p with pos := p.pos + n }) := by
  cases hv : p.valid with
  | false => exact .inl ⟨rfl, Cin.read_wait hv⟩
  | true =>
    rcases Nat.lt_or_ge (p.data.length - p.pos) n with h | h
    · exact .inr (.inl ⟨rfl, h, by rw [Cin.read_eos hv h]; simp [hv]⟩)
    · exact .inr (.inr ⟨rfl, h, by rw [Cin.read_got hv h]; simp [hv]⟩)

/-- One bit of the compressed input is 1 exactly when it reads as the number 1. -/
theorem valueOf_singleton (b : Bool) : valueOf [b] = b.toNat := by cases b <;> rfl

end Sys2Proof.Machine
end

