-- ==== Sys2Proof/Laws/Body.lean ====
section
/-! SUPPORT. How DEC walks the code of a leaf: down to the last branch, and from there onto the leaf (R98, R190). -/

namespace Sys2Proof.Machine

/-- A code of an internal node is a branch and then a code of the child it leads to. -/
theorem mem_codes_node {l r : HTree} {v : Sym} {c : Bits} (h : (v, c) ∈ (HTree.node l r).codes) :
    ∃ b c', c = b :: c' ∧ (v, c') ∈ (if b then r else l).codes := by
  simp only [HTree.codes, List.mem_append, List.mem_map, Prod.mk.injEq] at h
  rcases h with ⟨⟨a, c'⟩, hm, rfl, rfl⟩ | ⟨⟨a, c'⟩, hm, rfl, rfl⟩
  · exact ⟨false, c', rfl, hm⟩
  · exact ⟨true, c', rfl, hm⟩

/-- A bit that leads to an internal node moves the walker there, and the rest of the item follows. -/
theorem takeBits_internal {b : Bool} {bs : Bits} {s : State} {n : DNode} {k : Nat} {l r : Option Nat}
    (hp : s.dec.phase = .decode) (hv : s.cin.valid = true) (hn : s.dec.dnode[s.dec.cur]? = some n)
    (hk : n.child b = some k) (hm : s.dec.dnode[k]? = some (.internal l r)) :
    takeBits (b :: bs) s =
      takeBits bs { s with cin := { s.cin with pos := s.cin.pos + 1 }, dec := { s.dec with cur := k } } := by
  rw [takeBits, if_pos ⟨hp, hv⟩]
  simp only [takeBit, pastItem, hn, hk, hm]
  rw [if_neg (by simp)]

/-- From the index `i`, all bits of `c` but the last lead to a node whose child on the last bit is the leaf of `v`; what the
item does is what its last bit does there. -/
def WalksToLastBranch (dnode : List DNode) (v : Sym) (c : Bits) (i : Nat) : Prop :=
  ∃ path b k n j, c = path ++ [b] ∧ nodeAlong dnode path i = some k ∧ dnode[k]? = some n ∧ n.child b = some j ∧
    dnode[j]? = some (.leaf v) ∧
    ∀ s : State, s.dec.dnode = dnode → s.dec.phase = .decode → s.cin.valid = true → s.dec.cur = i →
      takeBits c s = takeBits [b]
        { s with cin := { s.cin with pos := s.cin.pos + path.length }, dec := { s.dec with cur := k } }

/-- The code of a leaf walks to the leaf's parent (R190). -/
theorem takeBits_code {dnode : List DNode} (T : HTree) {v : Sym} {c : Bits} {i : Nat} (hT : ∀ w, T ≠ .leaf w)
    (hr : DNodeRep dnode T i) (hc : (v, c) ∈ T.codes) : WalksToLastBranch dnode v c i := by
  induction T generalizing c i with
  | leaf w => exact absurd rfl (hT w)
  | node l r ihl ihr =>
    obtain ⟨x, y, hn, hl, hr⟩ := hr
    obtain ⟨b, c', rfl, hc'⟩ := mem_codes_node hc
    have hchild : (DNode.internal (some x) (some y)).child b = some (if b then y else x) := by cases b <;> rfl
    have hsub : DNodeRep dnode (if b then r else l) (if b then y else x) := by cases b <;> assumption
    have ih : (∀ w, (if b then r else l) ≠ .leaf w) → WalksToLastBranch dnode v c' (if b then y else x) := by
      intro hw
      cases b with
      | false => exact ihl hw hsub hc'
      | true => exact ihr hw hsub hc'
    cases hX : (if b then r else l) with
    | leaf w =>
      rw [hX] at hsub hc'
      simp only [HTree.codes, List.mem_singleton, Prod.mk.injEq] at hc'
      obtain ⟨rfl, rfl⟩ := hc'
      refine ⟨[], b, i, _, _, rfl, rfl, hn, hchild, hsub, fun s hd hp hv hcur => ?_⟩
      simp only [← hcur, List.length_nil, Nat.add_zero]
    | node l' r' =>
      rw [hX] at hsub
      obtain ⟨path, b', k, n, j, rfl, hk, hkn, hkj, hj, hrun⟩ := ih (fun w => by rw [hX]; intro h; cases h)
      obtain ⟨x', y', hm, -, -⟩ := hsub
      refine ⟨b :: path, b', k, n, j, rfl, ?_, hkn, hkj, hj, fun s hd hp hv hcur => ?_⟩
      · simp only [nodeAlong, hn, hchild, hk]
      · have hm : s.dec.dnode[if b then y else x]? = some (.internal (some x') (some y')) := by rw [hd]; exact hm
        refine (takeBits_internal hp hv (by rw [hd, hcur]; exact hn) hchild hm).trans ?_
        refine (hrun { s with cin := { s.cin with pos := s.cin.pos + 1 }, dec := { s.dec with cur := if b then y else x } }
          hd hp hv rfl).trans ?_
        simp only [List.length_cons, Nat.add_assoc, Nat.add_comm 1]

/-- What the last bit of a literal's code does (R190, R243): by the output port, it is held, refused, or writes the byte. -/
theorem takeBits_last {b : Bool} {s : State} {n : DNode} {j : Nat} {v : Sym} (hp : s.dec.phase = .decode)
    (hv : s.cin.valid = true) (hn : s.dec.dnode[s.dec.cur]? = some n) (hj : n.child b = some j)
    (hl : s.dec.dnode[j]? = some (.leaf v)) (hne : v ≠ pseudoEof) :
    takeBits [b] s =
      match s.sout.write v with
      | .wait => .next s
      | .closed => .refused .portClosed
      | .sent p => .next { s with cin := { s.cin with pos := s.cin.pos + 1 }, sout := p
                                  dec := { s.dec with cur := s.dec.droot } } := by
  rw [takeBits, if_pos ⟨hp, hv⟩]
  simp only [takeBit, pastItem, hn, hj, hl, if_neg hne]
  cases s.sout.write v with
  | wait => simp
  | closed => rfl
  | sent p => simp [takeBits]

end Sys2Proof.Machine
end

