-- ==== Sys2Proof/Laws/Decoder.lean ====
section
/-! SUPPORT. What each operation of DEC can do when it answers a next state: one inversion lemma per meaning. -/

namespace Sys2Proof.Machine

/-- Everything a record that has been read can do (R182): a full store raises, else the store takes it. -/
theorem takeRecord_next {r : Option Sym} {s t : State} (h : takeRecord r s = .next t) :
    (s.dec.dn = s.cfg.decNodeCap ∧
        t = { s with dec := { s.dec with err := .headerCapacity, phase := .close } }) ∨
      (s.dec.dn ≠ s.cfg.decNodeCap ∧ ∃ d, s.dec.addRecord r = .ok d ∧ t = { s with dec := d }) := by
  unfold takeRecord at h
  split at h
  · cases h; exact .inl ⟨‹_›, rfl⟩
  · split at h
    · cases h; exact .inr ⟨‹_›, _, ‹_›, rfl⟩
    · cases h

/-- The two ways a magic can go (R180). -/
theorem takeMagic_next {m : MagicWord} {s t : State} (h : takeMagic m s = .next t) :
    (m = s.cfg.magic ∧ t = { s with dec := { s.dec with phase := .rdhdr } }) ∨
      (m ≠ s.cfg.magic ∧ t = { s with dec := { s.dec with err := .formatError, phase := .close } }) := by
  unfold takeMagic at h
  split at h <;> cases h
  · exact .inl ⟨‹_›, rfl⟩
  · exact .inr ⟨‹_›, rfl⟩

/-- Everything DEC.RDMAGIC can do (R180, R181). -/
theorem execDecRdmagic_next {s t : State} (h : execDecRdmagic s = .next t) :
    t = s ∨
      t = { s with
        cin := { s.cin with pos := s.cin.data.length }
        dec := { s.dec with err := .formatError, phase := .close } } ∨
      (32 ≤ s.cin.data.length - s.cin.pos ∧
        ∃ m, takeMagic m { s with cin := { s.cin with pos := s.cin.pos + 32 } } = .next t) := by
  unfold execDecRdmagic at h
  rcases Cin.read_cases 32 s.cin with ⟨-, e⟩ | ⟨-, -, e⟩ | ⟨-, hn, e⟩ <;> rw [e] at h <;> simp only at h
  · cases h; exact .inl rfl
  · cases h; exact .inr (.inl rfl)
  · exact .inr (.inr ⟨hn, _, h⟩)

/-- Everything DEC.RDHDR can do (R182): it is held, the stream ends in the record, or a whole record is taken. -/
theorem execDecRdhdr_next {s t : State} (h : execDecRdhdr s = .next t) :
    t = s ∨
      t = { s with
        cin := { s.cin with pos := s.cin.data.length }
        dec := { s.dec with err := .headerCorrupt, phase := .close } } ∨
      (1 ≤ s.cin.data.length - s.cin.pos ∧
        takeRecord none { s with cin := { s.cin with pos := s.cin.pos + 1 } } = .next t) ∨
      (10 ≤ s.cin.data.length - s.cin.pos ∧
        ∃ v, takeRecord (some v) { s with cin := { s.cin with pos := s.cin.pos + 10 } } = .next t) := by
  unfold execDecRdhdr at h
  rcases Cin.read_cases 1 s.cin with ⟨-, e⟩ | ⟨-, -, e⟩ | ⟨-, hn, e⟩ <;> rw [e] at h <;> simp only at h
  · cases h; exact .inl rfl
  · cases h; exact .inr (.inl rfl)
  · split at h
    · rcases Cin.read_cases 9 { s.cin with pos := s.cin.pos + 1 } with ⟨-, e⟩ | ⟨-, -, e⟩ | ⟨-, h9, e⟩ <;>
        rw [e] at h <;> simp only at h
      · cases h; exact .inl rfl
      · cases h; exact .inr (.inl rfl)
      · simp only at h9
        exact .inr (.inr (.inr ⟨by omega, _, h⟩))
    · exact .inr (.inr (.inl ⟨hn, h⟩))

/-- Everything DEC.DECODE can do (R190 to R192): a leaf root ends the body, it is held, the stream ends, or one bit is
taken. -/
theorem execDecDecode_next {s t : State} (h : execDecDecode s = .next t) :
    (s.dec.rootIsLeaf = some true ∧ t = { s with dec := { s.dec with phase := .close } }) ∨
      (s.dec.rootIsLeaf = some false ∧
        (t = s ∨
          t = { s with
            cin := { s.cin with pos := s.cin.data.length }
            dec := { s.dec with err := .decodeTermination, phase := .close } } ∨
          (1 ≤ s.cin.data.length - s.cin.pos ∧
            ∃ b, takeBit b s { s with cin := { s.cin with pos := s.cin.pos + 1 } } = .next t))) := by
  unfold execDecDecode at h
  split at h
  · cases h
  · cases h; exact .inl ⟨‹_›, rfl⟩
  · refine .inr ⟨‹_›, ?_⟩
    rcases Cin.read_cases 1 s.cin with ⟨-, e⟩ | ⟨-, -, e⟩ | ⟨-, hn, e⟩ <;> rw [e] at h <;> simp only at h
    · cases h; exact .inl rfl
    · cases h; exact .inr (.inl rfl)
    · exact .inr (.inr ⟨hn, _, h⟩)

/-- Everything DEC.CLOSE can do (R194). -/
theorem execDecClose_next {s t : State} (h : execDecClose s = .next t) :
    t = s ∨
      t = { s with
        sout := { s.sout with closed := true }
        dec := { s.dec with phase := if s.dec.err = .none then .done else .fault } } := by
  unfold execDecClose at h
  split at h <;> cases h
  · exact .inl rfl
  · rename_i p hp
    rw [Sout.close_sent hp]
    exact .inr rfl

end Sys2Proof.Machine
end

