-- ==== Sys2Proof/Laws/Encoder.lean ====
section
/-! SUPPORT. What each operation of ENC can do when it answers a next state: one inversion lemma per meaning. -/

namespace Sys2Proof.Machine

/-- Everything ENC.COUNT can do (R130): it is held, it reaches the end of the input, or it counts one byte. -/
theorem execEncCount_next {s t : State} (h : execEncCount s = .next t) :
    t = s ∨
      (s.rin.data[s.rin.pos]? = none ∧
        t = { s with enc := { s.enc with cnt := s.enc.cnt.set eofIndex 1, phase := .qinit } }) ∨
      (∃ r, s.rin.data[s.rin.pos]? = some r ∧
        t = { s with
          rin := { s.rin with pos := s.rin.pos + 1 }
          enc := { s.enc with cnt := s.enc.cnt.set (byteIndex r) (satInc s.cfg.cntW s.enc.cnt[byteIndex r]) } }) := by
  unfold execEncCount at h
  rcases Rin.read_cases s.rin with ⟨-, e⟩ | ⟨-, hr, e⟩ | ⟨r, -, hr, e⟩ <;> rw [e] at h <;> cases h
  · exact .inl rfl
  · exact .inr (.inl ⟨hr, rfl⟩)
  · exact .inr (.inr ⟨r, hr, rfl⟩)

/-- Everything ENC.MERGE can do (R143): it joins two nodes, or it names the root. -/
theorem execEncMerge_next {s t : State} (h : execEncMerge s = .next t) :
    (1 < s.enc.qsize ∧ s.enc.nn < encNodeCap ∧ mergeTwo s = .next t) ∨
      (¬ 1 < s.enc.qsize ∧ finishTree s = .next t) := by
  unfold execEncMerge at h
  split at h
  · refine .inl ⟨‹_›, ?_, h⟩
    simp only [mergeTwo] at h
    split at h
    · assumption
    · cases h
  · exact .inr ⟨‹_›, h⟩

/-- Everything ENC.GEN can do (R151): it records a leaf's code, or it pushes the two children. -/
theorem execEncGen_next {s t : State} (h : execEncGen s = .next t) :
    ∃ x n, 1 ≤ s.enc.sp ∧ s.enc.stk[s.enc.sp - 1]? = some x ∧ s.enc.node[x.node]? = some n ∧
      ((∃ (v : Sym) (hv : v.toNat < nsym), n.kind = .leaf v ∧
          t = { s with enc := (Enc.recordCode ⟨v.toNat, hv⟩ x { s.enc with sp := s.enc.sp - 1 }).endOfWalk .wrmagic }) ∨
        (∃ l r, n.kind = .internal l r ∧ s.enc.sp < encStkCap ∧
          t = { s with enc := { s.enc with
            stk := (s.enc.stk.setIfInBounds (s.enc.sp - 1) (x.below true r)).setIfInBounds s.enc.sp (x.below false l)
            sp := s.enc.sp + 1 } })) := by
  unfold execEncGen at h
  split at h
  · cases h
  · rename_i x e hp
    obtain ⟨htop, rfl⟩ := Enc.pop_eq_some hp
    obtain ⟨h1, hx⟩ := Enc.top_eq_some htop
    split at h
    · cases h
    · rename_i n hn
      refine ⟨x, n, h1, hx, hn, ?_⟩
      split at h
      · rename_i v hk
        split at h
        · cases h; exact .inl ⟨v, ‹_›, hk, rfl⟩
        · cases h
      · rename_i l r hk
        split at h
        · cases h
        · rename_i e' he
          obtain ⟨hlt, rfl⟩ := Enc.pushTwo_eq_some he
          cases h
          simp only at hlt
          refine .inr ⟨l, r, hk, by omega, ?_⟩
          rw [endOfWalk_pos _ _ (by simp)]
          simp only [show s.enc.sp - 1 + 1 = s.enc.sp by omega, show s.enc.sp - 1 + 2 = s.enc.sp + 1 by omega]

/-- Everything ENC.WRMAGIC can do (R160). -/
theorem execEncWrmagic_next {s t : State} (h : execEncWrmagic s = .next t) :
    t = s ∨
      t = { s with
        cout := { s.cout with bits := s.cout.bits ++ bits 32 s.cfg.magic.toNat }
        enc := { s.enc with stk := withNode s.enc.stk 0 s.enc.root, sp := 1, phase := .wrhdr } } := by
  unfold execEncWrmagic at h
  split at h <;> cases h
  · exact .inl rfl
  · rename_i p hp
    rw [Cout.write_sent hp]
    exact .inr rfl

/-- The record of a leaf is `1` and the nine bits of the value (R96). -/
theorem writeLeafRecord_sent {v : Sym} {p q : Cout} (h : writeLeafRecord v p = .sent q) :
    q = { p with bits := p.bits ++ encode (.hdrLeaf v) } := by
  unfold writeLeafRecord at h
  split at h
  · cases h
  · cases h
  · rename_i p' hp
    rw [Cout.write_sent h, Cout.write_sent hp]
    simp [encode, bits_succ]

theorem writeLeafRecord_open {v : Sym} {p : Cout} (hr : p.ready = true) (hc : p.closed = false) :
    writeLeafRecord v p = .sent { p with bits := p.bits ++ encode (.hdrLeaf v) } := by
  rw [writeLeafRecord, Cout.write_open hr hc]
  simp only
  rw [Cout.write_open (by exact hr) (by exact hc)]
  simp [encode, bits_succ]

/-- A leaf's record finds the port closed only if it is. -/
theorem writeLeafRecord_closed {v : Sym} {p : Cout} (h : writeLeafRecord v p = .closed) : p.closed = true := by
  unfold writeLeafRecord at h
  split at h
  · cases h
  · exact Cout.write_closed_iff ‹_›
  · rename_i p' hp
    have := Cout.write_closed_iff h
    rwa [Cout.write_sent hp] at this

theorem writeLeafRecord_ready {v : Sym} {p q : Cout} (h : writeLeafRecord v p = .sent q) : p.ready = true := by
  cases hr : p.ready with
  | true => rfl
  | false => rw [writeLeafRecord, Cout.write_wait (by decide) hr] at h; cases h

theorem writeLeafRecord_wait {v : Sym} {p : Cout} (h : writeLeafRecord v p = .wait) : p.ready = false := by
  cases hr : p.ready with
  | false => rfl
  | true =>
    cases hc : p.closed with
    | false => rw [writeLeafRecord_open hr hc] at h; cases h
    | true => rw [writeLeafRecord, Cout.write_closed (by decide) hr hc] at h; cases h

/-- Everything ENC.WRHDR can do (R162): it is held, writes a leaf's record, or writes a node's and pushes the children. -/
theorem execEncWrhdr_next {s t : State} (h : execEncWrhdr s = .next t) :
    ∃ x n, 1 ≤ s.enc.sp ∧ s.enc.stk[s.enc.sp - 1]? = some x ∧ s.enc.node[x.node]? = some n ∧
      (t = s ∨
        (∃ v, n.kind = .leaf v ∧
          t = { s with
            cout := { s.cout with bits := s.cout.bits ++ encode (.hdrLeaf v) }
            enc := Enc.endOfWalk .rewind { s.enc with sp := s.enc.sp - 1 } }) ∨
        (∃ l r, n.kind = .internal l r ∧ s.enc.sp < encStkCap ∧
          t = { s with
            cout := { s.cout with bits := s.cout.bits ++ encode .hdrNode }
            enc := { s.enc with
              stk := withNode (withNode s.enc.stk (s.enc.sp - 1) r) s.enc.sp l, sp := s.enc.sp + 1 } })) := by
  unfold execEncWrhdr at h
  split at h
  · cases h
  · rename_i x e hp
    obtain ⟨htop, rfl⟩ := Enc.pop_eq_some hp
    obtain ⟨h1, hx⟩ := Enc.top_eq_some htop
    split at h
    · cases h
    · rename_i n hn
      refine ⟨x, n, h1, hx, hn, ?_⟩
      split at h
      · rename_i v hk
        split at h <;> cases h
        · exact .inl rfl
        · rename_i p hp
          rw [writeLeafRecord_sent hp]
          exact .inr (.inl ⟨v, hk, rfl⟩)
      · rename_i l r hk
        split at h
        · cases h; exact .inl rfl
        · cases h
        · rename_i p hp
          split at h
          · cases h
          · rename_i e' he
            obtain ⟨hlt, rfl⟩ := Enc.pushTwoNodes_eq_some he
            cases h
            simp only at hlt
            refine .inr (.inr ⟨l, r, hk, by omega, ?_⟩)
            rw [endOfWalk_pos _ _ (by simp), Cout.write_sent hp]
            simp only [show s.enc.sp - 1 + 1 = s.enc.sp by omega, show s.enc.sp - 1 + 2 = s.enc.sp + 1 by omega]
            rfl

/-- Everything ENC.ENCODE can do (R172, R173): it is held, ends at `EOS`, writes one code, or raises EncNoCode. -/
theorem execEncEncode_next {s t : State} (h : execEncEncode s = .next t) :
    t = s ∨
      (s.rin.data[s.rin.pos]? = none ∧ t = { s with enc := { s.enc with phase := .wreof } }) ∨
      (∃ r, s.rin.data[s.rin.pos]? = some r ∧ s.enc.codeValid[byteIndex r] = true ∧
        t = { s with
          rin := { s.rin with pos := s.rin.pos + 1 }
          cout := { s.cout with
            bits := s.cout.bits ++ bits s.enc.codeLen[byteIndex r] s.enc.codeBits[byteIndex r].toNat } }) ∨
      (∃ r, s.rin.data[s.rin.pos]? = some r ∧ s.enc.codeValid[byteIndex r] = false ∧
        t = { s with
          rin := { s.rin with pos := s.rin.pos + 1 }
          enc := { s.enc with err := .encNoCode, phase := .close } }) := by
  unfold execEncEncode at h
  rcases Rin.read_cases s.rin with ⟨-, e⟩ | ⟨-, hr, e⟩ | ⟨r, -, hr, e⟩ <;> rw [e] at h <;> simp only at h
  · cases h; exact .inl rfl
  · cases h; exact .inr (.inl ⟨hr, rfl⟩)
  · split at h
    · split at h <;> cases h
      · exact .inl rfl
      · rename_i hv _ q hq
        rw [Cout.write_sent hq]
        exact .inr (.inr (.inl ⟨r, hr, hv, rfl⟩))
    · cases h
      exact .inr (.inr (.inr ⟨r, hr, Bool.eq_false_iff.mpr ‹_›, rfl⟩))

/-- Everything ENC.WREOF can do (R174). -/
theorem execEncWreof_next {s t : State} (h : execEncWreof s = .next t) :
    t = s ∨
      t = { s with
        cout := { s.cout with bits := s.cout.bits ++ bits s.enc.codeLen[eofIndex] s.enc.codeBits[eofIndex].toNat }
        enc := { s.enc with phase := .close } } := by
  unfold execEncWreof at h
  split at h <;> cases h
  · exact .inl rfl
  · rename_i p hp
    rw [Cout.write_sent hp]
    exact .inr rfl

/-- Everything ENC.CLOSE can do (R176). -/
theorem execEncClose_next {s t : State} (h : execEncClose s = .next t) :
    t = s ∨
      t = { s with
        cout := { s.cout with closed := true }
        enc := { s.enc with phase := if s.enc.err = .none then .done else .fault } } := by
  unfold execEncClose at h
  split at h <;> cases h
  · exact .inl rfl
  · rename_i p hp
    rw [Cout.close_sent hp]
    exact .inr rfl

end Sys2Proof.Machine
end

