-- ==== Sys2Proof/Laws/PerInstr.lean ====
section
/-! SUPPORT. The width of every instruction, constructor by constructor: a well-formed instruction encodes to as many bits
as its row of spec/opcode_table.json allows (R90, R94 to R100). -/

namespace Sys2Proof.Laws.Width

/-- The least and the greatest width of a row, in bits. -/
def rowWidth : Instr → Nat × Nat
  | .reset => (3, 3)
  | .encStart _ => (3, 3)
  | .decStart _ => (3, 3)
  | .encWaitIdle => (4, 4)
  | .encCount => (4, 4)
  | .encQinit => (4, 4)
  | .encMerge => (4, 4)
  | .encGen => (4, 4)
  | .encWrmagic => (4, 4)
  | .encWrhdr => (4, 4)
  | .encRewind => (4, 4)
  | .encEncode => (4, 4)
  | .encWreof => (4, 4)
  | .encClose => (4, 4)
  | .encWaitDone => (4, 4)
  | .encWaitFault => (4, 4)
  | .decWaitIdle => (3, 3)
  | .decRdmagic => (3, 3)
  | .decRdhdr => (3, 3)
  | .decDecode => (3, 3)
  | .decClose => (3, 3)
  | .decWaitDone => (3, 3)
  | .decWaitFault => (3, 3)
  | .magic _ => (32, 32)
  | .hdrNode => (1, 1)
  | .hdrLeaf _ => (10, 10)
  | .bodyCode _ => (1, 256)
  | .bodyEof _ => (0, 256)
  | .pad _ => (0, 7)

/-- A well-formed instruction's encoding has a width its row allows. -/
def Statement (i : Instr) : Prop :=
  i.wellFormed = true → (rowWidth i).1 ≤ (encode i).length ∧ (encode i).length ≤ (rowWidth i).2

theorem reset : Statement .reset := fun _ => by simp [encode, rowWidth]

theorem encStart (_raw : List Byte) : Statement (.encStart _raw) := fun _ => by simp [encode, rowWidth]

theorem decStart (_comp : Bits) : Statement (.decStart _comp) := fun _ => by simp [encode, rowWidth]

theorem encWaitIdle : Statement .encWaitIdle := fun _ => by simp [encode, rowWidth]

theorem encCount : Statement .encCount := fun _ => by simp [encode, rowWidth]

theorem encQinit : Statement .encQinit := fun _ => by simp [encode, rowWidth]

theorem encMerge : Statement .encMerge := fun _ => by simp [encode, rowWidth]

theorem encGen : Statement .encGen := fun _ => by simp [encode, rowWidth]

theorem encWrmagic : Statement .encWrmagic := fun _ => by simp [encode, rowWidth]

theorem encWrhdr : Statement .encWrhdr := fun _ => by simp [encode, rowWidth]

theorem encRewind : Statement .encRewind := fun _ => by simp [encode, rowWidth]

theorem encEncode : Statement .encEncode := fun _ => by simp [encode, rowWidth]

theorem encWreof : Statement .encWreof := fun _ => by simp [encode, rowWidth]

theorem encClose : Statement .encClose := fun _ => by simp [encode, rowWidth]

theorem encWaitDone : Statement .encWaitDone := fun _ => by simp [encode, rowWidth]

theorem encWaitFault : Statement .encWaitFault := fun _ => by simp [encode, rowWidth]

theorem decWaitIdle : Statement .decWaitIdle := fun _ => by simp [encode, rowWidth]

theorem decRdmagic : Statement .decRdmagic := fun _ => by simp [encode, rowWidth]

theorem decRdhdr : Statement .decRdhdr := fun _ => by simp [encode, rowWidth]

theorem decDecode : Statement .decDecode := fun _ => by simp [encode, rowWidth]

theorem decClose : Statement .decClose := fun _ => by simp [encode, rowWidth]

theorem decWaitDone : Statement .decWaitDone := fun _ => by simp [encode, rowWidth]

theorem decWaitFault : Statement .decWaitFault := fun _ => by simp [encode, rowWidth]

theorem magic (m : MagicWord) : Statement (.magic m) := by
  intro _
  simp [encode, rowWidth]

theorem hdrNode : Statement .hdrNode := fun _ => by simp [encode, rowWidth]

theorem hdrLeaf (value : Sym) : Statement (.hdrLeaf value) := by
  intro _
  simp [encode, rowWidth]

theorem bodyCode (code : Bits) : Statement (.bodyCode code) := by
  intro h
  simpa [Instr.wellFormed, codeLengthOk, encode, rowWidth] using h

theorem bodyEof (code : Bits) : Statement (.bodyEof code) := by
  intro h
  exact ⟨Nat.zero_le _, by simpa [Instr.wellFormed, eofLengthOk, encode, rowWidth] using h⟩

theorem pad (p : Nat) : Statement (.pad p) := by
  intro h
  exact ⟨Nat.zero_le _, by simpa [Instr.wellFormed, padLengthOk, encode, rowWidth] using h⟩

end Sys2Proof.Laws.Width
end

