-- ==== Sys2Proof/Laws/Queue.lean ====
section
/-! SUPPORT. The queue's members and its minimum (R141). -/

namespace Sys2Proof.Machine

theorem mem_queueOf {inq : Vector Bool encNodeCap} {i : Nat} : i ∈ queueOf inq ↔ inq[i]? = some true := by
  simp only [queueOf, List.mem_map, List.mem_filter, Prod.exists]
  constructor
  · rintro ⟨b, j, ⟨hm, hb⟩, rfl⟩
    have h := List.mem_zipIdx_iff_getElem?.mp hm
    simp only at h hb
    subst hb
    simpa using h
  · intro h
    exact ⟨true, i, ⟨List.mem_zipIdx_iff_getElem?.mpr (by simpa using h), rfl⟩, rfl⟩

/-- Of a list that is not empty `argmin` names a member, and none is less. -/
theorem argmin_spec (weight : Nat → Nat) (l : List Nat) (h : l ≠ []) :
    ∃ a, argmin weight l = some a ∧ a ∈ l ∧
      ∀ j ∈ l, weight a < weight j ∨ (weight a = weight j ∧ a ≤ j) := by
  induction l with
  | nil => exact absurd rfl h
  | cons i is ih =>
    rcases Classical.em (is = []) with rfl | his
    · exact ⟨i, rfl, List.mem_singleton_self i, fun j hj => by rw [List.mem_singleton.mp hj]; exact .inr ⟨rfl, le_rfl⟩⟩
    · obtain ⟨a, ha, hm, hle⟩ := ih his
      simp only [argmin, ha]
      split
      · rename_i hlt
        refine ⟨a, rfl, List.mem_cons_of_mem _ hm, fun j hj => ?_⟩
        rcases List.mem_cons.mp hj with rfl | hj
        · omega
        · exact hle j hj
      · rename_i hlt
        refine ⟨i, rfl, List.mem_cons_self .., fun j hj => ?_⟩
        rcases List.mem_cons.mp hj with rfl | hj
        · exact .inr ⟨rfl, le_rfl⟩
        · have := hle j hj
          omega

end Sys2Proof.Machine
end

