-- ==== Sys2Proof/Laws/Step.lean ====
section
/-! SUPPORT. What a step can be: a turn of one unit, a command, or a host event; which operation a turn runs. -/

namespace Sys2Proof.Machine

/-- ENC's phase code decodes to the operation of the table (R40, R90). -/
theorem fetchUnit_enc (s : State) : fetchUnit .enc s = encOperation s.enc.phase := by
  unfold fetchUnit phaseWord phaseCtx
  cases h : s.enc.phase <;> rfl

/-- DEC's phase code decodes to the operation of the table (R40, R90). -/
theorem fetchUnit_dec (s : State) : fetchUnit .dec s = decOperation s.dec.phase := by
  unfold fetchUnit phaseWord phaseCtx
  cases h : s.dec.phase <;> rfl

theorem runUnit_some {u : Agent} {s : State} {i : Instr} (h : fetchUnit u s = some i) : runUnit u s = exec i s := by
  simp only [runUnit, h]

theorem runUnit_none {u : Agent} {s : State} (h : fetchUnit u s = none) : runUnit u s = .next s := by
  simp only [runUnit, h]

/-- What a fetch can find: a unit's operation, a command, or an event; the state it runs on differs in the agenda and the
turn only. -/
theorem fetch_cases (s : State) : ∃ a r,
    (∃ u, (fetch s).state = { s with agenda := a, turn := r } ∧ (fetch s).instr = fetchUnit u s) ∨
      (∃ i, (fetch s).state = { s with agenda := a, turn := r } ∧ (fetch s).instr = some i ∧
        (i = .reset ∨ (∃ raw, i = .encStart raw) ∨ ∃ comp, i = .decStart comp)) ∨
      (∃ e, (fetch s).state = applyEvent e { s with agenda := a, turn := r } ∧ (fetch s).instr = none) := by
  unfold fetch
  split
  · rename_i ha
    exact ⟨s.agenda, s.turn.other, .inl ⟨s.turn, rfl, rfl⟩⟩
  · exact ⟨_, s.turn, .inl ⟨_, rfl, rfl⟩⟩
  · rename_i e rest ha
    cases e with
    | strobe rst es ds raw comp =>
      cases rst <;> cases es <;> cases ds
      · exact ⟨rest, s.turn, .inr (.inr ⟨.strobe false false false raw comp, rfl, rfl⟩)⟩
      · exact ⟨rest, s.turn, .inr (.inl ⟨_, rfl, rfl, .inr (.inr ⟨_, rfl⟩)⟩)⟩
      · exact ⟨rest, s.turn, .inr (.inl ⟨_, rfl, rfl, .inr (.inl ⟨_, rfl⟩)⟩)⟩
      · exact ⟨_, s.turn, .inr (.inl ⟨_, rfl, rfl, .inr (.inl ⟨_, rfl⟩)⟩)⟩
      all_goals exact ⟨rest, s.turn, .inr (.inl ⟨_, rfl, rfl, .inl rfl⟩)⟩
    | lines a b c d => exact ⟨rest, s.turn, .inr (.inr ⟨.lines a b c d, rfl, rfl⟩)⟩
    | replay raw => exact ⟨rest, s.turn, .inr (.inr ⟨.replay raw, rfl, rfl⟩)⟩
    | cutRaw => exact ⟨rest, s.turn, .inr (.inr ⟨.cutRaw, rfl, rfl⟩)⟩
    | cutComp => exact ⟨rest, s.turn, .inr (.inr ⟨.cutComp, rfl, rfl⟩)⟩

/-- Everything a step can be. -/
theorem step_cases (s : State) : ∃ a r,
    (∃ u, step s = runUnit u { s with agenda := a, turn := r }) ∨
      (∃ i, step s = exec i { s with agenda := a, turn := r } ∧
        (i = .reset ∨ (∃ raw, i = .encStart raw) ∨ ∃ comp, i = .decStart comp)) ∨
      (∃ e, step s = .next (applyEvent e { s with agenda := a, turn := r })) := by
  obtain ⟨a, r, h⟩ := fetch_cases s
  refine ⟨a, r, ?_⟩
  rcases h with ⟨u, hs, hi⟩ | ⟨i, hs, hi, hc⟩ | ⟨e, hs, hi⟩
  · refine .inl ⟨u, ?_⟩
    have hu : fetchUnit u s = fetchUnit u { s with agenda := a, turn := r } := by
      cases u
      · rw [fetchUnit_enc, fetchUnit_enc]
      · rw [fetchUnit_dec, fetchUnit_dec]
    rw [step, hs, hi, hu, runUnit]
  · refine .inr (.inl ⟨i, ?_, hc⟩)
    rw [step, hs, hi]
  · refine .inr (.inr ⟨e, ?_⟩)
    rw [step, hs, hi]

/-- Turns add up. -/
theorem turns_add (u : Agent) (j k : Nat) (s : State) :
    turns u (j + k) s =
      match turns u j s with
      | .next t => turns u k t
      | .fault f => .fault f
      | .refused r => .refused r := by
  induction j generalizing s with
  | zero => simp [turns]
  | succ j ih =>
    rw [Nat.succ_add, turns, turns]
    cases h : runUnit u s with
    | next t => simp only [ih]
    | fault f => rfl
    | refused r => rfl

theorem turns_one (u : Agent) (s : State) : turns u 1 s = runUnit u s := by
  simp only [turns]
  cases runUnit u s <;> rfl

/-- A run of turns continues from where a shorter one ended. -/
theorem turns_then {u : Agent} {j k : Nat} {s t : State} (h : turns u j s = .next t) :
    turns u (j + k) s = turns u k t := by rw [turns_add, h]

end Sys2Proof.Machine
end

