-- ==== Sys2Proof/Machine/Signals.lean ====
section
/-! DEFINITION. The port signals of R69 as functions of the state: what the host presents, what each unit presents and
takes in the operation its phase selects, and what a port is once the items of that operation have been transferred. The
model sees the transfers of one operation as one event, so an operation that writes several items shows them as a list, in
the order of their transfers; a level is that of the first item not yet transferred (notes/assumptions/22.md). -/

namespace Sys2Proof.Machine

/-- One item of an output channel (R69): a bit or a byte, or the marker of `close()`. -/
inductive OutItem (α : Type) where
  | data (x : α)
  | close
deriving DecidableEq, Repr

/-- The data lines of an item; ignored with the close marker, which has none. -/
def OutItem.value {α : Type} : OutItem α → Option α
  | .data x => some x
  | .close => none

/-- The close line of an item. -/
def OutItem.isClose {α : Type} : OutItem α → Bool
  | .data _ => false
  | .close => true

/-! ## What the host presents -/

/-- `rin_eos`: with `rin_valid`, the item is the end-of-stream marker. -/
def Rin.eos (p : Rin) : Bool := p.data[p.pos]?.isNone

/-- `rin_data`: with `rin_valid` and not `rin_eos`, the byte `S[rpos]`; ignored, and so without a value, otherwise. -/
def Rin.item (p : Rin) : Option Byte := p.data[p.pos]?

/-- `cin_eos`: with `cin_valid`, the item is the end-of-stream marker. -/
def Cin.eos (p : Cin) : Bool := p.data[p.pos]?.isNone

/-- `cin_bit`: with `cin_valid` and not `cin_eos`, the bit `C[cpos]`. -/
def Cin.item (p : Cin) : Option Bool := p.data[p.pos]?

/-! ## Unit ENC -/

/-- The bits of the record ENC.WRHDR writes: of the node on top of the stack (R162). -/
def Enc.recordOnTop (e : Enc) : Bits :=
  match e.top with
  | none => []
  | some x =>
    match e.node[x.node]? with
    | none => []
    | some n =>
      match n.kind with
      | .leaf v => true :: bits 9 v.toNat
      | .internal _ _ => [false]

/-- The bits ENC.ENCODE writes: the code of the byte the host presents (R172); none at `EOS`, for a byte without a code
(R173), or while the host presents nothing (R243). -/
def State.codePresented (s : State) : Bits :=
  if s.rin.valid then
    match s.rin.item with
    | none => []
    | some r => if s.enc.codeValid[byteIndex r] then codeOf s.enc (byteIndex r) else []
  else []

/-- What ENC presents on `COUT` in the operation its phase selects, first transfer first (R64, R65, R69, R73). -/
def State.coutItems (s : State) : List (OutItem Bool) :=
  match s.enc.phase with
  | .idle => []
  | .count => []
  | .qinit => []
  | .merge => []
  | .gen => []
  | .wrmagic => (bits 32 s.cfg.magic.toNat).map .data
  | .wrhdr => s.enc.recordOnTop.map .data
  | .rewind => []
  | .encode => s.codePresented.map .data
  | .wreof => (codeOf s.enc eofIndex).map .data
  | .close => [.close]
  | .done => []
  | .fault => []
  | .reserved13 => []
  | .reserved14 => []
  | .reserved15 => []

/-- `cout_valid`: ENC presents an item. -/
def State.coutValid (s : State) : Bool := !s.coutItems.isEmpty

/-- `cout_bit`: the bit presented, if there is one. -/
def State.coutBit (s : State) : Option Bool := s.coutItems.head?.bind OutItem.value

/-- `cout_close`: with `cout_valid`, the item is `close()`. -/
def State.coutClose (s : State) : Bool := s.coutItems.head?.any OutItem.isClose

/-- ENC presents an item that the host does not take: the operation holds (R243). -/
def State.coutHeld (s : State) : Bool := s.coutValid && !s.cout.ready

/-- `rin_ready`: ENC takes the raw input's item. It does where its operation reads and is not held by the output: `COUNT`,
and `ENCODE` unless the output holds it (R69, R243). -/
def State.rinReady (s : State) : Bool :=
  match s.enc.phase with
  | .count => true
  | .encode => !s.coutHeld
  | .idle => false
  | .qinit => false
  | .merge => false
  | .gen => false
  | .wrmagic => false
  | .wrhdr => false
  | .rewind => false
  | .wreof => false
  | .close => false
  | .done => false
  | .fault => false
  | .reserved13 => false
  | .reserved14 => false
  | .reserved15 => false

/-- `rin_rewind`: in `REWIND` (R69, R170). -/
def State.rinRewind (s : State) : Bool := decide (s.enc.phase = .rewind)

/-! ## Unit DEC -/

/-- The symbol of a leaf that is not the pseudo-EOF leaf (R190). -/
def DNode.literal : DNode → Option Sym
  | .leaf v => if v = pseudoEof then none else some v
  | .internal _ _ => none

/-- The literal the walker arrives at on the bit `b`, if it arrives at one (R190). -/
def Dec.literalOn (b : Bool) (d : Dec) : Option Sym :=
  match d.dnode[d.cur]? with
  | none => none
  | some n =>
    match n.child b with
    | none => none
    | some c =>
      match d.dnode[c]? with
      | none => none
      | some m => m.literal

/-- The byte DEC.DECODE writes: of the literal that the bit the host presents leads to (R190, R67); none at `EOS`, with a
leaf root (R192), or while the host presents nothing (R243). -/
def State.bytePresented (s : State) : Option Byte :=
  if s.cin.valid ∧ s.dec.rootIsLeaf = some false then
    match s.cin.item with
    | none => none
    | some b => (s.dec.literalOn b).map lowByte
  else none

/-- What DEC presents on `SOUT` in the operation its phase selects (R67, R68, R69, R73). -/
def State.soutItems (s : State) : List (OutItem Byte) :=
  match s.dec.phase with
  | .idle => []
  | .rdmagic => []
  | .rdhdr => []
  | .decode => s.bytePresented.toList.map .data
  | .close => [.close]
  | .done => []
  | .fault => []
  | .reserved7 => []

/-- `sout_valid`: DEC presents an item. -/
def State.soutValid (s : State) : Bool := !s.soutItems.isEmpty

/-- `sout_data`: the byte presented, if there is one. -/
def State.soutData (s : State) : Option Byte := s.soutItems.head?.bind OutItem.value

/-- `sout_close`: with `sout_valid`, the item is `close()`. -/
def State.soutClose (s : State) : Bool := s.soutItems.head?.any OutItem.isClose

/-- DEC presents an item that the host does not take: the operation holds (R243). -/
def State.soutHeld (s : State) : Bool := s.soutValid && !s.sout.ready

/-- `cin_ready`: DEC takes the compressed input's item. It does where its operation reads and is not held by the output:
`RDMAGIC`, `RDHDR`, and `DECODE` unless the root is a leaf, which reads no bit (R192), or the output holds it (R69,
R243). -/
def State.cinReady (s : State) : Bool :=
  match s.dec.phase with
  | .rdmagic => true
  | .rdhdr => true
  | .decode => decide (s.dec.rootIsLeaf = some false) && !s.soutHeld
  | .idle => false
  | .close => false
  | .done => false
  | .fault => false
  | .reserved7 => false

/-- How many bits DEC's operation asks for: 32 of a magic, 1 of a node record, 1 and 9 of a leaf record, 1 of the body
(R66, R73). -/
def State.cinRequest (s : State) : Nat :=
  match s.dec.phase with
  | .rdmagic => 32
  | .rdhdr => if s.cin.item = some true then 10 else 1
  | .decode => 1
  | .idle => 0
  | .close => 0
  | .done => 0
  | .fault => 0
  | .reserved7 => 0

/-! ## A port after its transfers -/

/-- The raw input after the transfer of its item: past the byte, or still at the end (R61, R62). -/
def Rin.taken (p : Rin) : Rin := if p.eos then p else { p with pos := p.pos + 1 }

/-- The compressed input after up to `n` transfers: a stream that ends first is used up (R66). -/
def Cin.taken (n : Nat) (p : Cin) : Cin := { p with pos := min (p.pos + n) p.data.length }

/-- The compressed output after the transfer of one item (R64, R65). -/
def Cout.take (p : Cout) : OutItem Bool → Cout
  | .data b => { p with bits := p.bits ++ [b] }
  | .close => { p with closed := true }

/-- The raw output after the transfer of one item (R67, R68). -/
def Sout.take (p : Sout) : OutItem Byte → Sout
  | .data r => { p with bytes := p.bytes ++ [r] }
  | .close => { p with closed := true }

/-- `RIN` after a turn of ENC: restarted in `REWIND`; past one item where valid and ready are both 1 (R69). -/
def State.rinAfter (s : State) : Rin :=
  if s.rinRewind then s.rin.rewind else if s.rin.valid && s.rinReady then s.rin.taken else s.rin

/-- `COUT` after a turn of ENC: every item presented has been transferred if the host is ready, else none (R69, R243). -/
def State.coutAfter (s : State) : Cout :=
  if s.coutValid && s.cout.ready then s.coutItems.foldl Cout.take s.cout else s.cout

/-- `CIN` after a turn of DEC: past the bits its operation asks for, where valid and ready are both 1 (R69). -/
def State.cinAfter (s : State) : Cin := if s.cin.valid && s.cinReady then s.cin.taken s.cinRequest else s.cin

/-- `SOUT` after a turn of DEC: every item presented has been transferred if the host is ready, else none (R69, R243). -/
def State.soutAfter (s : State) : Sout :=
  if s.soutValid && s.sout.ready then s.soutItems.foldl Sout.take s.sout else s.sout

end Sys2Proof.Machine
end

