-- ==== Sys2Proof/Laws/Signals.lean ====
section
/-! SUPPORT. Laws of the port signals (R69): which phases drive them, that a waiting unit drives none (R124), that a turn
transfers on a channel exactly where valid and ready are both 1, and that the two bit channels are serial. -/

namespace Sys2Proof.Machine

/-! ## Which phases drive which signal -/

/-- A waiting ENC drives no port (R124). -/
theorem enc_waiting_drives_no_port {s : State} (h : s.enc.phase.waiting = true) :
    s.rinReady = false ∧ s.rinRewind = false ∧ s.coutValid = false ∧ s.coutBit = none ∧ s.coutClose = false := by
  cases hp : s.enc.phase <;> first
    | (simp [hp, EncPhase.waiting] at h; done)
    | simp [State.rinReady, State.rinRewind, State.coutValid, State.coutBit, State.coutClose, State.coutItems, hp]

/-- A waiting DEC drives no port (R124). -/
theorem dec_waiting_drives_no_port {s : State} (h : s.dec.phase.waiting = true) :
    s.cinReady = false ∧ s.soutValid = false ∧ s.soutData = none ∧ s.soutClose = false := by
  cases hp : s.dec.phase <;> first
    | (simp [hp, DecPhase.waiting] at h; done)
    | simp [State.cinReady, State.soutValid, State.soutData, State.soutClose, State.soutItems, hp]

/-- `rin_ready` is 1 only in `COUNT` and `ENCODE` (R69). -/
theorem rinReady_phase {s : State} (h : s.rinReady = true) : s.enc.phase = .count ∨ s.enc.phase = .encode := by
  cases hp : s.enc.phase <;> simp [State.rinReady, hp] at h ⊢

/-- `cin_ready` is 1 only in `RDMAGIC`, `RDHDR` and `DECODE`, and there only if the root is no leaf (R69, R192). -/
theorem cinReady_phase {s : State} (h : s.cinReady = true) :
    s.dec.phase = .rdmagic ∨ s.dec.phase = .rdhdr ∨ (s.dec.phase = .decode ∧ s.dec.rootIsLeaf = some false) := by
  cases hp : s.dec.phase <;> simp [State.cinReady, hp] at h ⊢
  exact h.1

/-- `cout_valid` is 1 only in the phases of R73 that write or close. -/
theorem coutValid_phase {s : State} (h : s.coutValid = true) :
    s.enc.phase ∈ [EncPhase.wrmagic, .wrhdr, .encode, .wreof, .close] := by
  cases hp : s.enc.phase <;> simp [State.coutValid, State.coutItems, hp] at h ⊢

/-- `sout_valid` is 1 only in `DECODE` and `CLOSE` (R73). -/
theorem soutValid_phase {s : State} (h : s.soutValid = true) : s.dec.phase = .decode ∨ s.dec.phase = .close := by
  cases hp : s.dec.phase <;> simp [State.soutValid, State.soutItems, hp] at h ⊢

/-! ## A port after its transfers -/

theorem coutTake_data (l : Bits) (p : Cout) :
    (l.map OutItem.data).foldl Cout.take p = { p with bits := p.bits ++ l } := by
  induction l generalizing p with
  | nil => simp
  | cons b l ih => simp [ih, Cout.take]

theorem Rin.taken_of_item {p : Rin} {r : Byte} (h : p.data[p.pos]? = some r) : p.taken = { p with pos := p.pos + 1 } := by
  simp [Rin.taken, Rin.eos, h]

theorem Rin.taken_of_eos {p : Rin} (h : p.data[p.pos]? = none) : p.taken = p := by
  simp only [Rin.taken, Rin.eos, h, Option.isNone_none, if_true]

theorem Cin.taken_of_room {p : Cin} {n : Nat} (h : n ≤ p.data.length - p.pos) (hn : 0 < n) :
    p.taken n = { p with pos := p.pos + n } := by
  simp only [Cin.taken, Nat.min_eq_left (show p.pos + n ≤ p.data.length by omega)]

theorem Cin.taken_of_short {p : Cin} {n : Nat} (h : p.data.length - p.pos < n) :
    p.taken n = { p with pos := p.data.length } := by
  simp only [Cin.taken, Nat.min_eq_right (show p.data.length ≤ p.pos + n by omega)]

/-! ## The bit channels are serial -/

/-- `COUT.write(n, v)` is `n` transfers, of `v[n-1]` down to `v[0]` (R69, R70). -/
theorem bits_getElem? (n v k : Nat) : (bits n v)[k]? = if k < n then some (v.testBit (n - 1 - k)) else none := by
  induction n generalizing k with
  | zero => simp
  | succ n ih =>
    cases k with
    | zero => simp [bits_succ]
    | succ k =>
      rw [bits_succ, List.getElem?_cons_succ, ih]
      simp only [Nat.add_lt_add_iff_right, Nat.add_sub_cancel, show n - 1 - k = n - (k + 1) by omega]

/-- `CIN.read(n)` is `n` transfers, the first bit received becoming bit `n-1` of the result (R66, R69). -/
theorem Cin.read_bit {p q : Cin} {n v k : Nat} (h : p.read n = .got v q) (hk : k < n) :
    p.data[p.pos + k]? = some (v.testBit (n - 1 - k)) := by
  rcases Cin.read_cases n p with ⟨-, e⟩ | ⟨-, -, e⟩ | ⟨-, hn, e⟩ <;> rw [e] at h <;> cases h
  have hlen : ((p.data.drop p.pos).take n).length = n := by simp; omega
  have hinv := bits_valueOf ((p.data.drop p.pos).take n)
  have hb := bits_getElem? n (valueOf ((p.data.drop p.pos).take n)) k
  rw [hlen] at hinv
  rw [hinv, if_pos hk, List.getElem?_take_of_lt hk, List.getElem?_drop] at hb
  exact hb

/-- A read of `n` bits answers `EOS` exactly if the marker stands before the `n`-th bit (R66, R69). -/
theorem Cin.read_eos_iff {p : Cin} {n : Nat} (hv : p.valid = true) :
    (∃ q, p.read n = .eos q) ↔ ∃ k < n, p.data[p.pos + k]? = none := by
  rcases Cin.read_cases n p with ⟨h, -⟩ | ⟨-, hn, e⟩ | ⟨-, hn, e⟩
  · rw [h] at hv; cases hv
  · exact ⟨fun _ => ⟨p.data.length - p.pos, hn, by simp; omega⟩, fun _ => ⟨_, e⟩⟩
  · refine ⟨fun ⟨q, hq⟩ => (by rw [e] at hq; cases hq), fun ⟨k, hk, hnone⟩ => ?_⟩
    rw [List.getElem?_eq_none_iff] at hnone
    omega

/-! ## Transfers -/

section
variable {s t : State}

/-- With the host ready, or nothing to write, `COUT` is longer by the bits presented. -/
theorem coutAfter_bits {l : Bits} (h : s.coutItems = l.map .data) (hl : l = [] ∨ s.cout.ready = true) :
    s.coutAfter = { s.cout with bits := s.cout.bits ++ l } := by
  rcases l with _ | ⟨b, l⟩
  · simp [State.coutAfter, State.coutValid, h]
  · have hr : s.cout.ready = true := by simpa using hl
    rw [State.coutAfter, State.coutValid, h, coutTake_data]
    simp [hr]

/-- With the host not ready, or nothing presented, `COUT` is as before. -/
theorem coutAfter_held (h : s.cout.ready = false ∨ s.coutItems = []) : s.coutAfter = s.cout := by
  rcases h with h | h <;> simp [State.coutAfter, State.coutValid, h]

theorem soutAfter_held (h : s.sout.ready = false ∨ s.soutItems = []) : s.soutAfter = s.sout := by
  rcases h with h | h <;> simp [State.soutAfter, State.soutValid, h]

/-- The output holds the operation exactly if its `COUT.write` waits. -/
theorem coutHeld_iff_wait {n v : Nat} (h : s.coutItems = (bits n v).map .data) :
    s.coutHeld = true ↔ s.cout.write n v = .wait := by
  refine ⟨fun hh => ?_, fun hw => ?_⟩
  · cases n with
    | zero => simp [State.coutHeld, State.coutValid, h] at hh
    | succ n => exact Cout.write_wait (Nat.succ_ne_zero n) (by simpa [State.coutHeld, State.coutValid, h, bits_succ] using hh)
  · obtain ⟨hn, hr⟩ := Cout.write_eq_wait hw
    cases n with
    | zero => exact absurd rfl hn
    | succ n => simp [State.coutHeld, State.coutValid, h, bits_succ, hr]

/-- A `COUT.write` of the bits presented that the host took leaves what the transfers leave, and holds nothing. -/
theorem coutAfter_write {n v : Nat} {q : Cout} (h : s.coutItems = (bits n v).map .data)
    (hw : s.cout.write n v = .sent q) : q = s.coutAfter ∧ s.coutHeld = false := by
  have hh : s.coutHeld = false := by
    rw [Bool.eq_false_iff, Ne, coutHeld_iff_wait h, hw]
    intro e
    cases e
  refine ⟨?_, hh⟩
  rw [coutAfter_bits h ?_, Cout.write_sent hw]
  cases hb : bits n v with
  | nil => exact .inl rfl
  | cons b l => exact .inr (by simpa [State.coutHeld, State.coutValid, h, hb] using hh)

theorem rinAfter_unread (h1 : s.enc.phase ≠ .rewind) (h2 : s.rin.valid = false ∨ s.rinReady = false) :
    s.rinAfter = s.rin := by
  rcases h2 with h2 | h2 <;> simp [State.rinAfter, State.rinRewind, h1, h2]

theorem rinAfter_read (h1 : s.enc.phase ≠ .rewind) (hv : s.rin.valid = true) (hr : s.rinReady = true) :
    s.rinAfter = s.rin.taken := by simp [State.rinAfter, State.rinRewind, h1, hv, hr]

theorem cinAfter_unread (h : s.cin.valid = false ∨ s.cinReady = false) : s.cinAfter = s.cin := by
  rcases h with h | h <;> simp [State.cinAfter, h]

theorem cinAfter_read (hv : s.cin.valid = true) (hr : s.cinReady = true) :
    s.cinAfter = s.cin.taken s.cinRequest := by simp [State.cinAfter, hv, hr]

/-- What ENC.ENCODE presents of the byte `r`. -/
theorem codePresented_of_code {r : Byte} (hv : s.rin.valid = true) (hr : s.rin.data[s.rin.pos]? = some r)
    (hc : s.enc.codeValid[byteIndex r] = true) : s.codePresented = codeOf s.enc (byteIndex r) := by
  simp [State.codePresented, Rin.item, hv, hr, hc]

theorem encEncode_transfers (hp : s.enc.phase = .encode) (h : execEncEncode s = .next t) :
    t.rin = s.rinAfter ∧ t.cout = s.coutAfter := by
  have hnr : s.enc.phase ≠ .rewind := by rw [hp]; decide
  have hi : s.coutItems = s.codePresented.map .data := by simp [State.coutItems, hp]
  have hrd : s.rinReady = !s.coutHeld := by simp [State.rinReady, hp]
  have none_presented : s.codePresented = [] → s.rinReady = true ∧ s.coutAfter = s.cout := by
    intro e
    rw [e] at hi
    exact ⟨by simp [hrd, State.coutHeld, State.coutValid, hi], coutAfter_held (s := s) (.inr hi)⟩
  unfold execEncEncode at h
  rcases Rin.read_cases s.rin with ⟨hv, e⟩ | ⟨hv, hr, e⟩ | ⟨r, hv, hr, e⟩ <;> rw [e] at h <;> simp only at h
  · cases h
    have := none_presented (by simp [State.codePresented, hv])
    exact ⟨(rinAfter_unread hnr (.inl hv)).symm, this.2.symm⟩
  · cases h
    have := none_presented (by simp [State.codePresented, Rin.item, hr])
    exact ⟨by rw [rinAfter_read hnr hv this.1, Rin.taken_of_eos hr], this.2.symm⟩
  · split at h
    · rename_i hc
      rw [codePresented_of_code hv hr hc] at hi
      split at h
      · rename_i hw
        cases h
        have hh := (coutHeld_iff_wait hi).mpr hw
        exact ⟨(rinAfter_unread hnr (.inr (by rw [hrd, hh]; rfl))).symm,
          (coutAfter_held (s := s) (.inl (Cout.write_eq_wait hw).2)).symm⟩
      · cases h
      · rename_i q hw
        cases h
        obtain ⟨hq, hh⟩ := coutAfter_write hi hw
        exact ⟨by rw [rinAfter_read hnr hv (by rw [hrd, hh]; rfl), Rin.taken_of_item hr], hq⟩
    · rename_i hc
      cases h
      have := none_presented (by simp [State.codePresented, Rin.item, hr, hc])
      exact ⟨by rw [rinAfter_read hnr hv this.1, Rin.taken_of_item hr], this.2.symm⟩

/-- A turn of ENC transfers on its two channels exactly where valid and ready are both 1 (R69). -/
theorem encTurn_transfers (h : runUnit .enc s = .next t) : t.rin = s.rinAfter ∧ t.cout = s.coutAfter := by
  have quiet : s.enc.phase ≠ .rewind → s.rinReady = false → s.coutItems = [] → s.rinAfter = s.rin ∧ s.coutAfter = s.cout :=
    fun h1 h2 h3 => ⟨rinAfter_unread h1 (.inr h2), coutAfter_held (s := s) (.inr h3)⟩
  have reserved : s.coutItems = [] → s.rinReady = false → s.enc.phase ≠ .rewind → fetchUnit .enc s = none →
      t.rin = s.rinAfter ∧ t.cout = s.coutAfter := by
    intro h3 h2 h1 hf
    rw [runUnit_none hf] at h
    cases h
    exact ⟨(quiet h1 h2 h3).1.symm, (quiet h1 h2 h3).2.symm⟩
  have hf := fetchUnit_enc s
  cases hp : s.enc.phase <;> rw [hp, encOperation] at hf
  case reserved13 => exact reserved (by simp [State.coutItems, hp]) (by simp [State.rinReady, hp]) (by simp [hp]) hf
  case reserved14 => exact reserved (by simp [State.coutItems, hp]) (by simp [State.rinReady, hp]) (by simp [hp]) hf
  case reserved15 => exact reserved (by simp [State.coutItems, hp]) (by simp [State.rinReady, hp]) (by simp [hp]) hf
  all_goals
    rw [runUnit_some hf] at h
    simp only [exec] at h
  case encode => exact encEncode_transfers hp h
  case count =>
    have hc : s.coutAfter = s.cout := coutAfter_held (s := s) (.inr (by simp [State.coutItems, hp]))
    have hrd : s.rinReady = true := by simp [State.rinReady, hp]
    unfold execEncCount at h
    rcases Rin.read_cases s.rin with ⟨hv, e⟩ | ⟨hv, hr, e⟩ | ⟨r, hv, hr, e⟩ <;> rw [e] at h <;> cases h
    · exact ⟨(rinAfter_unread (s := s) (by simp [hp]) (.inl hv)).symm, hc.symm⟩
    · exact ⟨by rw [rinAfter_read (by simp [hp]) hv hrd, Rin.taken_of_eos hr], hc.symm⟩
    · exact ⟨by rw [rinAfter_read (by simp [hp]) hv hrd, Rin.taken_of_item hr], hc.symm⟩
  case rewind =>
    cases h
    exact ⟨by simp [State.rinAfter, State.rinRewind, hp], (coutAfter_held (s := s) (.inr (by simp [State.coutItems, hp]))).symm⟩
  case wrhdr =>
    rw [rinAfter_unread (s := s) (by simp [hp]) (.inr (by simp [State.rinReady, hp]))]
    have hi : s.coutItems = s.enc.recordOnTop.map .data := by simp [State.coutItems, hp]
    unfold execEncWrhdr at h
    split at h
    · cases h
    · rename_i x e hpop
      obtain ⟨htop, rfl⟩ := Enc.pop_eq_some hpop
      split at h
      · cases h
      · rename_i n hn
        simp only at hn
        split at h
        · rename_i v hk
          have hi : s.coutItems = (encode (.hdrLeaf v)).map .data := by
            rw [hi, Enc.recordOnTop, htop]; simp only [hn, hk]; rfl
          split at h <;> cases h
          · rename_i hw
            exact ⟨rfl, (coutAfter_held (s := s) (.inl (writeLeafRecord_wait hw))).symm⟩
          · rename_i p hw
            refine ⟨rfl, ?_⟩
            rw [writeLeafRecord_sent hw, coutAfter_bits hi (.inr (writeLeafRecord_ready hw))]
        · rename_i l r hk
          have hi : s.coutItems = (bits 1 0).map .data := by
            rw [hi, Enc.recordOnTop, htop]; simp only [hn, hk]; rfl
          split at h
          · rename_i hw
            cases h
            exact ⟨rfl, (coutAfter_held (s := s) (.inl (Cout.write_eq_wait hw).2)).symm⟩
          · cases h
          · rename_i p hw
            split at h
            · cases h
            · cases h
              exact ⟨rfl, (coutAfter_write hi hw).1⟩
  case gen =>
    obtain ⟨h1, h2⟩ := quiet (by simp [hp]) (by simp [State.rinReady, hp]) (by simp [State.coutItems, hp])
    obtain ⟨x, n, -, -, -, ⟨v, hv, -, rfl⟩ | ⟨l, r, -, -, rfl⟩⟩ := execEncGen_next h <;> exact ⟨h1.symm, h2.symm⟩
  case merge =>
    obtain ⟨h1, h2⟩ := quiet (by simp [hp]) (by simp [State.rinReady, hp]) (by simp [State.coutItems, hp])
    rcases execEncMerge_next h with ⟨-, hn, h⟩ | ⟨-, h⟩
    · simp only [mergeTwo, hn, if_true] at h
      cases h
      exact ⟨h1.symm, h2.symm⟩
    · cases h
      exact ⟨h1.symm, h2.symm⟩
  case wrmagic =>
    rw [rinAfter_unread (s := s) (by simp [hp]) (.inr (by simp [State.rinReady, hp]))]
    unfold execEncWrmagic at h
    split at h <;> cases h
    · rename_i hw
      exact ⟨rfl, (coutAfter_held (s := s) (.inl (Cout.write_eq_wait hw).2)).symm⟩
    · rename_i hw
      exact ⟨rfl, (coutAfter_write (by simp [State.coutItems, hp]) hw).1⟩
  case wreof =>
    rw [rinAfter_unread (s := s) (by simp [hp]) (.inr (by simp [State.rinReady, hp]))]
    unfold execEncWreof at h
    split at h <;> cases h
    · rename_i hw
      exact ⟨rfl, (coutAfter_held (s := s) (.inl (Cout.write_eq_wait hw).2)).symm⟩
    · rename_i hw
      exact ⟨rfl, (coutAfter_write (by simp [State.coutItems, hp, codeOf]) hw).1⟩
  case close =>
    rw [rinAfter_unread (s := s) (by simp [hp]) (.inr (by simp [State.rinReady, hp]))]
    unfold execEncClose at h
    split at h <;> cases h
    · rename_i hw
      exact ⟨rfl, (coutAfter_held (s := s) (.inl (Cout.close_eq_wait hw))).symm⟩
    · rename_i hw
      obtain ⟨hr, rfl⟩ := Cout.close_eq hw
      exact ⟨rfl, by simp [State.coutAfter, State.coutValid, State.coutItems, hp, hr, Cout.take]⟩
  all_goals
    obtain ⟨h1, h2⟩ := quiet (by simp [hp]) (by simp [State.rinReady, hp]) (by simp [State.coutItems, hp])
    cases h
    exact ⟨h1.symm, h2.symm⟩

/-! ### Unit DEC -/

/-- The literal of a bit, read as DEC.DECODE reads it (R190). -/
theorem literalOn_of_leaf {b : Bool} {d : Dec} {n : DNode} {c : Nat} {v : Sym} (h1 : d.dnode[d.cur]? = some n)
    (h2 : n.child b = some c) (h3 : d.dnode[c]? = some (.leaf v)) :
    d.literalOn b = if v = pseudoEof then none else some v := by
  simp only [Dec.literalOn, h1, h2, h3, DNode.literal]

theorem literalOn_of_internal {b : Bool} {d : Dec} {n : DNode} {c : Nat} {l r : Option Nat} (h1 : d.dnode[d.cur]? = some n)
    (h2 : n.child b = some c) (h3 : d.dnode[c]? = some (.internal l r)) : d.literalOn b = none := by
  simp only [Dec.literalOn, h1, h2, h3, DNode.literal]

theorem takeMagic_ports {m : MagicWord} (h : takeMagic m s = .next t) : t.cin = s.cin ∧ t.sout = s.sout := by
  rcases takeMagic_next h with ⟨-, rfl⟩ | ⟨-, rfl⟩ <;> exact ⟨rfl, rfl⟩

theorem takeRecord_ports {r : Option Sym} (h : takeRecord r s = .next t) : t.cin = s.cin ∧ t.sout = s.sout := by
  rcases takeRecord_next h with ⟨-, rfl⟩ | ⟨-, d, -, rfl⟩ <;> exact ⟨rfl, rfl⟩

theorem decDecode_transfers (hp : s.dec.phase = .decode) (h : execDecDecode s = .next t) :
    t.cin = s.cinAfter ∧ t.sout = s.soutAfter := by
  have hi : s.soutItems = s.bytePresented.toList.map .data := by simp [State.soutItems, hp]
  have hq : s.cinRequest = 1 := by simp [State.cinRequest, hp]
  have quiet : s.bytePresented = none → s.soutHeld = false ∧ s.soutAfter = s.sout := by
    intro e
    rw [e] at hi
    exact ⟨by simp [State.soutHeld, State.soutValid, hi], soutAfter_held (s := s) (.inr (by simpa using hi))⟩
  unfold execDecDecode at h
  split at h
  · cases h
  · rename_i hl
    cases h
    have hn := quiet (by simp [State.bytePresented, hl])
    exact ⟨(cinAfter_unread (s := s) (.inr (by simp [State.cinReady, hp, hl]))).symm, hn.2.symm⟩
  · rename_i hl
    have hrd : s.cinReady = !s.soutHeld := by simp [State.cinReady, hp, hl]
    rcases Cin.read_cases 1 s.cin with ⟨hv, e⟩ | ⟨hv, hs, e⟩ | ⟨hv, hs, e⟩ <;> rw [e] at h <;> simp only at h
    · cases h
      have hn := quiet (by simp [State.bytePresented, hv])
      exact ⟨(cinAfter_unread (.inl hv)).symm, hn.2.symm⟩
    · cases h
      have hn := quiet (by simp [State.bytePresented, Cin.item, show s.cin.data.length ≤ s.cin.pos by omega])
      refine ⟨?_, hn.2.symm⟩
      rw [cinAfter_read hv (by rw [hrd, hn.1]; rfl), hq, Cin.taken_of_short hs]
    · have hget : s.cin.data[s.cin.pos]? = some s.cin.data[s.cin.pos] := List.getElem?_eq_getElem (by omega)
      have hb : decide (valueOf ((s.cin.data.drop s.cin.pos).take 1) = 1) = s.cin.data[s.cin.pos] := by
        rw [List.take_one, List.head?_drop, hget]
        cases s.cin.data[s.cin.pos] <;> rfl
      rw [hb] at h
      have hpres : s.bytePresented = (s.dec.literalOn s.cin.data[s.cin.pos]).map lowByte := by
        simp [State.bytePresented, Cin.item, hv, hl, hget]
      have moved : s.soutHeld = false → { s.cin with pos := s.cin.pos + 1 } = s.cinAfter := fun hh => by
        rw [cinAfter_read hv (by rw [hrd, hh]; rfl), hq, Cin.taken_of_room hs Nat.one_pos]
      unfold takeBit at h
      split at h
      · cases h
      · rename_i n hn
        split at h
        · cases h
        · rename_i c hc
          split at h
          · cases h
          · rename_i l r hm
            cases h
            have hq := quiet (by rw [hpres, literalOn_of_internal hn hc hm]; rfl)
            exact ⟨moved hq.1, hq.2.symm⟩
          · rename_i v hm
            have hlit := literalOn_of_leaf hn hc hm
            split at h
            · rename_i he
              cases h
              have hq := quiet (by rw [hpres, hlit, if_pos he]; rfl)
              exact ⟨moved hq.1, hq.2.symm⟩
            · rename_i he
              rw [hpres, hlit, if_neg he] at hi
              split at h
              · rename_i hw
                cases h
                have hr := Sout.write_eq_wait hw
                refine ⟨(cinAfter_unread (s := s) (.inr ?_)).symm, (soutAfter_held (s := s) (.inl hr)).symm⟩
                rw [hrd, State.soutHeld, State.soutValid, hi, show s.sout.ready = false from hr]
                rfl
              · cases h
              · rename_i p hw
                cases h
                obtain ⟨hr, rfl⟩ := Sout.write_eq hw
                have hr : s.sout.ready = true := hr
                refine ⟨moved (by simp [State.soutHeld, hr]), ?_⟩
                simp [State.soutAfter, State.soutValid, hi, hr, Sout.take]

/-- A turn of DEC transfers on its two channels exactly where valid and ready are both 1 (R69). -/
theorem decTurn_transfers (h : runUnit .dec s = .next t) : t.cin = s.cinAfter ∧ t.sout = s.soutAfter := by
  have hf := fetchUnit_dec s
  cases hp : s.dec.phase <;> rw [hp, decOperation] at hf
  case reserved7 =>
    rw [runUnit_none hf] at h
    cases h
    exact ⟨(cinAfter_unread (s := s) (.inr (by simp [State.cinReady, hp]))).symm,
      (soutAfter_held (s := s) (.inr (by simp [State.soutItems, hp]))).symm⟩
  all_goals
    rw [runUnit_some hf] at h
    simp only [exec] at h
  case decode => exact decDecode_transfers hp h
  case rdmagic =>
    rw [soutAfter_held (s := s) (.inr (by simp [State.soutItems, hp]))]
    have hrd : s.cinReady = true := by simp [State.cinReady, hp]
    have hq : s.cinRequest = 32 := by simp [State.cinRequest, hp]
    unfold execDecRdmagic at h
    rcases Cin.read_cases 32 s.cin with ⟨hv, e⟩ | ⟨hv, hs, e⟩ | ⟨hv, hs, e⟩ <;> rw [e] at h <;> simp only at h
    · cases h
      exact ⟨(cinAfter_unread (.inl hv)).symm, rfl⟩
    · cases h
      exact ⟨by rw [cinAfter_read hv hrd, hq, Cin.taken_of_short hs], rfl⟩
    · obtain ⟨h1, h2⟩ := takeMagic_ports h
      exact ⟨by rw [h1, cinAfter_read hv hrd, hq, Cin.taken_of_room hs (by decide)], h2⟩
  case rdhdr =>
    rw [soutAfter_held (s := s) (.inr (by simp [State.soutItems, hp]))]
    have hrd : s.cinReady = true := by simp [State.cinReady, hp]
    have hq : s.cinRequest = if s.cin.item = some true then 10 else 1 := by simp [State.cinRequest, hp]
    unfold execDecRdhdr at h
    rcases Cin.read_cases 1 s.cin with ⟨hv, e⟩ | ⟨hv, hs, e⟩ | ⟨hv, hs, e⟩ <;> rw [e] at h <;> simp only at h
    · cases h
      exact ⟨(cinAfter_unread (.inl hv)).symm, rfl⟩
    · cases h
      have hno : s.cin.item ≠ some true := by simp [Cin.item, show s.cin.data.length ≤ s.cin.pos by omega]
      exact ⟨by rw [cinAfter_read hv hrd, hq, if_neg hno, Cin.taken_of_short hs], rfl⟩
    · have hget : s.cin.data[s.cin.pos]? = some s.cin.data[s.cin.pos] := List.getElem?_eq_getElem (by omega)
      have hb : valueOf ((s.cin.data.drop s.cin.pos).take 1) = s.cin.data[s.cin.pos].toNat := by
        rw [List.take_one, List.head?_drop, hget]
        exact valueOf_singleton _
      rw [hb] at h
      have hitem : s.cin.item = some s.cin.data[s.cin.pos] := hget
      cases hbit : s.cin.data[s.cin.pos] with
      | false =>
        rw [hbit] at h hitem
        simp only [Bool.toNat_false, zero_ne_one, if_false] at h
        obtain ⟨h1, h2⟩ := takeRecord_ports h
        exact ⟨by rw [h1, cinAfter_read hv hrd, hq, hitem, if_neg (by decide), Cin.taken_of_room hs (by decide)], h2⟩
      | true =>
        rw [hbit] at h hitem
        simp only [Bool.toNat_true, if_true] at h
        rw [hitem, if_pos rfl] at hq
        rcases Cin.read_cases 9 { s.cin with pos := s.cin.pos + 1 } with ⟨hv', e⟩ | ⟨-, hs9, e⟩ | ⟨-, hs9, e⟩ <;>
          rw [e] at h <;> simp only at h
        · rw [show s.cin.valid = false from hv'] at hv; cases hv
        · cases h
          simp only at hs9
          exact ⟨by rw [cinAfter_read hv hrd, hq, Cin.taken_of_short (by omega)], rfl⟩
        · simp only at hs9
          obtain ⟨h1, h2⟩ := takeRecord_ports h
          exact ⟨by rw [h1, cinAfter_read hv hrd, hq, Cin.taken_of_room (by omega) (by decide)], h2⟩
  case close =>
    rw [cinAfter_unread (s := s) (.inr (by simp [State.cinReady, hp]))]
    unfold execDecClose at h
    split at h <;> cases h
    · rename_i hw
      exact ⟨rfl, (soutAfter_held (s := s) (.inl (Sout.close_eq_wait hw))).symm⟩
    · rename_i hw
      obtain ⟨hr, rfl⟩ := Sout.close_eq hw
      exact ⟨rfl, by simp [State.soutAfter, State.soutValid, State.soutItems, hp, hr, Sout.take]⟩
  all_goals
    cases h
    exact ⟨(cinAfter_unread (s := s) (.inr (by simp [State.cinReady, hp]))).symm,
      (soutAfter_held (s := s) (.inr (by simp [State.soutItems, hp]))).symm⟩

end

end Sys2Proof.Machine
end

