-- ==== Sys2Proof/Tests/Slice0.lean ====
section
/-! SUPPORT. Tests: ill-formed terms refused; words written out from the spec's encodings decoded; one-step tests whose
expected results are the vectors of 95_test_vectors.md; a witness for the hypotheses of every obligation that has some. -/

namespace Sys2Proof.Tests

open Sys2Proof Sys2Proof.Machine

/-! ## Well-formedness: what each check refuses -/

theorem test_wf_code_empty : (Instr.bodyCode []).wellFormed = false := by decide
theorem test_wf_code_257 : (Instr.bodyCode (List.replicate 257 true)).wellFormed = false := by decide +kernel
theorem test_wf_code_256 : (Instr.bodyCode (List.replicate 256 true)).wellFormed = true := by decide +kernel
theorem test_wf_eof_257 : (Instr.bodyEof (List.replicate 257 false)).wellFormed = false := by decide +kernel
theorem test_wf_eof_empty : (Instr.bodyEof []).wellFormed = true := by decide
theorem test_wf_pad_8 : (Instr.pad 8).wellFormed = false := by decide
theorem test_wf_pad_7 : (Instr.pad 7).wellFormed = true := by decide

/-! ## Decoding: words written out from 30_encoding.md (rst, enc_start, dec_start; phase codes; the stream formats) -/

theorem test_decode_reset : decode (.strobes [] []) [true, false, false] = .ok (.reset, []) := by rfl
theorem test_decode_reset_wins : decode (.strobes [] []) [true, true, true] = .ok (.reset, []) := by rfl
theorem test_decode_encStart : decode (.strobes [0x61#8] []) [false, true, false] = .ok (.encStart [0x61#8], []) := by rfl
theorem test_decode_decStart : decode (.strobes [] [true]) [false, false, true] = .ok (.decStart [true], []) := by rfl
theorem test_decode_no_strobe : decode (.strobes [] []) [false, false, false] = .error .noCommand := by rfl
theorem test_decode_encWaitIdle : decode .encPhase [false, false, false, false] = .ok (.encWaitIdle, []) := by rfl
theorem test_decode_encCount : decode .encPhase [false, false, false, true] = .ok (.encCount, []) := by rfl
theorem test_decode_encQinit : decode .encPhase [false, false, true, false] = .ok (.encQinit, []) := by rfl
theorem test_decode_encMerge : decode .encPhase [false, false, true, true] = .ok (.encMerge, []) := by rfl
theorem test_decode_encGen : decode .encPhase [false, true, false, false] = .ok (.encGen, []) := by rfl
theorem test_decode_encWrmagic : decode .encPhase [false, true, false, true] = .ok (.encWrmagic, []) := by rfl
theorem test_decode_encWrhdr : decode .encPhase [false, true, true, false] = .ok (.encWrhdr, []) := by rfl
theorem test_decode_encRewind : decode .encPhase [false, true, true, true] = .ok (.encRewind, []) := by rfl
theorem test_decode_encEncode : decode .encPhase [true, false, false, false] = .ok (.encEncode, []) := by rfl
theorem test_decode_encWreof : decode .encPhase [true, false, false, true] = .ok (.encWreof, []) := by rfl
theorem test_decode_encClose : decode .encPhase [true, false, true, false] = .ok (.encClose, []) := by rfl
theorem test_decode_encWaitDone : decode .encPhase [true, false, true, true] = .ok (.encWaitDone, []) := by rfl
theorem test_decode_encWaitFault : decode .encPhase [true, true, false, false] = .ok (.encWaitFault, []) := by rfl
theorem test_decode_enc_reserved : decode .encPhase [true, true, false, true] = .error (.reservedEncPhase 13) := by rfl
theorem test_decode_decWaitIdle : decode .decPhase [false, false, false] = .ok (.decWaitIdle, []) := by rfl
theorem test_decode_decRdmagic : decode .decPhase [false, false, true] = .ok (.decRdmagic, []) := by rfl
theorem test_decode_decRdhdr : decode .decPhase [false, true, false] = .ok (.decRdhdr, []) := by rfl
theorem test_decode_decDecode : decode .decPhase [false, true, true] = .ok (.decDecode, []) := by rfl
theorem test_decode_decClose : decode .decPhase [true, false, false] = .ok (.decClose, []) := by rfl
theorem test_decode_decWaitDone : decode .decPhase [true, false, true] = .ok (.decWaitDone, []) := by rfl
theorem test_decode_decWaitFault : decode .decPhase [true, true, false] = .ok (.decWaitFault, []) := by rfl
theorem test_decode_dec_reserved : decode .decPhase [true, true, true] = .error (.reservedDecPhase 7) := by rfl

/-- The magic of section 2.5: `1111 1010 1100 1110 1000 0010 0000 0001`. -/
def magicBits : Bits :=
  [true, true, true, true, true, false, true, false, true, true, false, false, true, true, true, false] ++
    [true, false, false, false, false, false, true, false, false, false, false, false, false, false, false, true]

/-- HDR.LEAF(97) of V44.2: `1 001100001`. -/
def leaf97 : Bits := [true, false, false, true, true, false, false, false, false, true]

/-- HDR.LEAF(98) of V44.3: `1 001100010`. -/
def leaf98 : Bits := [true, false, false, true, true, false, false, false, true, false]

/-- HDR.LEAF(256) of V44.1: `1 100000000`. -/
def leaf256 : Bits := [true, true, false, false, false, false, false, false, false, false]

/-- The tree of V43.3: 97 = `0`, 98 = `10`, 256 = `11`. -/
def treeAab : HTree := .node (.leaf 97#9) (.node (.leaf 98#9) (.leaf 256#9))

theorem test_decode_magic : decode .magicWord magicBits = .ok (.magic 0xFACE8201#32, []) := by rfl
theorem test_decode_hdrNode : decode .header (false :: leaf97) = .ok (.hdrNode, leaf97) := by rfl
theorem test_decode_hdrLeaf : decode .header leaf97 = .ok (.hdrLeaf 97#9, []) := by rfl
theorem test_decode_hdrLeaf_256 : decode .header leaf256 = .ok (.hdrLeaf 256#9, []) := by rfl
theorem test_decode_hdr_truncated : decode .header (leaf97.take 9) = .error .truncated := by rfl
theorem test_decode_bodyCode : decode (.body treeAab) [true, false, true, true] = .ok (.bodyCode [true, false], [true, true]) := by rfl
theorem test_decode_bodyEof : decode (.body treeAab) [true, true, false] = .ok (.bodyEof [true, true], [false]) := by rfl
theorem test_decode_bodyEof_lone : decode (.body (.leaf 65#9)) [true] = .ok (.bodyEof [], [true]) := by rfl
theorem test_decode_body_truncated : decode (.body treeAab) [true] = .error .truncated := by rfl
theorem test_decode_pad : decode (.padding 42) (List.replicate 6 false) = .ok (.pad 6, []) := by rfl
theorem test_ser_aab : treeAab.ser = false :: leaf97 ++ false :: leaf98 ++ leaf256 := by decide

/-! ## Small states -/

/-- A machine with `DEC_NODE_CAP` = 5, right after reset. -/
def base : State := State.resetWith { decNodeCap := 5 }

/-- The next state of a result, if it is one. -/
def out (r : Result) : Option State :=
  match r with
  | .next t => some t
  | .fault _ => none
  | .refused _ => none

/-- `base` with ENC changed. -/
def onEnc (f : Enc → Enc) : State := { base with enc := f base.enc }

/-- `base` with DEC changed and this compressed input. -/
def onDec (f : Dec → Dec) (comp : Bits) : State :=
  { base with dec := f base.dec, cin := { data := comp, pos := 0, valid := true } }

/-- The raw input about to deliver these bytes. -/
def feed (raw : List Byte) (s : State) : State := { s with rin := { data := raw, replay := raw, pos := 0, valid := true } }

/-- A node of weight `w`. -/
def mk (w : Nat) (k : NodeKind) : Node := { weight := w, kind := k }

/-- The node store of V42.3. -/
def nodesAab : Vector Node encNodeCap :=
  ((((Vector.replicate encNodeCap Node.zero).set 0 (mk 2 (.leaf 97#9))).set 1 (mk 1 (.leaf 98#9))).set 2
    (mk 1 (.leaf 256#9))).set 3 (mk 2 (.internal 1 2)) |>.set 4 (mk 4 (.internal 0 3))

/-- The queue with exactly these members. -/
def queueSet (l : List Nat) : Vector Bool encNodeCap :=
  l.foldl (fun v i => v.setIfInBounds i true) (Vector.replicate encNodeCap false)

/-- The counts of V41.3. -/
def cntAab : Vector Nat nsym := (((Vector.replicate nsym 0).set 97 2).set 98 1).set 256 1

/-- V42.3 with `inq`, `nn`, `qsize` as after QINIT or a merge. -/
def merging (l : List Nat) (nn : Nat) : State :=
  onEnc fun e => { e with node := nodesAab, inq := queueSet l, nn := nn, qsize := l.length, phase := .merge }

/-- V43.3: the walk with this stack. -/
def walking (ph : EncPhase) (l : List StkEntry) : State :=
  onEnc fun e => { e with
    node := nodesAab, root := 4, phase := ph, sp := l.length
    stk := (l.zipIdx).foldl (fun v p => v.setIfInBounds p.2 p.1) e.stk }

/-- A walk whose stack has `sp` entries, node `i` on top. -/
def walkingAt (ph : EncPhase) (sp i : Nat) : State :=
  onEnc fun e => { e with
    node := nodesAab, phase := ph, sp := sp, stk := e.stk.setIfInBounds (sp - 1) { node := i, len := 0, bits := 0#256 } }

/-- The code table of V43.3, in this phase. -/
def coded (ph : EncPhase) : State :=
  onEnc fun e => { e with
    phase := ph
    codeValid := ((e.codeValid.set 97 true).set 98 true).set 256 true
    codeLen := ((e.codeLen.set 97 1).set 98 2).set 256 2
    codeBits := ((e.codeBits.set 97 0#256).set 98 2#256).set 256 3#256 }

/-- The store of V46.3. -/
def dnodesAab : List DNode :=
  [.internal (some 1) (some 2), .leaf 97#9, .internal (some 3) (some 4), .leaf 98#9, .leaf 256#9]

/-- V47.3, the walker at `cur`. -/
def decoding (cur : Nat) (comp : Bits) : State :=
  onDec (fun d => { d with phase := .decode, dnode := dnodesAab, dn := 5, droot := 0, cur := cur }) comp

/-- V46.3 after `k` records, with the stack given there. -/
def reading (k : Nat) (l : List DStkEntry) (comp : Bits) : State :=
  onDec (fun d => { d with
    phase := .rdhdr, dn := k, dsp := l.length, dstk := l ++ d.dstk.drop l.length
    dnode := ([.internal (if 1 < k then some 1 else none) (if 2 < k then some 2 else none), .leaf 97#9,
      .internal (if 3 < k then some 3 else none) none, .leaf 98#9].take k) ++ d.dnode.drop k }) comp

/-! ## Host commands (section 2.1) -/

/-- V40.1, V40.9. -/
theorem test_reset_status :
    (out (exec .reset (coded .encode))).map (fun t => (t.enc.status, t.dec.status, t.cout)) =
      some (0#10, 0#9, base.cout) := by rfl
/-- V40.2. -/
theorem test_encStart : (out (exec (.encStart [0x61#8]) base)).map (fun t => (t.enc.status, t.rin.data)) =
    some (0x081#10, [0x61#8]) := by decide
/-- V40.3. -/
theorem test_encStart_ignored : (out (exec (.encStart []) (coded .encode))).map (fun t => t.enc.phase) =
    some .encode := by decide
/-- V40.6. -/
theorem test_decStart : (out (exec (.decStart [true]) base)).map (fun t => (t.dec.status, t.cin.data)) =
    some (0x041#9, [true]) := by decide
/-- V40.8. -/
theorem test_decStart_fault :
    (out (exec (.decStart []) (onDec (fun d => { d with phase := .fault, err := .decodeTermination }) []))).map
      (fun t => (t.dec.err, t.dec.phase)) = some (.none, .rdmagic) := by decide
/-- V40.5. -/
theorem test_encWaitDone : (out (exec .encWaitDone (onEnc fun e => { e with phase := .done }))).map
    (fun t => t.enc.status) = some 0x10b#10 := by decide
/-- V40.4's starting state. -/
theorem test_encWaitFault : (out (exec .encWaitFault (onEnc fun e => { e with phase := .fault, err := .encNoCode }))).map
    (fun t => t.enc.status) = some 0x25c#10 := by decide
theorem test_encWaitIdle : (out (exec .encWaitIdle base)).map (fun t => t.enc.status) = some 0#10 := by decide
/-- STATUS words of section 2.1. -/
theorem test_decWaitDone : (out (exec .decWaitDone (onDec (fun d => { d with phase := .done }) []))).map
    (fun t => t.dec.status) = some 0x085#9 := by decide
theorem test_decWaitFault :
    (out (exec .decWaitFault (onDec (fun d => { d with phase := .fault, err := .headerCapacity }) []))).map
      (fun t => t.dec.status) = some 0x126#9 := by decide
theorem test_decWaitIdle : (out (exec .decWaitIdle base)).map (fun t => t.dec.status) = some 0#9 := by decide

/-! ## ENC (sections 2.2 to 2.6) -/

/-- R131: `sat_inc(0xFFFFFFFE) = 0xFFFFFFFF`, then it sticks. -/
theorem test_count_saturates :
    (satInc 32 0xFFFFFFFE, satInc 32 0xFFFFFFFF, satInc 1 0, satInc 1 1) = (0xFFFFFFFF, 0xFFFFFFFF, 1, 1) := by decide
/-- V41.1. -/
theorem test_count_eos : (out (exec .encCount (onEnc fun e => { e with phase := .count }))).map
    (fun t => (t.enc.cnt[256], t.enc.phase)) = some (1, .qinit) := by decide +kernel
/-- V41.5: byte `FF`. -/
theorem test_count_byte : (out (exec .encCount (feed [0xFF#8] base))).map
    (fun t => (t.enc.cnt[255], t.enc.cnt[256], t.rin.pos)) = some (1, 0, 1) := by decide +kernel
/-- V42.3's leaves. -/
theorem test_qinit : (out (exec .encQinit (onEnc fun e => { e with cnt := cntAab, phase := .qinit }))).map
    (fun t => (t.enc.nn, t.enc.node[0], t.enc.node[1], t.enc.node[2])) =
      some (3, mk 2 (.leaf 97#9), mk 1 (.leaf 98#9), mk 1 (.leaf 256#9)) := by decide +kernel
/-- V42.3's second merge: a tie on weight 2, the older node is the left child. -/
theorem test_merge_tie : (out (exec .encMerge (merging [0, 3] 4))).map
    (fun t => (t.enc.node[4], t.enc.nn, t.enc.qsize, t.enc.inq[0], t.enc.inq[3], t.enc.inq[4])) =
      some (mk 4 (.internal 0 3), 5, 1, false, false, true) := by decide +kernel
/-- V42.3's root. -/
theorem test_merge_root : (out (exec .encMerge (merging [4] 5))).map
    (fun t => (t.enc.root, t.enc.phase, t.enc.sp, t.enc.stk[0])) =
      some (4, .gen, 1, { node := 4, len := 0, bits := 0#256 }) := by decide +kernel
/-- V43.3: pop 3 (internal) gives `[(2,2,3), (1,2,2)]`. -/
theorem test_gen_internal : (out (exec .encGen (walking .gen [{ node := 3, len := 1, bits := 1#256 }]))).map
    (fun t => (t.enc.sp, t.enc.stk[0], t.enc.stk[1], t.enc.phase)) =
      some (2, { node := 2, len := 2, bits := 3#256 }, { node := 1, len := 2, bits := 2#256 }, .gen) := by decide +kernel
/-- V43.3: pop 2 (leaf 256) records `(2, 3)` and ends the walk. -/
theorem test_gen_leaf : (out (exec .encGen (walking .gen [{ node := 2, len := 2, bits := 3#256 }]))).map
    (fun t => (t.enc.codeLen[256], t.enc.codeBits[256], t.enc.codeValid[256], t.enc.phase)) =
      some (2, 3#256, true, .wrmagic) := by decide +kernel
/-- Section 2.5: the magic's bits. -/
theorem test_wrmagic : (out (exec .encWrmagic (walking .wrmagic []))).map
    (fun t => (t.cout.bits, t.enc.stk[0].node, t.enc.sp, t.enc.phase)) = some (magicBits, 4, 1, .wrhdr) := by decide +kernel
/-- V44.3: node 4 is written as `0`; its right child lies below its left. -/
theorem test_wrhdr_node : (out (exec .encWrhdr (walking .wrhdr [{ node := 4, len := 0, bits := 0#256 }]))).map
    (fun t => (t.cout.bits, t.enc.stk[0].node, t.enc.stk[1].node, t.enc.sp)) = some ([false], 3, 0, 2) := by decide +kernel
/-- V44.3: the last record. -/
theorem test_wrhdr_leaf : (out (exec .encWrhdr (walking .wrhdr [{ node := 2, len := 0, bits := 0#256 }]))).map
    (fun t => (t.cout.bits, t.enc.phase)) = some (leaf256, .rewind) := by decide +kernel
/-- V20.4. -/
theorem test_rewind :
    (out (exec .encRewind { base with rin := { data := [1#8, 2#8], replay := [1#8, 2#8], pos := 2, valid := true } })).map
      (fun t => (t.rin.pos, t.enc.phase)) = some (0, .encode) := by decide
/-- Section 2.6: read `0x62` appends `1 0`. -/
theorem test_encode : (out (exec .encEncode (feed [0x62#8] (coded .encode)))).map
    (fun t => (t.cout.bits, t.enc.phase)) = some ([true, false], .encode) := by decide +kernel
/-- V45.10: `0x63` has no code. -/
theorem test_encode_no_code : (out (exec .encEncode (feed [0x63#8] (coded .encode)))).map
    (fun t => (t.cout.bits, t.rin.pos, t.enc.err, t.enc.phase)) = some ([], 1, .encNoCode, .close) := by decide +kernel
/-- Section 2.6: ENC.WREOF appends `1 1`. -/
theorem test_wreof : (out (exec .encWreof (coded .wreof))).map (fun t => (t.cout.bits, t.enc.phase)) =
    some ([true, true], .close) := by decide +kernel
/-- Section 2.6: ENC.CLOSE with `err = 0` and with `err = 5`. -/
theorem test_encClose : (out (exec .encClose (coded .close))).map (fun t => (t.cout.closed, t.enc.phase)) =
    some (true, .done) := by decide
theorem test_encClose_fault : (out (exec .encClose (onEnc fun e => { e with phase := .close, err := .encNoCode }))).map
    (fun t => (t.cout.closed, t.enc.status)) = some (true, 0x25c#10) := by decide

/-! ## DEC (sections 2.7 to 2.9) -/

/-- Section 2.7. -/
theorem test_rdmagic : (out (exec .decRdmagic (onDec (fun d => { d with phase := .rdmagic }) magicBits))).map
    (fun t => (t.dec.phase, t.cin.pos)) = some (.rdhdr, 32) := by decide +kernel
/-- V60.6. -/
theorem test_rdmagic_short :
    (out (exec .decRdmagic (onDec (fun d => { d with phase := .rdmagic }) (magicBits.take 31)))).map
      (fun t => (t.dec.phase, t.dec.err, t.cin.pos)) = some (.close, .formatError, 31) := by decide +kernel
/-- V46.3, record 5: leaf 256 right of 2; the walker goes to the root. -/
theorem test_rdhdr_last : (out (exec .decRdhdr (reading 4 [{ node := 2, side := true }] leaf256))).map
    (fun t => (t.dec.dnode, t.dec.dn, t.dec.dsp, t.dec.cur, t.dec.phase, t.cin.pos)) =
      some (dnodesAab, 5, 0, 0, .decode, 10) := by decide +kernel
/-- V60.27: capacity 3, the 4th record. -/
theorem test_rdhdr_capacity :
    (out (exec .decRdhdr { reading 3 [{ node := 2, side := false }] leaf98 with cfg := { decNodeCap := 3 } })).map
      (fun t => (t.dec.err, t.dec.phase, t.dec.dn, t.cin.pos)) = some (.headerCapacity, .close, 3, 10) := by decide +kernel
/-- V47.3: read `0` at node 2: leaf 98, write `0x62`, `cur = 0`. -/
theorem test_decode_write : (out (exec .decDecode (decoding 2 [false]))).map
    (fun t => (t.sout.bytes, t.dec.cur, t.dec.phase)) = some ([0x62#8], 0, .decode) := by decide +kernel
/-- V47.9: a leaf root reads no bit. -/
theorem test_decode_lone :
    (out (exec .decDecode (onDec (fun d => { d with phase := .decode, dnode := [.leaf 65#9], dn := 1 }) [true]))).map
      (fun t => (t.dec.phase, t.dec.err, t.cin.pos, t.sout.bytes)) = some (.close, .none, 0, []) := by decide +kernel
theorem test_decClose : (out (exec .decClose (onDec (fun d => { d with phase := .close }) []))).map
    (fun t => (t.sout.closed, t.dec.status)) = some (true, 0x085#9) := by decide
/-- V60.1. -/
theorem test_decClose_fault :
    (out (exec .decClose (onDec (fun d => { d with phase := .close, err := .formatError }) []))).map
      (fun t => (t.sout.closed, t.dec.status)) = some (true, 0x10e#9) := by decide

/-! ## Stream items -/

/-- V60.26: the sides must agree on the magic. -/
theorem test_magic_differs : (out (exec (.magic 0x12345678#32) (onDec (fun d => { d with phase := .rdmagic }) []))).map
    (fun t => (t.dec.err, t.dec.phase)) = some (.formatError, .close) := by decide
/-- V46.3, record 3: hangs right of 0, pops it, pushes itself. -/
theorem test_hdrNode : (out (exec .hdrNode (reading 2 [{ node := 0, side := true }] []))).map
    (fun t => (t.dec.dnode[0]?, t.dec.dn, t.dec.dsp, t.dec.dstk[0]?)) =
      some (some (.internal (some 1) (some 2)), 3, 1, some { node := 2, side := false }) := by decide +kernel
/-- V46.3, record 2: leaf 97 left of 0. -/
theorem test_hdrLeaf : (out (exec (.hdrLeaf 97#9) (reading 1 [{ node := 0, side := false }] []))).map
    (fun t => (t.dec.dnode[0]?, t.dec.dnode[1]?, t.dec.dstk[0]?)) =
      some (some (.internal (some 1) none), some (.leaf 97#9), some { node := 0, side := true }) := by decide +kernel
/-- V47.3: `1 0` writes `0x62`. -/
theorem test_bodyCode : (out (exec (.bodyCode [true, false]) (decoding 0 [true, false]))).map
    (fun t => (t.sout.bytes, t.dec.cur, t.cin.pos)) = some ([0x62#8], 0, 2) := by decide +kernel
/-- V47.3: `1 1` ends the body; `cur` stays 4. -/
theorem test_bodyEof : (out (exec (.bodyEof [true, true]) (decoding 0 [true, true]))).map
    (fun t => (t.sout.bytes, t.dec.cur, t.dec.phase)) = some ([], 4, .close) := by decide +kernel
theorem test_pad : (out (exec (.pad 6) (decoding 0 []))).map (fun t => t.cin.pos) = some 0 := by decide

/-! ## Ports and packing (section 2.0) -/

/-- V20.5, V20.6. -/
theorem test_bits_fields : bits 9 256 = leaf256.tail ∧ bits 2 0b110 = [true, false] := by decide
/-- V20.14. -/
theorem test_lowByte : lowByte 321#9 = 0x41#8 := by decide
/-- V20.15: 42 bits pack into `fa ce 82 01 c0 00`. -/
theorem test_pack : pack (magicBits ++ leaf256) = [0xFA#8, 0xCE#8, 0x82#8, 0x01#8, 0xC0#8, 0x00#8] := by decide +kernel
/-- V20.17. -/
theorem test_unpack : unpack [0x4C#8, 0x38#8] = false :: leaf97 ++ [true, true, false, false, false] := by decide +kernel

/-! ## The port signals (the table of R69) -/

/-- ENC.WRHDR of the leaf 256 presents the ten bits of V44.1; the close marker is presented in `CLOSE` alone. -/
theorem test_signals_wrhdr : let s := walking .wrhdr [{ node := 2, len := 0, bits := 0#256 }]
    s.coutItems = leaf256.map .data ∧ s.coutValid = true ∧ s.coutBit = some true ∧ s.coutClose = false := by decide +kernel
theorem test_signals_close : let s := coded .close
    s.coutValid = true ∧ s.coutBit = none ∧ s.coutClose = true ∧ s.rinReady = false := by decide +kernel
/-- A byte with a code: taken if the host takes the bits, held otherwise (R243). -/
theorem test_signals_encode : let s := feed [0x62#8] (coded .encode)
    s.coutItems = [.data true, .data false] ∧ s.rinReady = true ∧
      { s with cout := { s.cout with ready := false } }.rinReady = false := by decide +kernel
/-- `EOS` and a byte without a code need no output, and are taken whatever the host's line. -/
theorem test_signals_encode_silent : let s := { coded .encode with cout := { base.cout with ready := false } }
    s.rin.eos = true ∧ s.rinReady = true ∧ s.coutValid = false ∧ (feed [0x63#8] s).rinReady = true := by decide +kernel
/-- A leaf root takes no item (R192); a bit onto a literal is taken only with its byte. -/
theorem test_signals_decode_lone :
    (onDec (fun d => { d with phase := .decode, dnode := [.leaf 65#9], dn := 1 }) [true]).cinReady = false := by decide
theorem test_signals_decode : let s := decoding 2 [false]
    s.cinReady = true ∧ s.soutValid = true ∧ s.soutData = some 0x62#8 ∧ s.soutClose = false ∧
      { s with sout := { s.sout with ready := false } }.cinReady = false := by decide
/-- The pseudo-EOF leaf and an internal node write nothing. -/
theorem test_signals_decode_silent : (decoding 2 [true]).soutValid = false ∧ (decoding 0 [true]).soutValid = false ∧
    (decoding 0 []).cin.eos = true ∧ (decoding 0 []).cinReady = true := by decide
/-- In the waiting phases no port is driven (R124). -/
theorem test_signals_waiting : base.rinReady = false ∧ base.coutValid = false ∧ base.cinReady = false ∧
    base.soutValid = false ∧ (coded .fault).coutValid = false ∧
    (onDec (fun d => { d with phase := .done }) [true]).cinReady = false := by decide

/-! ## The first step after reset -/

/-- A table word placed where the next step finds it is what the step runs. -/
theorem test_first_step_count : (out (step (State.reset.withFetchWord 4 1))).map (fun t => t.enc.phase) =
    some .qinit := by decide +kernel
theorem test_first_step_hdrLeaf : (out (step (State.reset.withFetchWord 10 0b1001100001))).map
    (fun t => (t.dec.dnode[0]?, t.dec.phase)) = some (some (.leaf 97#9), .decode) := by decide +kernel
theorem test_table_word_reset : decodeTableWord 3 0b100 = some .reset := by decide

/-! ## Witnesses: for each obligation with hypotheses, a concrete state that meets them, clause by clause -/

theorem witness_EncStart_taken : base.enc.phase = .idle ∧ (onEnc fun e => { e with phase := .fault }).enc.phase = .fault := by
  decide
theorem witness_EncStart_ignored : ¬((coded .close).enc.phase = .idle ∨ (coded .close).enc.phase = .done ∨
    (coded .close).enc.phase = .fault) := by decide
theorem witness_DecStart_taken : base.dec.phase = .idle := by decide
theorem witness_DecStart_ignored : ¬((decoding 0 []).dec.phase = .idle ∨ (decoding 0 []).dec.phase = .done ∨
    (decoding 0 []).dec.phase = .fault) := by decide

/-- The last byte of the input, and the first position past it. -/
theorem witness_Count : base.rin.valid = true ∧ (feed [0#8, 0xFF#8] base).rin.data[1]? = some 0xFF#8 ∧
    base.rin.data[base.rin.pos]? = none := by decide
/-- The last index of the queue. -/
theorem witness_QueueMinimum : (queueSet [512])[512]? = some true := by decide +kernel

/-- `queueSet` has no other members. -/
theorem queueSet_only {l : List Nat} {j : Nat} (h : (queueSet l)[j]? = some true) : j ∈ l := by
  have key : ∀ (l : List Nat) (v : Vector Bool encNodeCap),
      (l.foldl (fun v i => v.setIfInBounds i true) v)[j]? = some true → v[j]? = some true ∨ j ∈ l := by
    intro l
    induction l with
    | nil => exact fun v h => .inl h
    | cons i l ih =>
      intro v h
      rcases ih _ h with h | h
      · by_cases hij : i = j
        · exact .inr (by simp [hij])
        · rw [Vector.getElem?_setIfInBounds_ne hij] at h
          exact .inl h
      · exact .inr (List.mem_cons_of_mem _ h)
  rcases key l _ h with h | h
  · rw [Vector.getElem?_replicate] at h
    split at h <;> cases h
  · exact h

/-- A queue of two, with room for the last node of the store. -/
theorem witness_Merge_join :
    1 < (merging [0, 1] 512).enc.qsize ∧ (merging [0, 1] 512).enc.nn < encNodeCap ∧
      IsQueueMin (merging [0, 1] 512).enc.node (queueSet [0, 1]) 1 ∧
      IsQueueMin (merging [0, 1] 512).enc.node ((queueSet [0, 1]).setIfInBounds 1 false) 0 := by
  refine ⟨by decide, by decide +kernel, ⟨by decide +kernel, fun j hj => ?_⟩, ⟨by decide +kernel, fun j hj => ?_⟩⟩
  · have h := queueSet_only hj
    simp only [List.mem_cons, List.not_mem_nil, or_false] at h
    rcases h with rfl | rfl
    · exact .inl (by decide +kernel)
    · exact .inr ⟨rfl, le_rfl⟩
  · by_cases h1 : 1 = j
    · subst h1; simp at hj
    · rw [Vector.getElem?_setIfInBounds_ne h1] at hj
      have h := queueSet_only hj
      simp only [List.mem_cons, List.not_mem_nil, or_false] at h
      rcases h with rfl | rfl
      · exact .inr ⟨rfl, le_rfl⟩
      · exact absurd rfl h1
/-- A queue of one. -/
theorem witness_Merge_root : ¬ 1 < (merging [0] 1).enc.qsize ∧ IsQueueMin (merging [0] 1).enc.node (queueSet [0]) 0 := by
  refine ⟨by decide, by decide +kernel, fun j hj => ?_⟩
  rw [List.mem_singleton.mp (queueSet_only hj)]
  exact .inr ⟨rfl, le_rfl⟩
theorem witness_MergeRoom : 1 < (merging [0, 3] 512).enc.qsize → (merging [0, 3] 512).enc.nn < encNodeCap := by decide

/-- The last node a walk visits is the leaf of the greatest symbol, 256. -/
theorem witness_Gen_leaf : let s := walking .gen [{ node := 2, len := 2, bits := 3#256 }]
    1 ≤ s.enc.sp ∧ s.enc.stk[s.enc.sp - 1]? = some { node := 2, len := 2, bits := 3#256 } ∧
      s.enc.node[2]? = some { weight := 1, kind := .leaf 256#9 } ∧ (256#9 : Sym).toNat < nsym := by decide +kernel
/-- An internal node met with one free entry left: `sp` = 256. -/
theorem witness_Gen_internal : let s := walkingAt .gen 256 4
    1 ≤ s.enc.sp ∧ s.enc.sp < encStkCap ∧ s.enc.stk[s.enc.sp - 1]? = some { node := 4, len := 0, bits := 0#256 } ∧
      s.enc.node[4]? = some { weight := 4, kind := .internal 0 3 } := by decide +kernel
theorem witness_CoutOpen : CoutOpen base ∧ SoutOpen base := by unfold CoutOpen SoutOpen; decide
/-- As for ENC.GEN, with the output open. -/
theorem witness_Wrhdr_leaf : let s := walking .wrhdr [{ node := 0, len := 0, bits := 0#256 }]
    CoutOpen s ∧ 1 ≤ s.enc.sp ∧ s.enc.stk[s.enc.sp - 1]? = some { node := 0, len := 0, bits := 0#256 } ∧
      s.enc.node[0]? = some { weight := 2, kind := .leaf 97#9 } := by unfold CoutOpen; decide +kernel
theorem witness_Wrhdr_internal : let s := walkingAt .wrhdr 256 4
    CoutOpen s ∧ 1 ≤ s.enc.sp ∧ s.enc.sp < encStkCap ∧
      s.enc.stk[s.enc.sp - 1]? = some { node := 4, len := 0, bits := 0#256 } ∧
      s.enc.node[4]? = some { weight := 4, kind := .internal 0 3 } := by unfold CoutOpen; decide +kernel
theorem witness_Encode_code : let s := feed [0x61#8] (coded .encode)
    s.rin.valid = true ∧ s.rin.data[s.rin.pos]? = some 0x61#8 ∧ s.enc.codeValid[byteIndex 0x61#8] = true ∧ CoutOpen s := by
  unfold CoutOpen; decide +kernel
theorem witness_Encode_no_code : let s := feed [0xFF#8] (coded .encode)
    s.rin.data[s.rin.pos]? = some 0xFF#8 ∧ s.enc.codeValid[byteIndex 0xFF#8] = false := by decide +kernel
theorem witness_Encode_eos : (coded .encode).rin.data[(coded .encode).rin.pos]? = none := by decide
theorem witness_Wreof_empty : base.enc.codeLen[eofIndex] = 0 := by decide +kernel

/-- The magic presented; a word that differs in the last bit; 31 bits. -/
theorem witness_Rdmagic_equal : CinPresents (bits 32 base.cfg.magic.toNat) (onDec id magicBits) := by
  unfold CinPresents; decide +kernel
theorem witness_Rdmagic_differs :
    CinPresents (bits 32 (0xFACE8200#32).toNat) (onDec id (magicBits.take 31 ++ [false])) ∧ 0xFACE8200#32 ≠ base.cfg.magic := by
  unfold CinPresents; decide +kernel
theorem witness_Rdmagic_short : let s := onDec id (magicBits.take 31)
    s.cin.valid = true ∧ s.cin.data.length - s.cin.pos < 32 := by decide +kernel
theorem witness_MagicItem : let s := onDec (fun d => { d with phase := .rdmagic }) []
    s.dec.phase = .rdmagic ∧ s.cin.valid = true := by decide
/-- No bit left; nine bits of a leaf's ten; a whole record on a full store. -/
theorem witness_Rdhdr_eos : base.cin.valid = true ∧ base.cin.data.length ≤ base.cin.pos := by decide
theorem witness_Rdhdr_cut : CinPresents [true] (onDec id (leaf97.take 9)) ∧
    (onDec id (leaf97.take 9)).cin.data.length - (onDec id (leaf97.take 9)).cin.pos < 10 := by
  unfold CinPresents; decide
theorem witness_Rdhdr_full : let s := onDec (fun d => { d with dn := 5 }) leaf256
    CinPresents (recordBits (some 256#9)) s ∧ s.dec.dn = s.cfg.decNodeCap := by unfold CinPresents; decide +kernel

theorem witness_Item_full : let s := onDec (fun d => { d with dn := 5, phase := .rdhdr }) []
    s.dec.phase = .rdhdr ∧ s.dec.dn = s.cfg.decNodeCap ∧ s.cin.valid = true := by decide

/-- A lone leaf; the last place of the store as a left and as a right child. -/
theorem witness_Leaf_root : let s := onDec (fun d => { d with phase := .rdhdr }) leaf256
    s.cin.valid = true ∧ s.dec.dn < s.dec.dnode.length ∧ s.dec.dn ≠ s.cfg.decNodeCap ∧ s.dec.dsp = 0 ∧
      s.dec.phase = .rdhdr ∧ CinPresents (true :: bits 9 (256#9 : Sym).toNat) s := by unfold CinPresents; decide +kernel
theorem witness_Leaf_left : let s := reading 3 [{ node := 2, side := false }] leaf98
    s.dec.dn < s.dec.dnode.length ∧ s.dec.dn ≠ s.cfg.decNodeCap ∧ 0 < s.dec.dsp ∧
      s.dec.dstk[s.dec.dsp - 1]? = some { node := 2, side := false } ∧ 2 < s.dec.dn ∧
      s.dec.dnode[2]? = some (.internal none none) ∧ CinPresents (true :: bits 9 (98#9 : Sym).toNat) s := by
  unfold CinPresents; decide +kernel
theorem witness_Leaf_right : let s := reading 4 [{ node := 2, side := true }] leaf256
    s.dec.dn < s.dec.dnode.length ∧ s.dec.dn ≠ s.cfg.decNodeCap ∧ 0 < s.dec.dsp ∧
      s.dec.dstk[s.dec.dsp - 1]? = some { node := 2, side := true } ∧ 2 < s.dec.dn ∧
      s.dec.dnode[2]? = some (.internal (some 3) none) ∧ CinPresents (true :: bits 9 (256#9 : Sym).toNat) s := by
  unfold CinPresents; decide +kernel
theorem witness_Node_root : let s := onDec (fun d => { d with phase := .rdhdr }) [false]
    s.cin.valid = true ∧ s.dec.dn < s.dec.dnode.length ∧ s.dec.dn ≠ s.cfg.decNodeCap ∧ s.dec.dsp = 0 ∧
      0 < s.dec.dstk.length ∧ s.dec.phase = .rdhdr ∧ CinPresents [false] s := by unfold CinPresents; decide +kernel
theorem witness_Node_left : let s := reading 1 [{ node := 0, side := false }] [false]
    s.dec.dn < s.dec.dnode.length ∧ s.dec.dn ≠ s.cfg.decNodeCap ∧ 0 < s.dec.dsp ∧ s.dec.dsp < s.dec.dstk.length ∧
      s.dec.dstk[s.dec.dsp - 1]? = some { node := 0, side := false } ∧ 0 < s.dec.dn ∧
      s.dec.dnode[0]? = some (.internal none none) ∧ CinPresents [false] s := by unfold CinPresents; decide +kernel
theorem witness_Node_right : let s := reading 2 [{ node := 0, side := true }] [false]
    s.dec.dn < s.dec.dnode.length ∧ s.dec.dn ≠ s.cfg.decNodeCap ∧ 0 < s.dec.dsp ∧
      s.dec.dstk[s.dec.dsp - 1]? = some { node := 0, side := true } ∧ 0 < s.dec.dn ∧
      s.dec.dnode[0]? = some (.internal (some 1) none) ∧ CinPresents [false] s := by unfold CinPresents; decide +kernel
theorem witness_Readers_magic : let s := onDec (fun d => { d with phase := .rdmagic }) magicBits
    s.cin.valid = true ∧ s.dec.phase = .rdmagic ∧
      decode .magicWord (s.cin.data.drop s.cin.pos) = .ok (.magic 0xFACE8201#32, []) := ⟨rfl, rfl, rfl⟩
theorem witness_Readers_header : let s := onDec (fun d => { d with phase := .rdhdr }) leaf97
    s.cin.valid = true ∧ s.dec.phase = .rdhdr ∧
      decode .header (s.cin.data.drop s.cin.pos) = .ok (.hdrLeaf 97#9, []) := ⟨rfl, rfl, rfl⟩

/-- A lone leaf as the root; the end of the body; a bit to an internal node, to 256 and to another leaf. -/
theorem witness_Decode_lone : (onDec (fun d => { d with dnode := [.leaf 65#9] }) []).dec.dnode[0]? = some (.leaf 65#9) := by
  decide
theorem witness_Decode_eos : let s := decoding 0 []
    s.dec.dnode[s.dec.droot]? = some (.internal (some 1) (some 2)) ∧ s.cin.valid = true ∧ s.cin.data.length ≤ s.cin.pos := by
  decide
theorem witness_Decode_internal : let s := decoding 0 [true]
    CinPresents [true] s ∧ s.dec.dnode[s.dec.cur]? = some (.internal (some 1) (some 2)) ∧
      s.dec.dnode[2]? = some (.internal (some 3) (some 4)) := by unfold CinPresents; decide
theorem witness_Decode_eof : let s := decoding 2 [true]
    CinPresents [true] s ∧ s.dec.dnode[s.dec.cur]? = some (.internal (some 3) (some 4)) ∧
      s.dec.dnode[4]? = some (.leaf 256#9) := by unfold CinPresents; decide
theorem witness_Decode_leaf : let s := decoding 2 [false]
    CinPresents [false] s ∧ s.dec.dnode[s.dec.cur]? = some (.internal (some 3) (some 4)) ∧ 98#9 ≠ 256#9 ∧
      s.dec.dnode[3]? = some (.leaf 98#9) ∧ SoutOpen s := by unfold CinPresents SoutOpen; decide

/-- DEC's store of V46.3 holds the tree of V43.3. -/
theorem dnodes_rep : DNodeRep dnodesAab treeAab 0 :=
  ⟨1, 2, rfl, rfl, 3, 4, rfl, rfl, rfl⟩
theorem witness_BodyCode : let s := decoding 0 [true, false]
    s.dec.phase = .decode ∧ s.cin.valid = true ∧ SoutOpen s ∧ s.dec.cur = s.dec.droot ∧
      DNodeRep s.dec.dnode treeAab s.dec.droot ∧ (98#9, [true, false]) ∈ treeAab.codes ∧ 98#9 ≠ pseudoEof ∧
      CinPresents [true, false] s :=
  ⟨rfl, rfl, ⟨rfl, rfl⟩, rfl, dnodes_rep, by decide, by decide, ⟨rfl, by decide, rfl⟩⟩
/-- The path `1` of the code `10` leads to node 2, whose child on `0` is the leaf of 98. -/
theorem witness_BodyCode_held : let s := { decoding 0 [true, false] with sout := { base.sout with ready := false } }
    s.sout.ready = false ∧ s.dec.phase = .decode ∧ s.dec.cur = s.dec.droot ∧
      nodeAlong s.dec.dnode [true] s.dec.droot = some 2 ∧ s.dec.dnode[2]? = some (.internal (some 3) (some 4)) ∧
      (DNode.internal (some 3) (some 4)).child false = some 3 ∧ s.dec.dnode[3]? = some (.leaf 98#9) := by decide
theorem witness_BodyEof : let s := decoding 0 [true, true]
    s.dec.phase = .decode ∧ s.cin.valid = true ∧ s.dec.cur = s.dec.droot ∧ DNodeRep s.dec.dnode treeAab s.dec.droot ∧
      (pseudoEof, [true, true]) ∈ treeAab.codes := ⟨rfl, rfl, rfl, dnodes_rep, by decide⟩
theorem witness_BodyEof_lone : let s := onDec (fun d => { d with phase := .decode, dnode := [.leaf 65#9], dn := 1 }) []
    s.dec.phase = .decode ∧ DNodeRep s.dec.dnode (.leaf 65#9) s.dec.droot := ⟨rfl, rfl⟩

/-- The host holding every port. -/
def held (s : State) : State := applyEvent (.lines false false false false) s
theorem witness_Held_inputs : (held base).rin.valid = false ∧ (held base).cin.valid = false ∧
    (held (decoding 0 [true])).dec.rootIsLeaf = some false := by decide
theorem witness_Held_body : (held (decoding 0 [true])).dec.phase = .decode ∧ (held (decoding 0 [true])).cin.valid = false := by
  decide
theorem witness_Held_cout : (held (coded .wreof)).cout.ready = false ∧
    (held (coded .wreof)).enc.codeLen[eofIndex] ≠ 0 := by decide +kernel
theorem witness_Held_wrhdr : let s := held (walking .wrhdr [{ node := 2, len := 0, bits := 0#256 }])
    s.cout.ready = false ∧ s.enc.top = some { node := 2, len := 0, bits := 0#256 } ∧
      s.enc.node[2]? = some (mk 1 (.leaf 256#9)) := by decide +kernel
theorem witness_Held_encode : let s := { feed [0x61#8] (coded .encode) with cout := (held base).cout }
    s.cout.ready = false ∧ s.rin.data[s.rin.pos]? = some 0x61#8 ∧ s.enc.codeValid[byteIndex 0x61#8] = true ∧
      s.enc.codeLen[byteIndex 0x61#8] ≠ 0 := by decide +kernel
theorem witness_Held_sout : let s := { decoding 2 [false] with sout := (held base).sout }
    s.sout.ready = false ∧ s.dec.rootIsLeaf = some false ∧ CinPresents [false] s ∧
      s.dec.dnode[s.dec.cur]? = some (.internal (some 3) (some 4)) ∧ s.dec.dnode[3]? = some (.leaf 98#9) ∧
      98#9 ≠ pseudoEof := by unfold CinPresents; decide
theorem witness_ItemsOutOfPhase : base.dec.phase ≠ .rdmagic ∧ base.dec.phase ≠ .rdhdr ∧ base.dec.phase ≠ .decode ∧
    (held base).cin.valid = false := by decide
/-- Both outputs closed, as after a run. -/
def closed (s : State) : State := { s with cout := { s.cout with closed := true }, sout := { s.sout with closed := true } }
theorem witness_Closed : let s := closed (walking .wrhdr [{ node := 2, len := 0, bits := 0#256 }])
    s.cout.ready = true ∧ s.cout.closed = true ∧ s.enc.top = some { node := 2, len := 0, bits := 0#256 } ∧
      s.enc.node[2]? = some (mk 1 (.leaf 256#9)) ∧ s.sout.ready = true ∧ s.sout.closed = true := by decide +kernel
theorem witness_Closed_wreof : (closed (coded .wreof)).cout.closed = true ∧
    (closed (coded .wreof)).enc.codeLen[eofIndex] ≠ 0 := by decide +kernel
theorem witness_Closed_encode : let s := closed (feed [0x61#8] (coded .encode))
    s.cout.ready = true ∧ s.cout.closed = true ∧ s.rin.valid = true ∧ s.rin.data[s.rin.pos]? = some 0x61#8 ∧
      s.enc.codeValid[byteIndex 0x61#8] = true ∧ s.enc.codeLen[byteIndex 0x61#8] ≠ 0 := by decide +kernel
theorem witness_Closed_decode : let s := closed (decoding 2 [false])
    s.sout.ready = true ∧ s.sout.closed = true ∧ s.dec.rootIsLeaf = some false ∧ WalksBit false s .decDecode ∧
      WalksBit false s (.bodyCode [false]) ∧ s.dec.dnode[s.dec.cur]? = some (.internal (some 3) (some 4)) ∧
      s.dec.dnode[3]? = some (.leaf 98#9) ∧ 98#9 ≠ pseudoEof :=
  ⟨rfl, rfl, rfl, .inl ⟨rfl, rfl, by decide, rfl⟩, .inr ⟨[], .inl rfl, rfl, rfl⟩, rfl, rfl, by decide⟩
theorem witness_Closed_bodyCode : let s := closed (decoding 0 [true, false])
    s.sout.ready = true ∧ s.sout.closed = true ∧ s.dec.phase = .decode ∧ s.cin.valid = true ∧ s.dec.cur = s.dec.droot ∧
      DNodeRep s.dec.dnode treeAab s.dec.droot ∧ (98#9, [true, false]) ∈ treeAab.codes :=
  ⟨rfl, rfl, rfl, rfl, rfl, dnodes_rep, by decide⟩

/-- The first index outside each space. -/
theorem witness_Fault_stack_empty : base.enc.sp = 0 := by decide
theorem witness_Fault_stack_over : encStkCap < (walkingAt .gen 258 4).enc.sp := by decide
theorem witness_Fault_node : (walking .gen [{ node := 513, len := 0, bits := 0#256 }]).enc.top =
    some { node := 513, len := 0, bits := 0#256 } ∧ encNodeCap ≤ 513 := by decide +kernel
theorem witness_Fault_symbol :
    let s := onEnc fun e => { e with sp := 1, node := e.node.set 0 (mk 1 (.leaf 257#9)) }
    s.enc.top = some StkEntry.zero ∧ s.enc.node[0]? = some { weight := 1, kind := .leaf 257#9 } ∧
      nsym ≤ (257#9 : Sym).toNat := by decide +kernel
theorem witness_Fault_stack_full : let s := walkingAt .gen 257 4
    s.enc.sp = encStkCap ∧ s.enc.top = some { node := 4, len := 0, bits := 0#256 } ∧
      s.enc.node[4]? = some { weight := 4, kind := .internal 0 3 } := by decide +kernel
theorem witness_Fault_merge : 1 < (merging [0, 3] 513).enc.qsize ∧ encNodeCap ≤ (merging [0, 3] 513).enc.nn := by decide
theorem witness_Fault_dnode : let s := onDec (fun d => { d with dn := 4, dnode := d.dnode.take 4, phase := .rdhdr }) [false]
    TakesRecord none s .decRdhdr ∧ TakesRecord (some 0#9) s (.hdrLeaf 0#9) ∧ s.dec.dn ≠ s.cfg.decNodeCap ∧
      s.dec.dnode.length ≤ s.dec.dn :=
  ⟨.inl ⟨rfl, rfl, by decide, rfl⟩, .inr ⟨rfl, rfl, rfl⟩, by decide, by decide⟩
/-- The stack empty of entries, and full with a left child still to come. -/
theorem witness_Fault_dstk : let s := onDec (fun d => { d with dstk := [], phase := .rdhdr }) [false]
    TakesRecord none s .hdrNode ∧ s.dec.dn ≠ s.cfg.decNodeCap ∧ s.dec.dn < s.dec.dnode.length ∧
      s.dec.dsp = s.dec.dstk.length ∧ s.dec.dsp = 0 := ⟨.inr ⟨rfl, rfl, rfl⟩, by decide, by decide, rfl, rfl⟩
theorem witness_Fault_dstk_full :
    let s := onDec (fun d => { d with dn := 4, dstk := List.replicate 5 { node := 3, side := false }, dsp := 5 }) [false]
    TakesRecord none s .decRdhdr ∧ s.dec.dn ≠ s.cfg.decNodeCap ∧ s.dec.dn < s.dec.dnode.length ∧
      s.dec.dsp = s.dec.dstk.length ∧ s.dec.dstk[s.dec.dsp - 1]? = some { node := 3, side := false } ∧
      3 < s.dec.dnode.length := ⟨.inl ⟨rfl, rfl, by decide, rfl⟩, by decide, by decide, rfl, rfl, by decide⟩
theorem witness_Fault_dstk_over : let s := onDec (fun d => { d with dsp := 6 }) leaf97
    TakesRecord (some 97#9) s .decRdhdr ∧ s.dec.dn ≠ s.cfg.decNodeCap ∧ s.dec.dn < s.dec.dnode.length ∧
      s.dec.dstk.length < s.dec.dsp := ⟨.inl ⟨rfl, rfl, by decide, by decide⟩, by decide, by decide, by decide⟩
theorem witness_Fault_parent : let s := onDec (fun d => { d with dsp := 1, dstk := [{ node := 5, side := true }] }) [false]
    TakesRecord none s .decRdhdr ∧ s.dec.dn ≠ s.cfg.decNodeCap ∧ s.dec.dn < s.dec.dnode.length ∧ 0 < s.dec.dsp ∧
      s.dec.dstk[s.dec.dsp - 1]? = some { node := 5, side := true } ∧ s.dec.dnode.length ≤ 5 :=
  ⟨.inl ⟨rfl, rfl, by decide, rfl⟩, by decide, by decide, by decide, rfl, by decide⟩
theorem witness_Fault_root : let s := onDec (fun d => { d with droot := 5, phase := .decode }) []
    s.dec.dnode.length ≤ s.dec.droot ∧ s.dec.phase = .decode := by decide
theorem witness_Fault_cur : let s := decoding 5 [true]
    s.dec.rootIsLeaf = some false ∧ WalksBit true s .decDecode ∧ WalksBit true s (.bodyEof [true, true]) ∧
      s.dec.dnode.length ≤ s.dec.cur :=
  ⟨rfl, .inl ⟨rfl, rfl, by decide, rfl⟩, .inr ⟨[true], .inr rfl, rfl, rfl⟩, by decide⟩
/-- A right child not given beside a left one that is; a child one past the store. -/
theorem witness_Fault_child : let s := fun c => onDec (fun d => { d with phase := .decode, dnode := [.internal (some 0) c] }) [true]
    ∀ c ∈ [none, some 1], (s c).dec.rootIsLeaf = some false ∧ WalksBit true (s c) .decDecode ∧
      (s c).dec.dnode[(s c).dec.cur]? = some (.internal (some 0) c) ∧
      ((DNode.internal (some 0) c).child true = none ∨
        ((DNode.internal (some 0) c).child true = some 1 ∧ (s c).dec.dnode.length ≤ 1)) := by
  unfold WalksBit CinPresents
  intro s c hc
  refine ⟨rfl, .inl ⟨rfl, rfl, by show 1 ≤ 1 - 0; decide, rfl⟩, rfl, ?_⟩
  rcases List.mem_pair.mp hc with rfl | rfl
  · exact .inl rfl
  · exact .inr ⟨rfl, by decide⟩

theorem witness_StandsIn : StandsIn (.strobes [1#8] []) (.encStart [1#8]) ∧ StandsIn .encPhase .encWaitFault ∧
    StandsIn .decPhase .decWaitFault ∧ StandsIn .magicWord (.magic 0#32) ∧ StandsIn .header (.hdrLeaf 511#9) ∧
    StandsIn (.body (.leaf 0#9)) (.bodyEof []) ∧ StandsIn (.body treeAab) (.bodyCode [true, false]) ∧
    StandsIn (.body treeAab) (.bodyEof [true, true]) ∧ StandsIn (.padding 1) (.pad 7) ∧
    (Instr.bodyCode [true, false]).wellFormed = true ∧ (Instr.pad 7).wellFormed = true :=
  ⟨.inr (.inl rfl), by unfold StandsIn; decide, by unfold StandsIn; decide, ⟨_, rfl⟩, ⟨some 511#9, rfl⟩, rfl,
    .inl ⟨_, 98#9, by decide, by decide, rfl⟩, .inr ⟨_, by decide, rfl⟩, rfl, rfl, rfl⟩

theorem witness_Step_unit : decode (phaseCtx .enc) (phaseWord .enc base) = .ok (.encWaitIdle, []) ∧
    decode (phaseCtx .dec) (phaseWord .dec (decoding 0 [])) = .ok (.decDecode, []) ∧ base.agenda = [] ∧
    base.turn = .enc := ⟨rfl, rfl, rfl, rfl⟩
theorem witness_Step_agenda : { base with agenda := [.unit .dec] }.agenda = [.unit .dec] := rfl
theorem witness_Step_host : (placeStrobe false true true [1#8] [true] base).agenda =
    [.host (.strobe false true true [1#8] [true])] := rfl
theorem witness_Step_events (e : HostEvent) : { base with agenda := [.host e] }.agenda = [.host e] := rfl
theorem witness_Step_cut : base.rin.valid = true ∧ (decoding 0 [true]).cin.valid = true ∧
    (decoding 0 [true]).cin.pos ≤ (decoding 0 [true]).cin.data.length := by decide
theorem witness_Reserved : (placeEnc 13 base).enc.phase = .reserved13 ∧ (placeEnc 15 base).enc.phase = .reserved15 ∧
    (placeDec 7 base).dec.phase = .reserved7 := by decide

/-- Two states that differ for DEC only in what ENC holds, and the other way round. -/
theorem witness_SameView : SameView .dec base (coded .encode) ∧ base.enc ≠ (coded .encode).enc ∧
    SameView .enc base (decoding 0 [true]) ∧ base.dec ≠ (decoding 0 [true]).dec :=
  ⟨⟨rfl, rfl, rfl, rfl⟩, fun h => by have := congrArg Enc.phase h; revert this; decide,
    ⟨rfl, rfl, rfl, rfl, rfl⟩, fun h => by have := congrArg Dec.phase h; revert this; decide⟩
theorem witness_unit : Instr.unit .encCount = some .enc ∧ Instr.unit .hdrNode = some .dec := by decide
theorem witness_next : (out (exec .encCount base)).isSome = true ∧ (out (exec .hdrNode base)).isSome = true ∧
    (out (step base)).isSome = true := by decide
/-- A step that raises. -/
theorem witness_raise : (out (exec .decRdmagic base)).map (fun t => t.dec.err) = some .formatError := by decide

/-- A unit with an error on its way out, and one that has ended with one. -/
def erring : State := { onDec (fun d => { d with phase := .close, err := .headerCapacity }) [] with
  enc := { base.enc with phase := .fault, err := .encNoCode }, cout := { base.cout with closed := true } }
theorem witness_ErrAgrees : erring.ErrAgrees := by unfold State.ErrAgrees; decide
theorem witness_OutputsAgree : erring.OutputsAgree ∧ erring.PhasesLegal := by
  unfold State.OutputsAgree State.PhasesLegal; decide
theorem witness_step_erring : (out (step erring)).isSome = true ∧ erring.enc.err ≠ .none ∧ erring.dec.err ≠ .none := by decide

theorem fits_dnode (n : DNode) (h : n = .internal (some 0) (some 1023) ∨ n = .leaf 511#9) : DNode.Fits n := by
  intro b i hi
  rcases h with rfl | rfl
  · cases b <;> simp [DNode.child] at hi <;> omega
  · cases hi
/-- Registers at the greatest values of their widths. -/
def wide : State :=
  { onDec (fun d => { d with dnode := [.internal (some 0) (some 1023), .leaf 511#9], dstk := List.replicate 2 ⟨1023, true⟩
                             dn := 1024, droot := 1023, cur := 1023, dsp := 2 }) [true] with
    cfg := { decNodeCap := 2 }
    enc := { base.enc with
      cnt := Vector.replicate nsym (2 ^ 32 - 1), node := Vector.replicate encNodeCap (mk (2 ^ 41 - 1) (.internal 1023 1023))
      nn := 1023, qsize := 1023, root := 1023, codeLen := Vector.replicate nsym 511
      stk := Vector.replicate encStkCap { node := 1023, len := 511, bits := 0#256 }, sp := 511 } }
theorem witness_Fits : wide.Fits := by
  refine ⟨by decide, ⟨?_, ?_, by decide, by decide, by decide, ?_, ?_, by decide⟩,
    ⟨rfl, rfl, ?_, by decide, by decide, by decide, by decide, by decide⟩, by decide, by decide⟩
  · intro i; simp [wide, onDec]
  · intro i; simp [wide, onDec, mk, Node.Fits, Config.wgtW]
  · intro i; simp [wide]
  · intro i; simp [wide]
  · intro n hn
    refine fits_dnode n ?_
    simpa [wide, onDec] using hn

/-- ENC's store of V42.3 holds the tree of V43.3. -/
theorem nodes_rep : NodeRep nodesAab treeAab 4 :=
  ⟨4, 0, 3, by decide +kernel, by decide, by decide, ⟨2, by decide +kernel⟩,
    2, 1, 2, by decide +kernel, by decide, by decide, ⟨1, by decide +kernel⟩, ⟨1, by decide +kernel⟩⟩
theorem nodes_rep_3 : NodeRep nodesAab (.node (.leaf 98#9) (.leaf 256#9)) 3 :=
  ⟨2, 1, 2, by decide +kernel, by decide, by decide, ⟨1, by decide +kernel⟩, ⟨1, by decide +kernel⟩⟩
theorem legal_97 : SymbolsLegal (.leaf 97#9) := by unfold SymbolsLegal; decide
theorem legal_3 : SymbolsLegal (.node (.leaf 98#9) (.leaf 256#9)) := by unfold SymbolsLegal; decide
theorem legal_aab : SymbolsLegal treeAab := by unfold SymbolsLegal; decide
/-- V43.3's walk after its first visit, and V47.3's body, both units busy. -/
def midway : State :=
  { walking .gen [{ node := 3, len := 1, bits := 1#256 }, { node := 0, len := 1, bits := 0#256 }] with
    dec := (decoding 2 []).dec, cin := (decoding 2 [false]).cin }
theorem witness_Safe_walk : midway.Safe := by
  refine ⟨by unfold State.OutputsAgree; decide, by unfold State.PhasesLegal; decide, ⟨⟨treeAab, nodes_rep, legal_aab, by decide⟩, ?_⟩,
    rfl, rfl, by decide, by decide, by decide, ?_, fun _ => ⟨some 3, some 4, rfl⟩⟩
  · refine ⟨[.node (.leaf 98#9) (.leaf 256#9), .leaf 97#9], rfl, by decide, ?_, by decide⟩
    intro k hk
    match k, hk with
    | 0, _ => exact ⟨{ node := 3, len := 1, bits := 1#256 }, by decide +kernel, nodes_rep_3, legal_3⟩
    | 1, _ => exact ⟨{ node := 0, len := 1, bits := 0#256 }, by decide +kernel, ⟨2, by decide +kernel⟩, legal_97⟩
  · intro i hi l r h
    have : i = 0 ∨ i = 1 ∨ i = 2 ∨ i = 3 ∨ i = 4 := by simp only [midway, decoding, onDec] at hi; omega
    rcases this with rfl | rfl | rfl | rfl | rfl <;> cases h
    · exact ⟨1, 2, rfl, rfl, by decide, by decide⟩
    · exact ⟨3, 4, rfl, rfl, by decide, by decide⟩
/-- V42.3 before its last merge, and V46.3 before its last record. -/
def building : State :=
  { merging [0, 3] 4 with dec := (reading 4 [{ node := 2, side := true }] []).dec, cin := (onDec id leaf256).cin }
theorem witness_Safe_build : building.Safe := by
  refine ⟨by unfold State.OutputsAgree; decide, by unfold State.PhasesLegal; decide, ?_, rfl, rfl, by decide, by decide, fun _ => by decide,
    by decide, ?_, ?_⟩
  · refine ⟨[(0, .leaf 97#9), (3, .node (.leaf 98#9) (.leaf 256#9))], by decide, ?_, rfl, by decide, by decide, ?_, by decide⟩
    · intro i
      constructor
      · intro h
        have h : (queueSet [0, 3])[i]? = some true := h
        simpa using queueSet_only h
      · intro h
        simp at h
        rcases h with rfl | rfl <;> decide +kernel
    · intro p hp
      simp at hp
      rcases hp with rfl | rfl
      · exact ⟨by decide, ⟨2, by decide +kernel⟩, by unfold SymbolsLegal; decide⟩
      · exact ⟨by decide, nodes_rep_3, by unfold SymbolsLegal; decide⟩
  · intro x hx
    have : x = { node := 2, side := true } := by simpa [building, reading, onDec] using hx
    subst this
    exact ⟨by decide, 3, rfl, by decide⟩
  · intro i hi hnot l r h
    have : i = 0 ∨ i = 1 ∨ i = 2 ∨ i = 3 := by simp only [building, reading, onDec] at hi; omega
    rcases this with rfl | rfl | rfl | rfl
    · cases h; exact ⟨1, 2, rfl, rfl, by decide, by decide⟩
    · cases h
    · exact absurd (by decide) hnot
    · cases h

theorem witness_CountPass : base.enc.phase.waiting = true ∧ base.rin.valid = true := by decide
theorem witness_Builder : let s := onEnc fun e => { e with cnt := cntAab, phase := .qinit }
    s.enc.phase = .qinit ∧ s.enc.cnt[eofIndex] ≠ 0 ∧ ∀ i : Fin nsym, s.enc.cnt[i] < 2 ^ s.cfg.cntW := by decide +kernel
theorem witness_Generator : let s := walking .gen [{ node := 4, len := 0, bits := 0#256 }]
    s.enc.phase = .gen ∧ s.enc.sp = 1 ∧ s.enc.stk[0]? = some { node := s.enc.root, len := 0, bits := 0#256 } ∧
      NodeRep s.enc.node treeAab s.enc.root ∧ treeAab.leafCount ≤ nsym ∧ SymbolsLegal treeAab ∧
      (HTree.leafValues treeAab).Nodup ∧ s.enc.codeValid = Vector.replicate 257 false :=
  ⟨rfl, rfl, by decide +kernel, nodes_rep, by decide, legal_aab, by decide, rfl⟩
theorem witness_Generator_code : (256#9, [true, true]) ∈ treeAab.codes ∧ (256#9 : Sym).toNat < nsym ∧
    BitVec.ofNat 9 (0 : Fin nsym).val ∉ HTree.leafValues treeAab := by decide
theorem witness_PrefixFree : treeAab.codes[1]? = some (98#9, [true, false]) ∧ [true, false] <+: [true, false] := by decide
theorem witness_HeaderWriter : let s := walking .wrhdr [{ node := 4, len := 0, bits := 0#256 }]
    s.enc.phase = .wrhdr ∧ s.enc.sp = 1 ∧ CoutOpen s ∧ s.enc.stk[0]? = some { node := 4, len := 0, bits := 0#256 } ∧
      NodeRep s.enc.node treeAab 4 ∧ treeAab.leafCount ≤ nsym :=
  ⟨rfl, rfl, ⟨rfl, rfl⟩, by decide +kernel, nodes_rep, by decide⟩
/-- A store with exactly enough room (V60.28). -/
theorem witness_HeaderReader : let s := onDec (fun d => { d with phase := .rdhdr }) treeAab.ser
    s.dec.phase = .rdhdr ∧ s.dec.dn = 0 ∧ s.dec.dsp = 0 ∧ s.dec.dnode.length = s.cfg.decNodeCap ∧
      s.dec.dstk.length = s.cfg.decNodeCap ∧ treeAab.size ≤ s.cfg.decNodeCap ∧ CinPresents treeAab.ser s := by
  unfold CinPresents; decide
/-- Cut before the first bit and before the last one. -/
theorem witness_Truncated : let s := fun k => onDec (fun d => { d with phase := .rdhdr }) (treeAab.ser.take k)
    ∀ k ∈ [0, 31], (s k).dec.phase = .rdhdr ∧ (s k).dec.dn = 0 ∧ (s k).dec.dsp = 0 ∧
      (s k).dec.dnode.length = (s k).cfg.decNodeCap ∧ (s k).dec.dstk.length = (s k).cfg.decNodeCap ∧
      treeAab.size ≤ (s k).cfg.decNodeCap ∧ (s k).cin.valid = true ∧ (s k).cin.pos ≤ (s k).cin.data.length ∧
      k < treeAab.ser.length ∧ (s k).cin.data.drop (s k).cin.pos = treeAab.ser.take k := by decide
/-- The body of V47.3, whole and without its terminator. -/
theorem witness_DecoderWalk : let s := decoding 0 [false, false, true, false, true, true]
    s.dec.phase = .decode ∧ s.dec.err = .none ∧ s.cin.valid = true ∧ SoutOpen s ∧ s.dec.cur = s.dec.droot ∧
      DNodeRep s.dec.dnode treeAab s.dec.droot ∧ s.cin.pos ≤ s.cin.data.length ∧
      bodyWalk treeAab treeAab (s.cin.data.drop s.cin.pos) = ([0x61#8, 0x61#8, 0x62#8], true, 6) ∧
      bodyWalk treeAab treeAab [false, false, true, false, true] = ([0x61#8, 0x61#8, 0x62#8], false, 5) :=
  ⟨rfl, rfl, rfl, ⟨rfl, rfl⟩, rfl, dnodes_rep, by decide, by decide, by decide⟩
theorem witness_DecoderEnds : base.dec.phase.waiting = true ∧ base.cin.valid = true ∧ base.sout.ready = true ∧
    base.dec.dnode.length = base.cfg.decNodeCap ∧ base.dec.dstk.length = base.cfg.decNodeCap := by decide
theorem witness_Encoder : base.enc.phase.waiting = true ∧ LinesReady base ∧ 1 ≤ base.cfg.cntW := by
  unfold LinesReady; decide
theorem witness_RoundTrip : let s := State.resetWith { decNodeCap := 513 }
    s.enc.phase.waiting = true ∧ s.dec.phase.waiting = true ∧ LinesReady s ∧ 1 ≤ s.cfg.cntW ∧ 513 ≤ s.cfg.decNodeCap ∧
      s.dec.dnode.length = s.cfg.decNodeCap ∧ s.dec.dstk.length = s.cfg.decNodeCap := by
  unfold LinesReady
  exact ⟨rfl, rfl, by decide, by decide, by decide, List.length_replicate, List.length_replicate⟩

end Sys2Proof.Tests
end

section
/-! PROOFS. The STATUS words (R43): each field is read back from its bits, the busy, done, fault and idle of a unit exclude
each other, and a phase code stands for one phase (R40). -/

namespace Sys2Proof.Machine

/-- The common layout of `enc_status` (`w = 4`) and `dec_status` (`w = 3`), from bit `w + 5` down (R43). -/
def statusWord {w : Nat} (fault done busy : Bool) (err : BitVec 3) (phase : BitVec w) : BitVec (1 + 1 + 1 + 3 + w) :=
  BitVec.ofBool fault ++ BitVec.ofBool done ++ BitVec.ofBool busy ++ err ++ phase

theorem Enc.status_eq_statusWord (e : Enc) :
    e.status = statusWord e.faulted e.done e.busy e.err.code e.phase.code := rfl

theorem Dec.status_eq_statusWord (d : Dec) :
    d.status = statusWord d.faulted d.done d.busy d.err.code d.phase.code := rfl

section StatusWord
variable {w : Nat} (fault done busy : Bool) (err : BitVec 3) (phase : BitVec w)

theorem statusWord_phase : (statusWord fault done busy err phase).extractLsb' 0 w = phase :=
  BitVec.extractLsb'_append_eq_right

theorem statusWord_err : (statusWord fault done busy err phase).extractLsb' w 3 = err := by
  rw [statusWord, BitVec.extractLsb'_append_eq_of_le (Nat.le_refl w), Nat.sub_self]
  exact BitVec.extractLsb'_append_eq_right

/-- The widths stay written as sums (`-Nat.reduceAdd`): the append lemmas match on the sum. -/
theorem statusWord_flags :
    (statusWord fault done busy err phase).getLsbD (w + 3) = busy ∧
    (statusWord fault done busy err phase).getLsbD (w + 4) = done ∧
    (statusWord fault done busy err phase).getLsbD (w + 5) = fault := by
  refine ⟨?_, ?_, ?_⟩ <;>
    simp [-Nat.reduceAdd, statusWord, BitVec.getLsbD_append, BitVec.getElem_append]

end StatusWord

theorem EncPhase.ofCode_code (p : EncPhase) : EncPhase.ofCode p.code.toNat = p := by
  cases p <;> rfl

theorem DecPhase.ofCode_code (p : DecPhase) : DecPhase.ofCode p.code.toNat = p := by
  cases p <;> rfl

/-- The case split is over the phase: `busy`, `done` and `fault` are functions of it alone (R43). -/
theorem Enc.count_busy_done_faulted_idle (e : Enc) :
    [e.busy, e.done, e.faulted, decide (e.phase = .idle)].count true = 1 := by
  unfold Enc.busy Enc.done Enc.faulted
  cases e.phase <;> rfl

/-- As for ENC, over the phases of DEC (R43). -/
theorem Dec.count_busy_done_faulted_idle (d : Dec) :
    [d.busy, d.done, d.faulted, decide (d.phase = .idle)].count true = 1 := by
  unfold Dec.busy Dec.done Dec.faulted
  cases d.phase <;> rfl

/-- Settles O38: both words have the layout of `statusWord`, whose fields read back; the rest is one fact per phase. -/
theorem statusFieldsStandInTheirBits : Obligations.StatusFieldsStandInTheirBits := by
  intro e d
  rw [e.status_eq_statusWord, d.status_eq_statusWord]
  obtain ⟨encBusy, encDone, encFault⟩ := statusWord_flags e.faulted e.done e.busy e.err.code e.phase.code
  obtain ⟨decBusy, decDone, decFault⟩ := statusWord_flags d.faulted d.done d.busy d.err.code d.phase.code
  exact ⟨statusWord_phase .., statusWord_err .., encBusy, encDone, encFault,
    statusWord_phase .., statusWord_err .., decBusy, decDone, decFault,
    e.count_busy_done_faulted_idle, d.count_busy_done_faulted_idle,
    e.phase.ofCode_code.symm, d.phase.ofCode_code.symm⟩

end Sys2Proof.Machine
end

section
/-! PROOFS. The codes of a tree (R104): each fact is one induction over the tree, whose step puts the branch bit in front of
the codes of the two children. -/

namespace Sys2Proof.Machine

/-- Neither code begins with the other. -/
def CodesIncomparable (p q : Sym × Bits) : Prop := ¬ p.2 <+: q.2 ∧ ¬ q.2 <+: p.2

theorem codesIncomparable_cons (b : Bool) {p q : Sym × Bits} (h : CodesIncomparable p q) :
    CodesIncomparable (p.1, b :: p.2) (q.1, b :: q.2) := by
  simpa [CodesIncomparable, List.cons_prefix_cons] using h

theorem codesIncomparable_of_branch_ne {a b : Bool} (h : a ≠ b) (v w : Sym) (c d : Bits) :
    CodesIncomparable (v, a :: c) (w, b :: d) := by
  simp [CodesIncomparable, List.cons_prefix_cons, h, h.symm]

/-- Two leaves under one child differ there; two leaves under different children differ in the first bit. -/
theorem pairwise_codesIncomparable (T : HTree) : T.codes.Pairwise CodesIncomparable := by
  induction T with
  | leaf v => exact List.pairwise_singleton _ _
  | node l r ihl ihr =>
    refine List.pairwise_append.mpr ⟨?_, ?_, ?_⟩
    · exact ihl.map _ fun _ _ => codesIncomparable_cons false
    · exact ihr.map _ fun _ _ => codesIncomparable_cons true
    · simp only [List.forall_mem_map]
      exact fun p _ q _ => codesIncomparable_of_branch_ne (by decide) p.1 q.1 p.2 q.2

/-- The Kraft sum of a code table. -/
def kraftSum (codes : List (Sym × Bits)) : Rat := (codes.map fun p => (1 / 2 : Rat) ^ p.2.length).sum

theorem kraftSum_append (xs ys : List (Sym × Bits)) : kraftSum (xs ++ ys) = kraftSum xs + kraftSum ys := by
  simp only [kraftSum, List.map_append, List.sum_append]

/-- One more bit on every code halves the sum. -/
theorem kraftSum_map_cons (b : Bool) (xs : List (Sym × Bits)) :
    kraftSum (xs.map fun p => (p.1, b :: p.2)) = 1 / 2 * kraftSum xs := by
  simp only [kraftSum, List.map_map, ← List.sum_map_mul_left]
  simp only [Function.comp_def, List.length_cons, pow_succ']

/-- The Kraft equality of R104. -/
theorem kraftSum_codes (T : HTree) : kraftSum T.codes = 1 := by
  induction T with
  | leaf v => simp [kraftSum, HTree.codes]
  | node l r ihl ihr =>
    rw [HTree.codes, kraftSum_append, kraftSum_map_cons, kraftSum_map_cons, ihl, ihr]
    norm_num

/-- The converse of `mem_codes_node`. -/
theorem cons_mem_codes_node {l r : HTree} {v : Sym} {b : Bool} {c : Bits} (h : (v, c) ∈ (if b then r else l).codes) :
    (v, b :: c) ∈ (HTree.node l r).codes := by
  cases b with
  | false => exact List.mem_append_left _ (List.mem_map_of_mem h)
  | true => exact List.mem_append_right _ (List.mem_map_of_mem h)

/-- The first bit of the sequence chooses the child, in which the rest of the sequence begins with a code. -/
theorem exists_code_prefix (T : HTree) (f : Nat → Bool) :
    ∃ v c, (v, c) ∈ T.codes ∧ c = (List.range c.length).map f := by
  induction T generalizing f with
  | leaf v => exact ⟨v, [], List.mem_singleton_self _, rfl⟩
  | node l r ihl ihr =>
    have ih : ∃ v c, (v, c) ∈ (if f 0 then r else l).codes ∧ c = (List.range c.length).map (f ∘ Nat.succ) := by
      cases f 0 with
      | false => exact ihl (f ∘ Nat.succ)
      | true => exact ihr (f ∘ Nat.succ)
    obtain ⟨v, c, hmem, hc⟩ := ih
    refine ⟨v, f 0 :: c, cons_mem_codes_node hmem, ?_⟩
    rw [List.length_cons, List.range_succ_eq_map, List.map_cons, List.map_map, ← hc]

/-- No code begins the code at another place of the table (R104). -/
theorem eq_of_code_prefix {T : HTree} {j k : Nat} {v w : Sym} {c d : Bits} (hj : T.codes[j]? = some (v, c))
    (hk : T.codes[k]? = some (w, d)) (h : c <+: d) : j = k := by
  obtain ⟨hjlt, hj⟩ := List.getElem?_eq_some_iff.mp hj
  obtain ⟨hklt, hk⟩ := List.getElem?_eq_some_iff.mp hk
  have hpair := List.pairwise_iff_getElem.mp (pairwise_codesIncomparable T)
  rcases Nat.lt_trichotomy j k with hlt | heq | hgt
  · have hne := hpair j k hjlt hklt hlt
    rw [hj, hk] at hne
    exact absurd h hne.1
  · exact heq
  · have hne := hpair k j hklt hjlt hgt
    rw [hj, hk] at hne
    exact absurd h hne.2

/-- Settles O51: each of the three claims by its own induction over the tree. -/
theorem codesArePrefixFree : Obligations.CodesArePrefixFree := fun T =>
  ⟨fun _ _ _ _ _ _ => eq_of_code_prefix, kraftSum_codes T, exists_code_prefix T⟩

end Sys2Proof.Machine
end

section
/-! PROOFS. The start commands (R122, R123): each is taken exactly in the phases in which its unit waits, which are `IDLE`,
`DONE` and `FAULT`. -/

namespace Sys2Proof.Machine

theorem EncPhase.waiting_iff (p : EncPhase) : p.waiting = true ↔ p = .idle ∨ p = .done ∨ p = .fault := by
  cases p <;> decide

theorem DecPhase.waiting_iff (p : DecPhase) : p.waiting = true ↔ p = .idle ∨ p = .done ∨ p = .fault := by
  cases p <;> decide

section Start
variable {s : State}

theorem exec_encStart_of_waiting (raw : List Byte) (h : s.enc.phase.waiting = true) :
    exec (.encStart raw) s = .next { s with
      enc := { s.enc with cnt := Vector.replicate nsym 0, err := .none, phase := .count }
      rin := { s.rin with data := raw, replay := raw, pos := 0 }
      cout := { s.cout with bits := [], closed := false } } :=
  if_pos h

theorem exec_encStart_of_not_waiting (raw : List Byte) (h : ¬ s.enc.phase.waiting = true) :
    exec (.encStart raw) s = .next s :=
  if_neg h

theorem exec_decStart_of_waiting (comp : Bits) (h : s.dec.phase.waiting = true) :
    exec (.decStart comp) s = .next { s with
      dec := { s.dec with dn := 0, dsp := 0, err := .none, phase := .rdmagic }
      cin := { s.cin with data := comp, pos := 0 }
      sout := { s.sout with bytes := [], closed := false } } :=
  if_pos h

theorem exec_decStart_of_not_waiting (comp : Bits) (h : ¬ s.dec.phase.waiting = true) :
    exec (.decStart comp) s = .next s :=
  if_neg h

end Start

/-- Settles O3: the three phases named are the waiting phases of ENC, on which the command branches. -/
theorem encStartBeginsOrIsIgnored : Obligations.EncStartBeginsOrIsIgnored := by
  intro raw s
  rw [← EncPhase.waiting_iff]
  exact ⟨exec_encStart_of_waiting raw, exec_encStart_of_not_waiting raw⟩

/-- Settles O4: the three phases named are the waiting phases of DEC, on which the command branches. -/
theorem decStartBeginsOrIsIgnored : Obligations.DecStartBeginsOrIsIgnored := by
  intro comp s
  rw [← DecPhase.waiting_iff]
  exact ⟨exec_decStart_of_waiting comp, exec_decStart_of_not_waiting comp⟩

end Sys2Proof.Machine
end

section
/-! PROOFS. The count pass (R130 to R132): what one ENC.COUNT does to the counts, then the tally of a whole input by induction
over the bytes still to be read. -/

namespace Sys2Proof.Machine

section Tally
variable {w : Nat} {cnt : Vector Nat nsym}

/-- The counts after one byte. -/
def countByte (w : Nat) (cnt : Vector Nat nsym) (r : Byte) : Vector Nat nsym :=
  cnt.set (byteIndex r) (satInc w cnt[byteIndex r])

/-- The counts after a sequence of bytes. -/
def tally (w : Nat) (cnt : Vector Nat nsym) (l : List Byte) : Vector Nat nsym := l.foldl (countByte w) cnt

theorem tally_cons (r : Byte) (l : List Byte) : tally w cnt (r :: l) = tally w (countByte w cnt r) l := rfl

theorem getElem_set_count_same (i : Fin nsym) (v : Nat) : (cnt.set i v)[i] = v := by
  simp only [Fin.getElem_fin, Vector.getElem_set_self]

theorem getElem_set_count_ne {i j : Fin nsym} (v : Nat) (h : j ≠ i) : (cnt.set i v)[j] = cnt[j] := by
  simp only [Fin.getElem_fin]
  exact Vector.getElem_set_ne _ _ fun e => h (Fin.ext e.symm)

theorem byteIndex_injective : Function.Injective byteIndex := fun _ _ h =>
  BitVec.eq_of_toNat_eq (Fin.mk.inj h)

theorem byteIndex_ne_eofIndex (r : Byte) : byteIndex r ≠ eofIndex := fun h =>
  Nat.ne_of_lt r.isLt (Fin.mk.inj h)

/-- Below its bound a counter is the exact number and the bound, whichever is less (R131). -/
theorem satInc_eq_min {v : Nat} (h : v ≤ 2 ^ w - 1) : satInc w v = min (v + 1) (2 ^ w - 1) := by
  unfold satInc
  split <;> omega

theorem getElem_tally (l : List Byte) (r : Byte) (h : cnt[byteIndex r] ≤ 2 ^ w - 1) :
    (tally w cnt l)[byteIndex r] = min (cnt[byteIndex r] + occurrences r l) (2 ^ w - 1) := by
  induction l generalizing cnt with
  | nil => exact (Nat.min_eq_left h).symm
  | cons x l ih =>
    rw [tally_cons, occurrences, List.countP_cons, ← occurrences]
    by_cases hx : x = r
    · subst hx
      have hcount : (countByte w cnt x)[byteIndex x] = min (cnt[byteIndex x] + 1) (2 ^ w - 1) :=
        (getElem_set_count_same ..).trans (satInc_eq_min h)
      rw [ih (by omega), hcount, if_pos (beq_self_eq_true x)]
      omega
    · have hcount : (countByte w cnt x)[byteIndex r] = cnt[byteIndex r] :=
        getElem_set_count_ne _ fun e => hx (byteIndex_injective e.symm)
      rw [ih (hcount ▸ h), hcount, if_neg (by simpa using hx), Nat.add_zero]

/-- ENC.START clears the counts, so the tally of the input is each byte's number of occurrences (R132). -/
theorem getElem_tally_zero (l : List Byte) (r : Byte) :
    (tally w (Vector.replicate nsym 0) l)[byteIndex r] = min (occurrences r l) (2 ^ w - 1) := by
  have hzero : (Vector.replicate nsym (0 : Nat))[byteIndex r] = 0 := Vector.getElem_replicate _
  rw [getElem_tally l r (hzero.trans_le (Nat.zero_le _)), hzero, Nat.zero_add]

end Tally

section CountPass
variable {s : State}

/-- The state in which the bytes `l` have been read from the raw input and counted. -/
def State.counted (s : State) (l : List Byte) : State :=
  { s with rin := { s.rin with pos := s.rin.pos + l.length }
           enc := { s.enc with cnt := tally s.cfg.cntW s.enc.cnt l } }

/-- The state after the end of the raw input was counted (R130). -/
def State.countEnded (s : State) : State :=
  { s with enc := { s.enc with cnt := s.enc.cnt.set eofIndex 1, phase := .qinit } }

@[simp] theorem counted_phase (l : List Byte) : (s.counted l).enc.phase = s.enc.phase := rfl
@[simp] theorem counted_valid (l : List Byte) : (s.counted l).rin.valid = s.rin.valid := rfl
@[simp] theorem counted_data (l : List Byte) : (s.counted l).rin.data = s.rin.data := rfl
@[simp] theorem counted_pos (l : List Byte) : (s.counted l).rin.pos = s.rin.pos + l.length := rfl

theorem counted_cons (r : Byte) (l : List Byte) : s.counted (r :: l) = (s.counted [r]).counted l := by
  simp only [State.counted, tally, List.foldl_cons, List.foldl_nil, List.length_cons, List.length_nil]
  rw [Nat.zero_add, Nat.add_assoc, Nat.add_comm 1]

theorem exec_encCount_of_byte {r : Byte} (hv : s.rin.valid = true) (hr : s.rin.data[s.rin.pos]? = some r) :
    exec .encCount s = .next (s.counted [r]) := by
  show execEncCount s = _
  rw [execEncCount, Rin.read_got hv hr]
  rfl

theorem exec_encCount_of_eos (hv : s.rin.valid = true) (hr : s.rin.data[s.rin.pos]? = none) :
    exec .encCount s = .next s.countEnded := by
  show execEncCount s = _
  rw [execEncCount, Rin.read_eos hv hr]
  rfl

theorem runUnit_enc_of_count (h : s.enc.phase = .count) : runUnit .enc s = exec .encCount s :=
  runUnit_some (by rw [fetchUnit_enc, h]; rfl)

/-- The bytes next at the raw input are counted in as many turns as there are of them, all in `COUNT`. -/
theorem turns_count (l : List Byte) (hp : s.enc.phase = .count) (hv : s.rin.valid = true)
    (hl : l <+: s.rin.data.drop s.rin.pos) : turns .enc l.length s = .next (s.counted l) := by
  induction l generalizing s with
  | nil => rfl
  | cons r l ih =>
    obtain ⟨rest, hrest⟩ := hl
    have hr : s.rin.data[s.rin.pos]? = some r := by rw [← List.head?_drop, ← hrest]; rfl
    have hnext : l <+: s.rin.data.drop (s.rin.pos + 1) := ⟨rest, by rw [← List.tail_drop, ← hrest]; rfl⟩
    rw [counted_cons, List.length_cons, turns, runUnit_enc_of_count hp, exec_encCount_of_byte hv hr]
    exact ih hp hv hnext

/-- From the start of the input on, `k` turns count its first `k` bytes. -/
theorem turns_count_take {k : Nat} (hp : s.enc.phase = .count) (hv : s.rin.valid = true) (h0 : s.rin.pos = 0)
    (hk : k ≤ s.rin.data.length) : turns .enc k s = .next (s.counted (s.rin.data.take k)) := by
  have hcount := turns_count (s.rin.data.take k) hp hv (by rw [h0]; exact List.take_prefix k _)
  rwa [List.length_take_of_le hk] at hcount

/-- From the start of the input on, one turn per byte and one more for its end (R132). -/
theorem turns_count_to_qinit (hp : s.enc.phase = .count) (hv : s.rin.valid = true) (h0 : s.rin.pos = 0) :
    turns .enc (s.rin.data.length + 1) s = .next (s.counted s.rin.data).countEnded := by
  have hread := turns_count_take hp hv h0 le_rfl
  rw [List.take_length] at hread
  rw [turns_then hread, turns_one, runUnit_enc_of_count ((counted_phase _).trans hp)]
  exact exec_encCount_of_eos hv (by simp [h0])

end CountPass

/-- Settles O6: one byte sets its own count only, and the end of the stream sets `cnt[256]` only. -/
theorem countTalliesOneItem : Obligations.CountTalliesOneItem := by
  intro s hv
  constructor
  · intro r hr
    exact ⟨_, exec_encCount_of_byte hv hr, getElem_set_count_same .., fun _ hx => getElem_set_count_ne _ hx, rfl⟩
  · intro hr
    exact ⟨_, exec_encCount_of_eos hv hr, getElem_set_count_same .., fun _ hx => getElem_set_count_ne _ hx, rfl⟩

/-- Settles O48: after `k` turns the first `k` bytes are tallied, in `COUNT`; the turn after the last byte ends the pass, and
sets a count that is no byte's. -/
theorem countPassTalliesTheInput : Obligations.CountPassTalliesTheInput := by
  intro s raw hw hv
  refine ⟨_, _, exec_encStart_of_waiting raw hw, turns_count_to_qinit rfl hv rfl,
    ?_, ?_, getElem_set_count_same .., rfl, ?_⟩
  · intro k hk
    exact ⟨_, turns_count_take rfl hv rfl hk, rfl⟩
  · intro r
    exact (getElem_set_count_ne 1 (byteIndex_ne_eofIndex r)).trans (getElem_tally_zero raw r)
  · simp [State.countEnded, State.counted]

end Sys2Proof.Machine
end

section
/-! PROOFS. The queue's minimum and the merging of its two lightest nodes (R141, R143): (weight, index) is a total order, so
`pickMin` names exactly the node that `IsQueueMin` describes, and each case of ENC.MERGE rests on that. -/

namespace Sys2Proof.Machine

section QueueMin
variable {node : Vector Node encNodeCap} {inq : Vector Bool encNodeCap} {a b i : Nat}

theorem QueueLE.antisymm (hab : QueueLE node a b) (hba : QueueLE node b a) : a = b := by
  unfold QueueLE at hab hba
  omega

theorem IsQueueMin.unique (ha : IsQueueMin node inq a) (hb : IsQueueMin node inq b) : a = b :=
  (ha.2 b hb.1).antisymm (hb.2 a ha.1)

theorem pickMin_of_argmin (draws : Nat) (h : argmin (weightAt node) (queueOf inq) = some a) :
    pickMin node inq draws = (a, draws) := by
  rw [pickMin, h]

/-- Of a queue with a member `pickMin` names a least member and draws no free value (R141). -/
theorem exists_isQueueMin_pickMin (h : inq[i]? = some true) :
    ∃ a, IsQueueMin node inq a ∧ ∀ draws, pickMin node inq draws = (a, draws) := by
  have hne : queueOf inq ≠ [] := List.ne_nil_of_mem (mem_queueOf.mpr h)
  obtain ⟨a, hargmin, hmem, hle⟩ := argmin_spec (weightAt node) (queueOf inq) hne
  exact ⟨a, ⟨mem_queueOf.mp hmem, fun j hj => hle j (mem_queueOf.mpr hj)⟩, fun draws => pickMin_of_argmin draws hargmin⟩

/-- The minimum a specification names is the one `pickMin` finds: there is only one. -/
theorem IsQueueMin.pickMin_eq (h : IsQueueMin node inq a) (draws : Nat) : pickMin node inq draws = (a, draws) := by
  obtain ⟨a', hmin, hpick⟩ := exists_isQueueMin_pickMin (node := node) h.1
  rw [h.unique hmin, hpick]

end QueueMin

section Merge
variable {s : State} {a b r : Nat}

/-- The state after the nodes `a` and `b` were joined under node `nn` (R143). -/
def State.joined (s : State) (a b : Nat) : State :=
  { s with enc := { s.enc with
      node := s.enc.node.setIfInBounds s.enc.nn
        { weight := (weightAt s.enc.node a + weightAt s.enc.node b) % 2 ^ s.cfg.wgtW, kind := .internal a b }
      inq := ((s.enc.inq.setIfInBounds a false).setIfInBounds b false).setIfInBounds s.enc.nn true
      nn := s.enc.nn + 1
      qsize := s.enc.qsize - 1 } }

/-- The state after `r` was named the root and the code generator was prepared (R143). -/
def State.rooted (s : State) (r : Nat) : State :=
  { s with enc := { s.enc with
      root := r
      codeValid := Vector.replicate nsym false
      stk := s.enc.stk.setIfInBounds 0 { node := r, len := 0, bits := 0#256 }
      sp := 1
      phase := .gen } }

theorem exec_encMerge_of_two (hq : 1 < s.enc.qsize) (hn : s.enc.nn < encNodeCap)
    (ha : IsQueueMin s.enc.node s.enc.inq a)
    (hb : IsQueueMin s.enc.node (s.enc.inq.setIfInBounds a false) b) :
    exec .encMerge s = .next (s.joined a b) := by
  show execEncMerge s = _
  rw [execEncMerge, if_pos hq]
  simp only [mergeTwo, ha.pickMin_eq, hb.pickMin_eq, if_pos hn]
  rfl

theorem exec_encMerge_of_one (hq : ¬ 1 < s.enc.qsize) (hr : IsQueueMin s.enc.node s.enc.inq r) :
    exec .encMerge s = .next (s.rooted r) := by
  show execEncMerge s = _
  rw [execEncMerge, if_neg hq]
  simp only [finishTree, hr.pickMin_eq]
  rfl

end Merge

/-- Settles O8: a member there is makes the queue's list nonempty, and no other member is least. -/
theorem queueMinimumIsLeastByWeightThenIndex : Obligations.QueueMinimumIsLeastByWeightThenIndex := by
  intro node inq draws i hi
  obtain ⟨a, hmin, hpick⟩ := exists_isQueueMin_pickMin (node := node) hi
  exact ⟨a, hmin, hpick draws, fun b hb => hb.unique hmin⟩

/-- Settles O9: the minima it speaks of are the ones `pickMin` finds, in the queue and in the queue without the first. -/
theorem mergeJoinsTheTwoLightest : Obligations.MergeJoinsTheTwoLightest := by
  intro s
  exact ⟨fun _ _ => exec_encMerge_of_two, fun _ => exec_encMerge_of_one⟩

end Sys2Proof.Machine
end

section
/-! PROOFS. The stream encoder (R170 to R176) and DEC's close (R194): one equation of `exec` per answer of the port that the
operation uses. -/

namespace Sys2Proof.Machine

section WriteCode
variable {e : Enc} {i : Fin nsym} {p : Cout}

theorem writeCode_open (hr : p.ready = true) (hc : p.closed = false) :
    writeCode e i p = .sent { p with bits := p.bits ++ codeOf e i } :=
  Cout.write_open hr hc

/-- An empty code needs no handshake and no open port (R64). -/
theorem writeCode_empty (h : e.codeLen[i] = 0) : writeCode e i p = .sent p := by
  rw [writeCode, h, Cout.write_nothing]

end WriteCode

section StreamEncoder
variable {s : State} {r : Byte}

theorem exec_encRewind : exec .encRewind s = .next { s with
    rin := { s.rin with data := s.rin.replay, pos := 0 }, enc := { s.enc with phase := .encode } } := rfl

theorem exec_encEncode_of_code {q : Cout} (hv : s.rin.valid = true) (hr : s.rin.data[s.rin.pos]? = some r)
    (hc : s.enc.codeValid[byteIndex r] = true) (hq : writeCode s.enc (byteIndex r) s.cout = .sent q) :
    exec .encEncode s = .next { s with rin := { s.rin with pos := s.rin.pos + 1 }, cout := q } := by
  show execEncEncode s = _
  simp only [execEncEncode, Rin.read_got hv hr, if_pos hc, hq]

theorem exec_encEncode_of_no_code (hv : s.rin.valid = true) (hr : s.rin.data[s.rin.pos]? = some r)
    (hc : s.enc.codeValid[byteIndex r] = false) :
    exec .encEncode s = .next { s with
      rin := { s.rin with pos := s.rin.pos + 1 }
      enc := { s.enc with err := .encNoCode, phase := .close } } := by
  show execEncEncode s = _
  simp only [execEncEncode, Rin.read_got hv hr, if_neg (Bool.eq_false_iff.mp hc), raise]

theorem exec_encEncode_of_eos (hv : s.rin.valid = true) (hr : s.rin.data[s.rin.pos]? = none) :
    exec .encEncode s = .next { s with enc := { s.enc with phase := .wreof } } := by
  show execEncEncode s = _
  simp only [execEncEncode, Rin.read_eos hv hr]

theorem exec_encWreof_of_sent {p : Cout} (hp : writeCode s.enc eofIndex s.cout = .sent p) :
    exec .encWreof s = .next { s with cout := p, enc := { s.enc with phase := .close } } := by
  show execEncWreof s = _
  simp only [execEncWreof, hp]

theorem exec_encClose_of_open (h : CoutOpen s) :
    exec .encClose s = .next { s with
      cout := { s.cout with closed := true }
      enc := { s.enc with phase := if s.enc.err = .none then .done else .fault } } := by
  show execEncClose s = _
  simp only [execEncClose, Cout.close_open h.1 h.2]

theorem exec_decClose_of_open (h : SoutOpen s) :
    exec .decClose s = .next { s with
      sout := { s.sout with closed := true }
      dec := { s.dec with phase := if s.dec.err = .none then .done else .fault } } := by
  show execDecClose s = _
  simp only [execDecClose, Sout.close_open h.1 h.2]

end StreamEncoder

/-- Settles O14: the phase plays no part, and what the input delivers afterwards is its replay (R75). -/
theorem rewindRestartsTheInput : Obligations.RewindRestartsTheInput := fun _ => exec_encRewind

/-- Settles O15: the read answers a byte or `EOS`, and a byte has a code or has none. -/
theorem encodeWritesOneCode : Obligations.EncodeWritesOneCode := by
  intro s hv
  refine ⟨?_, ?_, ?_⟩
  · rintro r hr hc ⟨hready, hopen⟩
    exact exec_encEncode_of_code hv hr hc (writeCode_open hready hopen)
  · exact fun r hr hc => exec_encEncode_of_no_code hv hr hc
  · exact exec_encEncode_of_eos hv

/-- Settles O16: an open output takes the code of symbol 256; an empty code leaves any output as it was. -/
theorem wreofWritesTheTerminator : Obligations.WreofWritesTheTerminator := by
  intro s
  constructor
  · rintro ⟨hready, hopen⟩
    exact exec_encWreof_of_sent (writeCode_open hready hopen)
  · exact fun hempty => exec_encWreof_of_sent (writeCode_empty hempty)

/-- Settles O17: an open output is closed, and `err` alone decides between `DONE` and `FAULT`. -/
theorem closeEndsTheRun : Obligations.CloseEndsTheRun := fun _ => ⟨exec_encClose_of_open, exec_decClose_of_open⟩

end Sys2Proof.Machine
end

section
/-! PROOFS. DEC's header reader (R180 to R184): what a read of the bits on the compressed input answers, then one equation of
`exec` per way that DEC.RDMAGIC, DEC.RDHDR and a record item can go. -/

namespace Sys2Proof.Machine

/-- A word is read back from its own bits. -/
theorem ofNat_valueOf_bits {n : Nat} (v : BitVec n) : BitVec.ofNat n (valueOf (bits n v.toNat)) = v := by
  rw [valueOf_bits, Nat.mod_eq_of_lt v.isLt, BitVec.ofNat_toNat, BitVec.setWidth_eq]

section Presented
variable {s : State} {item : Bits}

theorem CinPresents.read_got {n : Nat} (h : CinPresents item s) (hn : item.length = n) :
    s.cin.read n = .got (valueOf item) { s.cin with pos := s.cin.pos + n } := by
  obtain ⟨hv, hroom, hbits⟩ := h
  subst hn
  rw [Cin.read_got hv hroom, hbits]

theorem CinPresents.of_cons {x : Bool} (h : CinPresents (x :: item) s) :
    CinPresents [x] s ∧ CinPresents item (pastItem 1 s) := by
  obtain ⟨hv, hroom, hbits⟩ := h
  simp only [List.length_cons, Nat.add_comm item.length 1, List.take_add, List.drop_drop] at hroom hbits
  obtain ⟨hx, hitem⟩ := List.append_inj (s₂ := [x]) hbits
    (by rw [List.length_take, List.length_drop, List.length_singleton]; omega)
  refine ⟨⟨hv, ?_, hx⟩, hv, ?_, hitem⟩
  · rw [List.length_singleton]; omega
  · simp only [pastItem]; omega

end Presented

section HeaderReader
variable {s : State}

theorem exec_decRdmagic_of_word {m : MagicWord} (h : CinPresents (bits 32 m.toNat) s) :
    exec .decRdmagic s = takeMagic m (pastItem 32 s) := by
  show execDecRdmagic s = _
  simp only [execDecRdmagic, h.read_got (length_bits 32 _), ofNat_valueOf_bits, pastItem]

theorem exec_decRdmagic_of_short (hv : s.cin.valid = true) (h : s.cin.data.length - s.cin.pos < 32) :
    exec .decRdmagic s = .next { s with
      cin := { s.cin with pos := s.cin.data.length }, dec := { s.dec with err := .formatError, phase := .close } } := by
  show execDecRdmagic s = _
  simp only [execDecRdmagic, Cin.read_eos hv h, raise]

theorem exec_decRdhdr_of_no_bit (hv : s.cin.valid = true) (h : s.cin.data.length ≤ s.cin.pos) :
    exec .decRdhdr s = .next { s with
      cin := { s.cin with pos := s.cin.data.length }, dec := { s.dec with err := .headerCorrupt, phase := .close } } := by
  show execDecRdhdr s = _
  simp only [execDecRdhdr, Cin.read_eos (n := 1) hv (by omega), raise]

theorem exec_decRdhdr_of_cut_leaf (h : CinPresents [true] s) (hcut : s.cin.data.length - s.cin.pos < 10) :
    exec .decRdhdr s = .next { s with
      cin := { s.cin with pos := s.cin.data.length }, dec := { s.dec with err := .headerCorrupt, phase := .close } } := by
  have hshort : (pastItem 1 s).cin.read 9 = .eos { s.cin with pos := s.cin.data.length } :=
    Cin.read_eos h.1 (by simp only [pastItem]; omega)
  rw [pastItem] at hshort
  show execDecRdhdr s = _
  simp only [execDecRdhdr, h.read_got (n := 1) rfl, valueOf_singleton, Bool.toNat_true, if_true, hshort, raise]

/-- A whole record on the input is read, and then taken (R182). -/
theorem exec_decRdhdr_of_record {r : Option Sym} (h : CinPresents (recordBits r) s) :
    exec .decRdhdr s = takeRecord r (pastItem (recordBits r).length s) := by
  show execDecRdhdr s = _
  cases r with
  | none =>
    have htag : s.cin.read 1 = .got 0 { s.cin with pos := s.cin.pos + 1 } := h.read_got rfl
    rw [execDecRdhdr, htag]
    rfl
  | some v =>
    obtain ⟨htag, hvalue⟩ : CinPresents [true] s ∧ CinPresents (bits 9 v.toNat) (pastItem 1 s) := CinPresents.of_cons h
    have hread := hvalue.read_got (length_bits 9 _)
    rw [pastItem] at hread
    simp only [execDecRdhdr, htag.read_got (n := 1) rfl, valueOf_singleton, Bool.toNat_true, if_true, hread,
      ofNat_valueOf_bits]
    rfl

/-- The record as an item, in the phase that reads it, is taken likewise (R95, R96). -/
theorem exec_recordItem_of_rdhdr (r : Option Sym) (hp : s.dec.phase = .rdhdr) (hv : s.cin.valid = true) :
    exec (recordItem r) s = takeRecord r (pastItem (recordBits r).length s) := by
  cases r with
  | none => exact if_pos ⟨hp, hv⟩
  | some v => exact if_pos ⟨hp, hv⟩

theorem takeRecord_of_full (r : Option Sym) (h : s.dec.dn = s.cfg.decNodeCap) :
    takeRecord r s = .next { s with dec := { s.dec with err := .headerCapacity, phase := .close } } :=
  if_pos h

end HeaderReader

/-- Settles O18: a whole word is compared as the number its bits stand for, and a short read raises without a comparison. -/
theorem rdmagicChecksTheMagic : Obligations.RdmagicChecksTheMagic := by
  intro s
  refine ⟨?_, ?_, exec_decRdmagic_of_short⟩
  · exact fun m hm heq => (exec_decRdmagic_of_word hm).trans (if_pos heq)
  · exact fun m hm hne => (exec_decRdmagic_of_word hm).trans (if_neg hne)

/-- Settles O20: the reads come before the check of the store, which reads and items reach with the record consumed. -/
theorem rdhdrRaisesInOrder : Obligations.RdhdrRaisesInOrder := by
  intro s hv
  refine ⟨exec_decRdhdr_of_no_bit hv, exec_decRdhdr_of_cut_leaf, ?_, ?_⟩
  · exact fun r hr hfull => (exec_decRdhdr_of_record hr).trans (takeRecord_of_full r hfull)
  · exact fun r hp hfull => (exec_recordItem_of_rdhdr r hp hv).trans (takeRecord_of_full r hfull)

end Sys2Proof.Machine
end

section
/-! PROOFS. DEC's stream decoder (R190 to R196): one equation of `exec` per way that one DEC.DECODE can go, then the
walk over a whole body, by induction over the bits still to be read. -/

namespace Sys2Proof.Machine

section DecodeBit
variable {s : State}

theorem exec_decDecode_of_leaf_root {v : Sym} (h : s.dec.dnode[s.dec.droot]? = some (.leaf v)) :
    exec .decDecode s = .next { s with dec := { s.dec with phase := .close } } := by
  show execDecDecode s = _
  simp only [execDecDecode, rootIsLeaf_leaf h]

variable {rl rr : Option Nat} (hroot : s.dec.dnode[s.dec.droot]? = some (.internal rl rr))
include hroot

theorem exec_decDecode_of_no_bit (hv : s.cin.valid = true) (hend : s.cin.data.length ≤ s.cin.pos) :
    exec .decDecode s = .next { s with
      cin := { s.cin with pos := s.cin.data.length }
      dec := { s.dec with err := .decodeTermination, phase := .close } } := by
  show execDecDecode s = _
  simp only [execDecDecode, rootIsLeaf_internal hroot, Cin.read_eos (n := 1) hv (by omega), raise]

theorem exec_decDecode_of_bit {b : Bool} (h : CinPresents [b] s) :
    exec .decDecode s = takeBit b s (pastItem 1 s) := by
  show execDecDecode s = _
  simp only [execDecDecode, rootIsLeaf_internal hroot, h.read_got (n := 1) rfl, valueOf_singleton, Bool.toNat_eq_one,
    Bool.decide_eq_true, pastItem]

variable {b : Bool} {n : DNode} {c : Nat} (hbit : CinPresents [b] s) (hcur : s.dec.dnode[s.dec.cur]? = some n)
  (hchild : n.child b = some c)
include hbit hcur hchild

theorem exec_decDecode_to_internal {l r : Option Nat} (h : s.dec.dnode[c]? = some (.internal l r)) :
    exec .decDecode s = .next { s with
      cin := { s.cin with pos := s.cin.pos + 1 }, dec := { s.dec with cur := c } } := by
  rw [exec_decDecode_of_bit hroot hbit]
  simp only [takeBit, pastItem, hcur, hchild, h]

theorem exec_decDecode_to_eof (h : s.dec.dnode[c]? = some (.leaf pseudoEof)) :
    exec .decDecode s = .next { s with
      cin := { s.cin with pos := s.cin.pos + 1 }, dec := { s.dec with cur := c, phase := .close } } := by
  rw [exec_decDecode_of_bit hroot hbit]
  simp only [takeBit, pastItem, hcur, hchild, h, if_true]

theorem exec_decDecode_to_literal {v : Sym} (hv : v ≠ pseudoEof) (h : s.dec.dnode[c]? = some (.leaf v))
    (hs : SoutOpen s) :
    exec .decDecode s = .next { s with
      cin := { s.cin with pos := s.cin.pos + 1 }
      sout := { s.sout with bytes := s.sout.bytes ++ [lowByte v] }
      dec := { s.dec with cur := s.dec.droot } } := by
  rw [exec_decDecode_of_bit hroot hbit]
  simp only [takeBit, pastItem, hcur, hchild, h, if_neg hv, Sout.write_open hs.1 hs.2]

end DecodeBit

/-- Settles O24: the root decides whether a bit is read, and the child that the bit selects decides what it does. -/
theorem decodeWalksOneBit : Obligations.DecodeWalksOneBit := by
  intro s
  refine ⟨fun v => exec_decDecode_of_leaf_root, fun rl rr hroot => ⟨exec_decDecode_of_no_bit hroot, ?_⟩⟩
  intro b l r c hbit hcur hchild
  refine ⟨?_, ?_, ?_⟩
  · exact fun cl cr => exec_decDecode_to_internal hroot hbit hcur hchild
  · exact exec_decDecode_to_eof hroot hbit hcur hchild
  · exact fun v => exec_decDecode_to_literal hroot hbit hcur hchild

section Walk
variable {s : State} {root l r : HTree} {b : Bool} {bs : Bits}

/-- The state after `n` bits were read and `out` was written, with the walker on node `k`. -/
def State.walked (s : State) (n : Nat) (out : List Byte) (k : Nat) : State :=
  { s with cin := { s.cin with pos := s.cin.pos + n }
           sout := { s.sout with bytes := s.sout.bytes ++ out }
           dec := { s.dec with cur := k } }

/-- The state after the body has ended: at the leaf of 256, or else at the end of the stream (R191, R192). -/
def State.bodyEnded (s : State) (ended : Bool) : State :=
  { s with dec := { s.dec with err := if ended then s.dec.err else .decodeTermination, phase := .close } }

/-- DEC decodes, its ports ready, with the walker on the root of the subtree `cur` of the tree `root`. -/
structure Decoding (root cur : HTree) (s : State) : Prop where
  phase : s.dec.phase = .decode
  valid : s.cin.valid = true
  soutOpen : SoutOpen s
  root : DNodeRep s.dec.dnode root s.dec.droot
  cur : DNodeRep s.dec.dnode cur s.dec.cur

/-- From `s`, DEC does to the end of the body what the walk result `w` says, one turn per bit (R196). -/
def WalkEnds (s : State) (w : List Byte × Bool × Nat) : Prop :=
  ∃ k, turns .dec (if w.2.1 then w.2.2 else w.2.2 + 1) s = .next ((s.walked w.2.2 w.1 k).bodyEnded w.2.1) ∧
    (w.2.1 = false → s.cin.pos + w.2.2 = s.cin.data.length)

theorem walked_walked (m n : Nat) (o p : List Byte) (j k : Nat) :
    (s.walked m o j).walked n p k = s.walked (n + m) (o ++ p) k := by
  simp only [State.walked, List.append_assoc, Nat.add_assoc, Nat.add_comm m n]

theorem runUnit_dec_of_decode (h : s.dec.phase = .decode) : runUnit .dec s = exec .decDecode s :=
  runUnit_some (by rw [fetchUnit_dec, h]; rfl)

/-- One turn in front of a walk. -/
theorem WalkEnds.cons {o : List Byte} {j : Nat} {w : List Byte × Bool × Nat}
    (hrun : runUnit .dec s = .next (s.walked 1 o j)) (h : WalkEnds (s.walked 1 o j) w) :
    WalkEnds s (o ++ w.1, w.2.1, w.2.2 + 1) := by
  obtain ⟨k, hturns, hend⟩ := h
  have hcount : (if w.2.1 then w.2.2 + 1 else w.2.2 + 1 + 1) = (if w.2.1 then w.2.2 else w.2.2 + 1) + 1 := by
    split <;> rfl
  rw [walked_walked] at hturns
  refine ⟨k, ?_, fun he => ?_⟩
  · simp only [hcount, turns, hrun, hturns]
  · have hend := hend he
    simp only [State.walked] at hend ⊢
    omega

theorem cinPresents_of_drop_eq_cons (hv : s.cin.valid = true) (h : s.cin.data.drop s.cin.pos = b :: bs) :
    CinPresents [b] s := by
  refine ⟨hv, ?_, by rw [h]; rfl⟩
  rw [← List.length_drop, h]
  exact Nat.succ_le_succ (Nat.zero_le _)

theorem bodyWalk_cons_of_node {l' r' : HTree} (h : (if b then r else l) = .node l' r') :
    bodyWalk root (.node l r) (b :: bs) =
      ([] ++ (bodyWalk root (.node l' r') bs).1, (bodyWalk root (.node l' r') bs).2.1,
        (bodyWalk root (.node l' r') bs).2.2 + 1) := by
  simp only [bodyWalk, h, List.nil_append]

theorem bodyWalk_cons_of_eof (h : (if b then r else l) = .leaf pseudoEof) :
    bodyWalk root (.node l r) (b :: bs) = ([], true, 1) := by
  simp only [bodyWalk, h, if_true]

theorem bodyWalk_cons_of_literal {v : Sym} (h : (if b then r else l) = .leaf v) (hv : v ≠ pseudoEof) :
    bodyWalk root (.node l r) (b :: bs) =
      ([lowByte v] ++ (bodyWalk root root bs).1, (bodyWalk root root bs).2.1, (bodyWalk root root bs).2.2 + 1) := by
  simp only [bodyWalk, h, if_neg hv, List.singleton_append]

section Turn
variable {rl rr : HTree} (h : Decoding (.node rl rr) (.node l r) s)
include h

theorem Decoding.walked {cur : HTree} {k : Nat} (hk : DNodeRep s.dec.dnode cur k) (n : Nat) (out : List Byte) :
    Decoding (.node rl rr) cur (s.walked n out k) :=
  ⟨h.phase, h.valid, h.soutOpen, h.root, hk⟩

/-- In the store, too, the bit selects the child. -/
theorem Decoding.exists_child (b : Bool) :
    ∃ n c, s.dec.dnode[s.dec.cur]? = some n ∧ n.child b = some c ∧ DNodeRep s.dec.dnode (if b then r else l) c := by
  obtain ⟨x, y, hn, hl, hr⟩ := h.cur
  cases b with
  | false => exact ⟨_, x, hn, rfl, hl⟩
  | true => exact ⟨_, y, hn, rfl, hr⟩

theorem Decoding.runUnit_to_node {l' r' : HTree} (hbit : CinPresents [b] s)
    (hchild : (if b then r else l) = .node l' r') :
    ∃ k, runUnit .dec s = .next (s.walked 1 [] k) ∧ Decoding (.node rl rr) (.node l' r') (s.walked 1 [] k) := by
  obtain ⟨_, _, hroot, -, -⟩ := h.root
  obtain ⟨n, c, hn, hc, hrep⟩ := h.exists_child b
  rw [hchild] at hrep
  refine ⟨c, ?_, h.walked hrep 1 []⟩
  obtain ⟨_, _, hm, -, -⟩ := hrep
  rw [runUnit_dec_of_decode h.phase, exec_decDecode_to_internal hroot hbit hn hc hm, State.walked, List.append_nil]

theorem Decoding.runUnit_to_eof (hbit : CinPresents [b] s) (hchild : (if b then r else l) = .leaf pseudoEof) :
    ∃ k, runUnit .dec s = .next ((s.walked 1 [] k).bodyEnded true) := by
  obtain ⟨_, _, hroot, -, -⟩ := h.root
  obtain ⟨n, c, hn, hc, hrep⟩ := h.exists_child b
  rw [hchild] at hrep
  refine ⟨c, ?_⟩
  rw [runUnit_dec_of_decode h.phase, exec_decDecode_to_eof hroot hbit hn hc hrep, State.walked, List.append_nil]
  rfl

theorem Decoding.runUnit_to_literal {v : Sym} (hbit : CinPresents [b] s) (hchild : (if b then r else l) = .leaf v)
    (hv : v ≠ pseudoEof) :
    runUnit .dec s = .next (s.walked 1 [lowByte v] s.dec.droot) ∧
      Decoding (.node rl rr) (.node rl rr) (s.walked 1 [lowByte v] s.dec.droot) := by
  obtain ⟨_, _, hroot, -, -⟩ := h.root
  obtain ⟨n, c, hn, hc, hrep⟩ := h.exists_child b
  rw [hchild] at hrep
  refine ⟨?_, h.walked h.root 1 _⟩
  rw [runUnit_dec_of_decode h.phase, exec_decDecode_to_literal hroot hbit hn hc hv hrep h.soutOpen, State.walked]

/-- From any node of the tree that is no leaf, DEC walks the rest of the body (R196). -/
theorem Decoding.walkEnds (hbs : s.cin.data.drop s.cin.pos = bs) (hpos : s.cin.pos ≤ s.cin.data.length) :
    WalkEnds s (bodyWalk (.node rl rr) (.node l r) bs) := by
  induction bs generalizing s l r with
  | nil =>
    obtain ⟨_, _, hroot, -, -⟩ := h.root
    have hend : s.cin.data.length = s.cin.pos := Nat.le_antisymm (List.drop_eq_nil_iff.mp hbs) hpos
    have hrun := exec_decDecode_of_no_bit hroot h.valid hend.le
    rw [← runUnit_dec_of_decode h.phase, hend] at hrun
    refine ⟨s.dec.cur, ?_, fun _ => hend.symm⟩
    simp [bodyWalk, turns, hrun, State.walked, State.bodyEnded]
  | cons b bs ih =>
    have hbit := cinPresents_of_drop_eq_cons h.valid hbs
    have hrest : s.cin.data.drop (s.cin.pos + 1) = bs := by rw [← List.tail_drop, hbs]; rfl
    have hroom : s.cin.pos + 1 ≤ s.cin.data.length := by
      obtain ⟨-, hle, -⟩ := hbit
      rw [List.length_singleton] at hle
      omega
    cases hchild : (if b then r else l) with
    | node l' r' =>
      obtain ⟨k, hrun, hdec⟩ := h.runUnit_to_node hbit hchild
      rw [bodyWalk_cons_of_node hchild]
      exact (ih hdec hrest hroom).cons hrun
    | leaf v =>
      by_cases hv : v = pseudoEof
      · subst hv
        obtain ⟨k, hrun⟩ := h.runUnit_to_eof hbit hchild
        rw [bodyWalk_cons_of_eof hchild]
        exact ⟨k, (turns_one _ _).trans hrun, fun hne => by cases hne⟩
      · obtain ⟨hrun, hdec⟩ := h.runUnit_to_literal hbit hchild hv
        rw [bodyWalk_cons_of_literal hchild hv]
        exact (ih hdec hrest hroom).cons hrun

end Turn

end Walk

/-- Settles O56: the walk from the root, which is `Decoding.walkEnds` for the whole tree and the rest of the stream. -/
theorem decoderComputesTheWalk : Obligations.DecoderComputesTheWalk := by
  intro s l r hp herr hv hs hcur hroot hpos out ended n hw
  have hdec : Decoding (.node l r) (.node l r) s := ⟨hp, hv, hs, hroot, by rw [hcur]; exact hroot⟩
  have hends := hdec.walkEnds rfl hpos
  rw [hw] at hends
  obtain ⟨k, hturns, hend⟩ := hends
  refine ⟨_, hturns, ?_, hend⟩
  simp only [State.walked, State.bodyEnded, herr]

end Sys2Proof.Machine
end

section
/-! PROOFS. The tree builder (R140 to R145): the queue holds the roots of a forest. ENC.QINIT plants one leaf per
present symbol, each merge replaces two trees by one, and the leaves of the forest stay the present symbols. -/

namespace Sys2Proof.Machine

/-- A write above a tree's root leaves the tree: a child's index is lower than its parent's (R145). -/
theorem NodeRep.set_above {node : Vector Node encNodeCap} {T : HTree} {i k : Nat} (h : NodeRep node T i) (hik : i < k)
    (x : Node) : NodeRep (node.setIfInBounds k x) T i := by
  induction T generalizing i with
  | leaf v =>
    obtain ⟨w, hw⟩ := h
    exact ⟨w, by rw [Vector.getElem?_setIfInBounds_ne (by omega), hw]⟩
  | node l r ihl ihr =>
    obtain ⟨w, a, b, hn, ha, hb, hl, hr⟩ := h
    have hkept : (node.setIfInBounds k x)[i]? = node[i]? := Vector.getElem?_setIfInBounds_ne (by omega)
    exact ⟨w, a, b, hkept.trans hn, ha, hb, ihl hl (by omega), ihr hr (by omega)⟩

/-- The symbol of an index of the symbol space (R46). -/
def symbolAt (i : Fin nsym) : Sym := BitVec.ofNat 9 i.val

theorem symbolAt_toNat (i : Fin nsym) : (symbolAt i).toNat = i.val :=
  BitVec.toNat_ofNat .. |>.trans (Nat.mod_eq_of_lt (Nat.lt_trans i.isLt (by decide)))

theorem eq_symbolAt {v : Sym} {i : Fin nsym} (h : v.toNat = i.val) : v = symbolAt i :=
  BitVec.eq_of_toNat_eq (h.trans (symbolAt_toNat i).symm)

theorem symbolAt_injective : Function.Injective symbolAt := fun i j h =>
  Fin.ext (by rw [← symbolAt_toNat i, h, symbolAt_toNat])

/-- The builder's registers, as ENC.QINIT holds them in its loop. -/
def Enc.fill (e : Enc) : LeafFill := { node := e.node, inq := e.inq, nn := e.nn }

/-- The node `x` allocated at `nn` and put in the queue (R142, R143). -/
def LeafFill.plant (f : LeafFill) (x : Node) : LeafFill :=
  { node := f.node.setIfInBounds f.nn x, inq := f.inq.setIfInBounds f.nn true, nn := f.nn + 1 }

/-- The node `i` taken off the queue (R143). -/
def LeafFill.unqueue (f : LeafFill) (i : Nat) : LeafFill := { f with inq := f.inq.setIfInBounds i false }

/-- The state with these builder's registers and queue size. -/
def State.planted (s : State) (f : LeafFill) (n : Nat) : State :=
  { s with enc := { s.enc with node := f.node, inq := f.inq, nn := f.nn, qsize := n } }

/-- The state after ENC.QINIT (R142). -/
def State.leavesPlanted (s : State) : State :=
  { s with enc := { s.enc with phase := .merge } }.planted (insertLeaves s.enc) (insertLeaves s.enc).nn

/-- The queue's members are the roots of the trees of `q`, all of them below `nn`. -/
structure Forest (f : LeafFill) (q : List (Nat × HTree)) : Prop where
  nodup : (q.map Prod.fst).Nodup
  mem_queue : ∀ i, f.inq[i]? = some true ↔ i ∈ q.map Prod.fst
  tree : ∀ p ∈ q, p.1 < f.nn ∧ NodeRep f.node p.2 p.1

/-- The leaf values of all trees of a forest. -/
def forestLeaves (q : List (Nat × HTree)) : List Sym := q.flatMap fun p => HTree.leafValues p.2

section Forest
variable {f : LeafFill} {q q' : List (Nat × HTree)} {i : Nat} {t : HTree}

theorem forestLeaves_cons : forestLeaves ((i, t) :: q) = HTree.leafValues t ++ forestLeaves q := rfl

theorem forestLeaves_perm (h : q.Perm q') : (forestLeaves q).Perm (forestLeaves q') := h.flatMap_right _

theorem forest_empty (node : Vector Node encNodeCap) :
    Forest { node := node, inq := Vector.replicate encNodeCap false, nn := 0 } [] where
  nodup := List.nodup_nil
  mem_queue i := by simp [Vector.getElem?_replicate]
  tree p hp := by cases hp

theorem Forest.perm (h : Forest f q) (hp : q.Perm q') : Forest f q' where
  nodup := (hp.map _).nodup_iff.mp h.nodup
  mem_queue i := (h.mem_queue i).trans (hp.map _).mem_iff
  tree p hq := h.tree p (hp.mem_iff.mpr hq)

theorem Forest.unqueue (h : Forest f ((i, t) :: q)) : Forest (f.unqueue i) q where
  nodup := (List.nodup_cons.mp h.nodup).2
  mem_queue j := by
    have hi : i ∉ q.map Prod.fst := (List.nodup_cons.mp h.nodup).1
    have hj := h.mem_queue j
    simp only [List.map_cons, List.mem_cons] at hj
    by_cases hij : j = i
    · subst hij
      simp [LeafFill.unqueue, Vector.getElem?_setIfInBounds, hi]
    · rw [LeafFill.unqueue, Vector.getElem?_setIfInBounds_ne (Ne.symm hij), hj, or_iff_right hij]
  tree p hp := h.tree p (List.mem_cons_of_mem _ hp)

theorem Forest.plant {x : Node} (h : Forest f q) (hn : f.nn < encNodeCap) (ht : NodeRep (f.plant x).node t f.nn) :
    Forest (f.plant x) ((f.nn, t) :: q) where
  nodup := by
    refine List.nodup_cons.mpr ⟨fun hmem => ?_, h.nodup⟩
    obtain ⟨p, hp, hpn⟩ := List.mem_map.mp hmem
    exact absurd (h.tree p hp).1 (by omega)
  mem_queue j := by
    rw [List.map_cons, List.mem_cons, ← h.mem_queue j]
    by_cases hj : j = f.nn
    · subst hj
      simp [LeafFill.plant, hn]
    · rw [LeafFill.plant, Vector.getElem?_setIfInBounds_ne (Ne.symm hj), or_iff_right hj]
  tree p hp := by
    rcases List.mem_cons.mp hp with rfl | hp
    · exact ⟨Nat.lt_succ_self _, ht⟩
    · obtain ⟨hlt, hrep⟩ := h.tree p hp
      exact ⟨Nat.lt_succ_of_lt hlt, hrep.set_above hlt x⟩

/-- The queue's minimum is the root of one of the trees. -/
theorem Forest.exists_min (h : Forest f q) (hq : q ≠ []) :
    ∃ a t q', IsQueueMin f.node f.inq a ∧ q.Perm ((a, t) :: q') := by
  obtain ⟨p, hp⟩ := List.exists_mem_of_ne_nil q hq
  obtain ⟨a, hmin, -⟩ := exists_isQueueMin_pickMin (node := f.node) ((h.mem_queue p.1).mpr (List.mem_map_of_mem hp))
  obtain ⟨⟨_, t⟩, hmem, rfl⟩ := List.mem_map.mp ((h.mem_queue a).mp hmin.1)
  exact ⟨_, t, q.erase _, hmin, List.perm_cons_erase hmem⟩

/-- Joining the two lightest trees leaves a forest of one tree less with the same leaves (R143). -/
theorem Forest.join (h : Forest f q) (hq : 1 < q.length) (hn : f.nn < encNodeCap) :
    ∃ a b q', IsQueueMin f.node f.inq a ∧ IsQueueMin f.node (f.unqueue a).inq b ∧ q'.length + 1 = q.length ∧
      (forestLeaves q').Perm (forestLeaves q) ∧
      ∀ w, Forest (((f.unqueue a).unqueue b).plant { weight := w, kind := .internal a b }) q' := by
  obtain ⟨a, ta, qa, hmina, hpa⟩ := h.exists_min (List.ne_nil_of_length_pos (by omega))
  have ha := (h.perm hpa).unqueue
  have hlena := hpa.length_eq
  rw [List.length_cons] at hlena
  obtain ⟨b, tb, qb, hminb, hpb⟩ := ha.exists_min (List.ne_nil_of_length_pos (by omega))
  have hpab : q.Perm ((a, ta) :: (b, tb) :: qb) := hpa.trans (hpb.cons _)
  obtain ⟨hlta, hrepa⟩ := h.tree _ (hpab.mem_iff.mpr (List.mem_cons_self ..))
  obtain ⟨hltb, hrepb⟩ := h.tree _ (hpab.mem_iff.mpr (List.mem_cons_of_mem _ (List.mem_cons_self ..)))
  refine ⟨a, b, (f.nn, .node ta tb) :: qb, hmina, hminb, hpab.length_eq.symm, ?_, fun w => ?_⟩
  · refine List.Perm.trans (List.Perm.of_eq ?_) (forestLeaves_perm hpab).symm
    simp only [forestLeaves_cons, HTree.leafValues, List.append_assoc]
  · refine (ha.perm hpb).unqueue.plant hn ⟨w, a, b, ?_, hlta, hltb, hrepa.set_above hlta _, hrepb.set_above hltb _⟩
    simp [LeafFill.plant, LeafFill.unqueue, hn]

end Forest

section Qinit
variable {cnt : Vector Nat nsym} {f : LeafFill} {q : List (Nat × HTree)}

theorem insertLeaf_of_zero {i : Fin nsym} (h : cnt[i] = 0) : insertLeaf cnt f i = f := if_pos h

theorem insertLeaf_of_ne_zero {i : Fin nsym} (h : cnt[i] ≠ 0) :
    insertLeaf cnt f i = f.plant { weight := cnt[i], kind := .leaf (symbolAt i) } := if_neg h

/-- While no merge has been made, every node is the root of its tree: the forest has `nn` trees. -/
theorem Forest.insertLeaf_foldl (l : List (Fin nsym)) (h : Forest f q) (hnn : f.nn = q.length)
    (hroom : f.nn + l.length ≤ encNodeCap) :
    ∃ q', Forest (l.foldl (insertLeaf cnt) f) q' ∧ (l.foldl (insertLeaf cnt) f).nn = q'.length ∧
      q'.length = q.length + (l.filter fun i => cnt[i] ≠ 0).length ∧
      (forestLeaves q').Perm (((l.filter fun i => cnt[i] ≠ 0).map symbolAt) ++ forestLeaves q) := by
  induction l generalizing f q with
  | nil => exact ⟨q, h, hnn, rfl, .rfl⟩
  | cons i l ih =>
    rw [List.length_cons] at hroom
    rw [List.foldl_cons]
    by_cases hi : cnt[i] = 0
    · rw [insertLeaf_of_zero hi, List.filter_cons_of_neg (by simpa using hi)]
      exact ih h hnn (by omega)
    · have hplant := h.plant (t := .leaf (symbolAt i))
        (x := { weight := cnt[i], kind := .leaf (symbolAt i) }) (by omega)
        ⟨cnt[i], by simp [LeafFill.plant, show f.nn < encNodeCap by omega]⟩
      obtain ⟨q', hforest, hnn', hlen, hleaves⟩ :=
        ih hplant (congrArg Nat.succ hnn) (by simp only [LeafFill.plant]; omega)
      rw [insertLeaf_of_ne_zero hi, List.filter_cons_of_pos (by simpa using hi)]
      refine ⟨q', hforest, hnn', ?_, hleaves.trans ?_⟩
      · rw [hlen, List.length_cons, List.length_cons]
        omega
      · rw [forestLeaves_cons, List.map_cons]
        exact List.perm_middle

theorem length_presentSymbols_le : (presentSymbols cnt).length ≤ nsym :=
  (List.length_filter_le _ _).trans (List.length_finRange).le

/-- ENC.QINIT leaves the forest of the present symbols' leaves (R142). -/
theorem insertLeaves_forest (e : Enc) :
    ∃ q, Forest (insertLeaves e) q ∧ (insertLeaves e).nn = q.length ∧ q.length = (presentSymbols e.cnt).length ∧
      (forestLeaves q).Perm ((presentSymbols e.cnt).map symbolAt) := by
  obtain ⟨q, hforest, hnn, hlen, hleaves⟩ :=
    (forest_empty e.node).insertLeaf_foldl (cnt := e.cnt) (List.finRange nsym) rfl
      (by rw [List.length_finRange]; exact (by decide : 0 + nsym ≤ encNodeCap))
  refine ⟨q, hforest, hnn, hlen.trans (Nat.zero_add _), ?_⟩
  rwa [show forestLeaves [] = [] from rfl, List.append_nil] at hleaves

end Qinit

section Build
variable {s : State} {q : List (Nat × HTree)}

theorem runUnit_enc_of_qinit (h : s.enc.phase = .qinit) : runUnit .enc s = .next s.leavesPlanted :=
  runUnit_some (by rw [fetchUnit_enc, h]; rfl)

theorem runUnit_enc_of_merge (h : s.enc.phase = .merge) : runUnit .enc s = exec .encMerge s :=
  runUnit_some (by rw [fetchUnit_enc, h]; rfl)

/-- As many turns as there are trees join them all and name the root (R143, R144). -/
theorem turns_merge (hp : s.enc.phase = .merge) (hf : Forest s.enc.fill q) (hsize : s.enc.qsize = q.length)
    (hne : q ≠ []) (hroom : s.enc.nn + q.length ≤ encNodeCap + 1) :
    ∃ f n r T, turns .enc q.length s = .next ((s.planted f n).rooted r) ∧ NodeRep f.node T r ∧
      (HTree.leafValues T).Perm (forestLeaves q) := by
  induction hlen : q.length generalizing s q with
  | zero => exact absurd (List.eq_nil_of_length_eq_zero hlen) hne
  | succ n ih =>
    rw [turns, runUnit_enc_of_merge hp]
    rcases Nat.eq_zero_or_pos n with rfl | hn
    · obtain ⟨r, T, q', hmin, hperm⟩ := hf.exists_min hne
      have hlen' := hperm.length_eq
      rw [List.length_cons] at hlen'
      have hq' : q' = [] := List.eq_nil_of_length_eq_zero (by omega)
      rw [exec_encMerge_of_one (by omega) hmin]
      refine ⟨s.enc.fill, s.enc.qsize, r, T, rfl, (hf.tree _ (hperm.mem_iff.mpr (List.mem_cons_self ..))).2, ?_⟩
      exact (List.Perm.of_eq (by rw [hq']; simp [forestLeaves])).trans (forestLeaves_perm hperm).symm
    · obtain ⟨a, b, q', hmina, hminb, hlen', hleaves, hjoin⟩ :=
        hf.join (by omega) (show s.enc.nn < encNodeCap by omega)
      rw [exec_encMerge_of_two (by omega) (by omega) hmina hminb]
      obtain ⟨f, m, r, T, hturns, hrep, hT⟩ := ih (s := s.joined a b) hp (hjoin _)
        (show s.enc.qsize - 1 = q'.length by omega) (List.ne_nil_of_length_pos (by omega))
        (show s.enc.nn + 1 + q'.length ≤ encNodeCap + 1 by omega) (by omega)
      exact ⟨f, m, r, T, hturns, hrep, hT.trans hleaves⟩

/-- One ENC.QINIT and one ENC.MERGE per present symbol build a tree whose leaves are the present symbols (R145). -/
theorem turns_build (hp : s.enc.phase = .qinit) (heof : s.enc.cnt[eofIndex] ≠ 0) :
    ∃ f n r T, turns .enc (1 + (presentSymbols s.enc.cnt).length) s = .next ((s.planted f n).rooted r) ∧
      NodeRep f.node T r ∧ (HTree.leafValues T).Perm ((presentSymbols s.enc.cnt).map symbolAt) := by
  obtain ⟨q, hforest, hnn, hlen, hleaves⟩ := insertLeaves_forest s.enc
  have hmem : eofIndex ∈ presentSymbols s.enc.cnt :=
    List.mem_filter.mpr ⟨List.mem_finRange _, by simpa using heof⟩
  have hpos := List.length_pos_of_mem hmem
  have hle := length_presentSymbols_le (cnt := s.enc.cnt)
  rw [turns_then ((turns_one _ _).trans (runUnit_enc_of_qinit hp)), ← hlen]
  have hroom : (insertLeaves s.enc).nn + q.length ≤ encNodeCap + 1 := by
    simp only [encNodeCap, nsym] at *
    omega
  obtain ⟨f, n, r, T, hturns, hrep, hT⟩ := turns_merge (s := s.leavesPlanted) rfl hforest hnn
    (List.ne_nil_of_length_pos (hlen ▸ hpos)) hroom
  exact ⟨f, n, r, T, hturns, hrep, hT.trans hleaves⟩

end Build

section Leaves
variable {T : HTree} {cnt : Vector Nat nsym}

theorem length_leafValues (T : HTree) : (HTree.leafValues T).length = T.leafCount := by
  induction T with
  | leaf v => rfl
  | node l r ihl ihr => rw [HTree.leafValues, List.length_append, ihl, ihr, HTree.leafCount]

variable (h : (HTree.leafValues T).Perm ((presentSymbols cnt).map symbolAt))
include h

theorem leafCount_of_perm : T.leafCount = (presentSymbols cnt).length := by
  rw [← length_leafValues, h.length_eq, List.length_map]

theorem nodup_leafValues_of_perm : (HTree.leafValues T).Nodup :=
  h.nodup_iff.mpr (((List.nodup_finRange nsym).filter _).map symbolAt_injective)

theorem symbolsLegal_of_perm : SymbolsLegal T := fun v hv => by
  obtain ⟨i, -, rfl⟩ := List.mem_map.mp (h.mem_iff.mp hv)
  exact (symbolAt_toNat i).trans_lt i.isLt

theorem symbolAt_mem_leafValues_of_perm {i : Fin nsym} (hi : cnt[i] ≠ 0) : symbolAt i ∈ HTree.leafValues T :=
  h.mem_iff.mpr (List.mem_map_of_mem (List.mem_filter.mpr ⟨List.mem_finRange i, by simpa using hi⟩))

end Leaves

end Sys2Proof.Machine
end

section
/-! PROOFS. ENC's two walks of the tree (R150 to R153, R162, R163): the subtree on top of the stack is visited in as
many turns as it has nodes, and then the stack is one entry lower. The generator records a path per leaf, the header
writer writes the tree; both are inductions over the subtree. -/

namespace Sys2Proof.Machine

theorem one_le_leafCount (T : HTree) : 1 ≤ T.leafCount := by
  induction T with
  | leaf v => exact Nat.le_refl 1
  | node l r ihl ihr => exact Nat.le_add_right_of_le ihl

section Stack
variable {node : Vector Node encNodeCap} {stk : Vector StkEntry encStkCap} {sp : Nat} {T l r : HTree} {x : StkEntry}

/-- The entry `x` on top of the stack is the root of the tree `T`, and the stack has room for its walk (R152). -/
structure OnTop (node : Vector Node encNodeCap) (stk : Vector StkEntry encStkCap) (sp : Nat) (T : HTree)
    (x : StkEntry) : Prop where
  pos : 1 ≤ sp
  top : stk[sp - 1]? = some x
  rep : NodeRep node T x.node
  room : sp + T.leafCount ≤ encStkCap + 1

/-- With the right child in its parent's place and the left child above it, the left one is walked first. -/
theorem OnTop.children (h : OnTop node stk sp (.node l r) x) :
    ∃ w a b, node[x.node]? = some { weight := w, kind := .internal a b } ∧ sp < encStkCap ∧
      (∀ stk' y, stk'[sp]? = some y → y.node = a → OnTop node stk' (sp + 1) l y) ∧
      (∀ stk' z, stk'[sp - 1]? = some z → z.node = b → OnTop node stk' sp r z) := by
  obtain ⟨hpos, -, ⟨w, a, b, hn, -, -, hl, hr⟩, hroom⟩ := h
  have hleft := one_le_leafCount l
  have hright := one_le_leafCount r
  rw [HTree.leafCount] at hroom
  refine ⟨w, a, b, hn, by omega, fun stk' y hy hya => ?_, fun stk' z hz hzb => ?_⟩
  · exact ⟨by omega, hy, hya ▸ hl, by omega⟩
  · exact ⟨hpos, hz, hzb ▸ hr, by omega⟩

/-- ENC after the subtree on top of the stack has been visited: it is popped, and the walk may be over. -/
def Enc.popTree (next : EncPhase) (stk : Vector StkEntry encStkCap) (e : Enc) : Enc :=
  { e with stk := stk, sp := e.sp - 1, phase := if e.sp = 1 then next else e.phase }

theorem endOfWalk_pop {e : Enc} (next : EncPhase) (h : 1 ≤ e.sp) :
    Enc.endOfWalk next { e with sp := e.sp - 1 } = e.popTree next e.stk := by
  unfold Enc.endOfWalk Enc.popTree
  by_cases h1 : e.sp = 1
  · rw [if_pos h1, if_pos (by simp [h1])]
  · rw [if_neg h1, if_neg (by simp only; omega)]

/-- ENC after an internal node on top of the stack gave way to its two children, which `stk` holds. -/
def Enc.descend (stk : Vector StkEntry encStkCap) (e : Enc) : Enc := { e with stk := stk, sp := e.sp + 1 }

/-- A visit of the left child gives back the stack pointer of before. -/
theorem popTree_descend {e : Enc} (next : EncPhase) (stk' : Vector StkEntry encStkCap) (h : 1 ≤ e.sp) :
    (e.descend stk).popTree next stk' = { e with stk := stk' } := by
  rw [Enc.popTree, if_neg (show (e.descend stk).sp ≠ 1 from Nat.ne_of_gt (Nat.lt_succ_of_le h))]
  rfl

end Stack

section Path
variable {x : StkEntry} {p : Bits}

theorem valueOf_concat (p : Bits) (b : Bool) : valueOf (p ++ [b]) = 2 * valueOf p + b.toNat := by
  simp only [valueOf, List.foldl_append, List.foldl_cons, List.foldl_nil]

/-- The entry carries the path `p` as its code numeral and length (R150). -/
def StkEntry.HasPath (x : StkEntry) (p : Bits) : Prop := x.len = p.length ∧ x.bits = BitVec.ofNat 256 (valueOf p)

theorem hasPath_nil (n : Nat) : StkEntry.HasPath { node := n, len := 0, bits := 0#256 } [] := ⟨rfl, rfl⟩

theorem shiftIn_valueOf (hp : p.length < 256) (b : Bool) :
    shiftIn (BitVec.ofNat 256 (valueOf p)) b = BitVec.ofNat 256 (valueOf (p ++ [b])) := by
  have hval := valueOf_lt p
  have hpow : 2 ^ p.length ≤ 2 ^ 255 := Nat.pow_le_pow_right (by decide) (by omega)
  have hbit : (if b then 1#256 else 0#256) = BitVec.ofNat 256 b.toNat := by cases b <;> rfl
  have hor : valueOf (p ++ [b]) = valueOf p * 2 ^ 1 ||| b.toNat := by
    rw [valueOf_concat, ← Nat.shiftLeft_eq, ← Nat.shiftLeft_add_eq_or_of_lt b.toNat_lt, Nat.shiftLeft_eq, Nat.pow_one,
      Nat.mul_comm]
  rw [hor, shiftIn, hbit]
  apply BitVec.eq_of_toNat_eq
  simp only [BitVec.toNat_or, BitVec.toNat_shiftLeft, BitVec.toNat_ofNat, Nat.shiftLeft_eq]
  rw [Nat.or_mod_two_pow, Nat.mod_eq_of_lt (a := valueOf p) (by omega)]

theorem StkEntry.HasPath.below (h : x.HasPath p) (hp : p.length < 256) (b : Bool) (c : Nat) :
    (x.below b c).HasPath (p ++ [b]) := by
  obtain ⟨hlen, hbits⟩ := h
  refine ⟨?_, ?_⟩
  · rw [below_len, hlen, List.length_append, List.length_singleton, Nat.mod_eq_of_lt (by omega)]
  · rw [below_bits, hbits, shiftIn_valueOf hp]

end Path

section CodeTable

/-- ENC's code table (R33), as one value. -/
structure CodeTable where
  valid : Vector Bool nsym
  len : Vector Nat nsym
  bits : Vector CodeWord nsym

def Enc.codes (e : Enc) : CodeTable := { valid := e.codeValid, len := e.codeLen, bits := e.codeBits }

def Enc.withCodes (t : CodeTable) (e : Enc) : Enc :=
  { e with codeValid := t.valid, codeLen := t.len, codeBits := t.bits }

/-- The entry of one symbol: valid, length, numeral. -/
def CodeTable.entry (t : CodeTable) (i : Fin nsym) : Bool × Nat × CodeWord := (t.valid[i], t.len[i], t.bits[i])

/-- The entry that records the path `c`. -/
def pathEntry (c : Bits) : Bool × Nat × CodeWord := (true, c.length, BitVec.ofNat 256 (valueOf c))

/-- From the table `t`, the walk of `T` below the path `p` gives the table `t'`: every leaf's path is recorded, and no
other symbol's entry is written (R153). -/
structure Recorded (T : HTree) (p : Bits) (t t' : CodeTable) : Prop where
  path : ∀ (i : Fin nsym) (c : Bits), (symbolAt i, c) ∈ T.codes → t'.entry i = pathEntry (p ++ c)
  other : ∀ i : Fin nsym, symbolAt i ∉ HTree.leafValues T → t'.entry i = t.entry i

variable {e : Enc} {x : StkEntry} {p : Bits} {t t' t'' : CodeTable} {l r : HTree}

theorem map_fst_codes (T : HTree) : T.codes.map Prod.fst = HTree.leafValues T := by
  induction T with
  | leaf v => rfl
  | node l r ihl ihr =>
    simp only [HTree.codes, HTree.leafValues, List.map_append, List.map_map, Function.comp_def, ihl, ihr]

theorem mem_leafValues_of_mem_codes {T : HTree} {v : Sym} {c : Bits} (h : (v, c) ∈ T.codes) :
    v ∈ HTree.leafValues T :=
  map_fst_codes T ▸ List.mem_map_of_mem h

theorem length_lt_leafCount_of_mem_codes {T : HTree} {v : Sym} {c : Bits} (h : (v, c) ∈ T.codes) :
    c.length < T.leafCount := by
  induction T generalizing c with
  | leaf w =>
    obtain ⟨rfl, rfl⟩ := Prod.mk.inj (List.mem_singleton.mp h)
    exact Nat.zero_lt_one
  | node l r ihl ihr =>
    obtain ⟨b, c', rfl, hc'⟩ := mem_codes_node h
    have hl := one_le_leafCount l
    have hr := one_le_leafCount r
    rw [List.length_cons, HTree.leafCount]
    cases b with
    | false => have := ihl hc'; omega
    | true => have := ihr hc'; omega

/-- A recorded path is the code that ENC writes (R33, R153). -/
theorem codeOf_of_entry {i : Fin nsym} {c : Bits} (h : e.codes.entry i = pathEntry c) (hc : c.length ≤ 256) :
    codeOf e i = c := by
  have hval := valueOf_lt c
  have hpow : 2 ^ c.length ≤ 2 ^ 256 := Nat.pow_le_pow_right (by decide) hc
  simp only [CodeTable.entry, Enc.codes, pathEntry, Prod.mk.injEq] at h
  obtain ⟨-, hlen, hbits⟩ := h
  rw [codeOf, hlen, hbits, BitVec.toNat_ofNat, Nat.mod_eq_of_lt (by omega), bits_valueOf]

theorem recorded_leaf {v : Sym} (hv : v.toNat < nsym) (hx : x.HasPath p) :
    Recorded (.leaf v) p e.codes (e.recordCode ⟨v.toNat, hv⟩ x).codes where
  path i c hc := by
    obtain ⟨hlen, hbits⟩ := hx
    obtain ⟨rfl, rfl⟩ := Prod.mk.inj (List.mem_singleton.mp hc)
    simp [CodeTable.entry, Enc.codes, pathEntry, hlen, hbits, symbolAt_toNat]
  other i hi := by
    have hne : v.toNat ≠ i.val := fun h => hi (List.mem_singleton.mpr (eq_symbolAt h).symm)
    simp [CodeTable.entry, Enc.codes, Vector.getElem_set_ne _ _ hne]

/-- The two children's leaves are different symbols, so the second walk keeps what the first recorded. -/
theorem Recorded.node (hl : Recorded l (p ++ [false]) t t') (hr : Recorded r (p ++ [true]) t' t'')
    (hdisj : (HTree.leafValues l).Disjoint (HTree.leafValues r)) : Recorded (.node l r) p t t'' where
  path i c hc := by
    obtain ⟨b, c', rfl, hc'⟩ := mem_codes_node hc
    rw [List.append_cons]
    cases b with
    | false => exact (hr.other i (hdisj (mem_leafValues_of_mem_codes hc'))).trans (hl.path i c' hc')
    | true => exact hr.path i c' hc'
  other i hi := by
    obtain ⟨hil, hir⟩ := not_or.mp (mt List.mem_append.mpr hi)
    exact (hr.other i hir).trans (hl.other i hil)

end CodeTable

section Generator
variable {s : State} {x : StkEntry} {n : Node} {T : HTree} {p : Bits}

theorem runUnit_enc_of_gen (h : s.enc.phase = .gen) : runUnit .enc s = exec .encGen s :=
  runUnit_some (by rw [fetchUnit_enc, h]; rfl)

theorem endOfWalk_recordCode {e : Enc} (next : EncPhase) (i : Fin nsym) :
    (e.recordCode i x).endOfWalk next = (e.endOfWalk next).recordCode i x := by
  by_cases h : e.sp = 0
  · rw [endOfWalk_zero _ (e.recordCode i x) h, endOfWalk_zero _ e h]
    rfl
  · rw [endOfWalk_pos _ (e.recordCode i x) h, endOfWalk_pos _ e h]

theorem exec_encGen_of_leaf {v : Sym} (hsp : 1 ≤ s.enc.sp) (hx : s.enc.stk[s.enc.sp - 1]? = some x)
    (hn : s.enc.node[x.node]? = some n) (hk : n.kind = .leaf v) (hv : v.toNat < nsym) :
    exec .encGen s = .next { s with enc := (s.enc.popTree .wrmagic s.enc.stk).recordCode ⟨v.toNat, hv⟩ x } := by
  show execEncGen s = _
  rw [← endOfWalk_pop _ hsp, ← endOfWalk_recordCode]
  simp only [execEncGen, Enc.pop_some (Enc.top_some hsp hx), hn, hk, dif_pos hv]

/-- The stack with the right child in the place of its parent and the left child above it (R151). -/
def genChildren (x : StkEntry) (a b : Nat) (e : Enc) : Vector StkEntry encStkCap :=
  (e.stk.setIfInBounds (e.sp - 1) (x.below true b)).setIfInBounds e.sp (x.below false a)

theorem exec_encGen_of_internal {a b : Nat} (hsp : 1 ≤ s.enc.sp) (hx : s.enc.stk[s.enc.sp - 1]? = some x)
    (hn : s.enc.node[x.node]? = some n) (hk : n.kind = .internal a b) (hroom : s.enc.sp < encStkCap) :
    exec .encGen s = .next { s with enc := s.enc.descend (genChildren x a b s.enc) } := by
  show execEncGen s = _
  have hpush := Enc.pushTwo_some (e := { s.enc with sp := s.enc.sp - 1 }) (x := x.below true b) (y := x.below false a)
    (by simp only; omega)
  simp only [execEncGen, Enc.pop_some (Enc.top_some hsp hx), hn, hk, hpush]
  rw [endOfWalk_pos _ _ (by simp), show s.enc.sp - 1 + 1 = s.enc.sp by omega,
    show s.enc.sp - 1 + 2 = s.enc.sp + 1 by omega]
  rfl

section GenChildren
variable {e : Enc} {a b k : Nat}

theorem genChildren_left (h : e.sp < encStkCap) : (genChildren x a b e)[e.sp]? = some (x.below false a) := by
  rw [genChildren, Vector.getElem?_setIfInBounds_self_of_lt h]

theorem genChildren_right (hsp : 1 ≤ e.sp) (h : e.sp < encStkCap) :
    (genChildren x a b e)[e.sp - 1]? = some (x.below true b) := by
  rw [genChildren, Vector.getElem?_setIfInBounds_ne (by omega), Vector.getElem?_setIfInBounds_self_of_lt (by omega)]

theorem genChildren_below (hk : k < e.sp - 1) : (genChildren x a b e)[k]? = e.stk[k]? := by
  rw [genChildren, Vector.getElem?_setIfInBounds_ne (by omega), Vector.getElem?_setIfInBounds_ne (by omega)]

end GenChildren

/-- The generator's walk of the subtree on top of the stack (R151, R152). -/
theorem turns_gen (hphase : s.enc.phase = .gen) (htop : OnTop s.enc.node s.enc.stk s.enc.sp T x) (hpath : x.HasPath p)
    (hdepth : p.length + T.leafCount ≤ nsym) (hlegal : SymbolsLegal T) (hnodup : (HTree.leafValues T).Nodup) :
    ∃ t stk, turns .enc T.size s = .next { s with enc := (s.enc.popTree .wrmagic stk).withCodes t } ∧
      (∀ k, k < s.enc.sp - 1 → stk[k]? = s.enc.stk[k]?) ∧ Recorded T p s.enc.codes t := by
  have hsp := htop.pos
  induction T generalizing s x p with
  | leaf v =>
    obtain ⟨w, hn⟩ := htop.rep
    have hv := hlegal v (List.mem_singleton_self v)
    refine ⟨(s.enc.recordCode ⟨v.toNat, hv⟩ x).codes, s.enc.stk, ?_, fun _ _ => rfl, recorded_leaf hv hpath⟩
    rw [HTree.size, turns_one, runUnit_enc_of_gen hphase, exec_encGen_of_leaf hsp htop.top hn rfl hv]
    rfl
  | node l r ihl ihr =>
    obtain ⟨w, a, b, hn, hroom, hleft, hright⟩ := htop.children
    have hstep := exec_encGen_of_internal hsp htop.top hn rfl hroom
    rw [← runUnit_enc_of_gen hphase, ← turns_one] at hstep
    have hl1 := one_le_leafCount l
    have hr1 := one_le_leafCount r
    rw [HTree.leafCount, nsym] at hdepth
    rw [HTree.leafValues, List.nodup_append'] at hnodup
    obtain ⟨hnl, hnr, hdisj⟩ := hnodup
    obtain ⟨tl, stkl, hturnsl, hbelowl, hrecl⟩ := ihl (s := { s with enc := s.enc.descend (genChildren x a b s.enc) })
      hphase (hleft _ _ (genChildren_left hroom) rfl) (hpath.below (by omega) false a)
      (by rw [List.length_append, List.length_singleton, nsym]; omega)
      (fun v hv => hlegal v (List.mem_append_left _ hv))
      hnl (Nat.le_add_left 1 _)
    rw [popTree_descend _ _ hsp] at hturnsl
    have hkept : ∀ k, k < s.enc.sp → stkl[k]? = (genChildren x a b s.enc)[k]? := hbelowl
    obtain ⟨tr, stkr, hturnsr, hbelowr, hrecr⟩ := ihr
      (s := { s with enc := Enc.withCodes tl { s.enc with stk := stkl } })
      hphase (hright stkl _ ((hkept _ (by omega)).trans (genChildren_right hsp hroom)) rfl)
      (hpath.below (by omega) true b)
      (by rw [List.length_append, List.length_singleton, nsym]; omega)
      (fun v hv => hlegal v (List.mem_append_right _ hv))
      hnr hsp
    refine ⟨tr, stkr, ?_, fun k hk => ?_, hrecl.node hrecr hdisj⟩
    · rw [HTree.size, Nat.add_comm, turns_then hstep, turns_then hturnsl, hturnsr]
      rfl
    · exact (hbelowr k hk).trans ((hkept k (by omega)).trans (genChildren_below hk))

end Generator

section HeaderWriter
variable {s : State} {x : StkEntry} {n : Node} {T : HTree}

theorem runUnit_enc_of_wrhdr (h : s.enc.phase = .wrhdr) : runUnit .enc s = exec .encWrhdr s :=
  runUnit_some (by rw [fetchUnit_enc, h]; rfl)

/-- The state with ENC's registers `e` after the bits `item` were appended to the compressed output. -/
def State.wrote (s : State) (item : Bits) (e : Enc) : State :=
  { s with cout := { s.cout with bits := s.cout.bits ++ item }, enc := e }

@[simp] theorem wrote_enc (item : Bits) (e : Enc) : (s.wrote item e).enc = e := rfl

theorem wrote_wrote (i j : Bits) (d e : Enc) : (s.wrote i d).wrote j e = s.wrote (i ++ j) e := by
  simp only [State.wrote, List.append_assoc]

theorem exec_encWrhdr_of_leaf {v : Sym} (hopen : CoutOpen s) (hsp : 1 ≤ s.enc.sp)
    (hx : s.enc.stk[s.enc.sp - 1]? = some x) (hn : s.enc.node[x.node]? = some n) (hk : n.kind = .leaf v) :
    exec .encWrhdr s = .next (s.wrote (encode (.hdrLeaf v)) (s.enc.popTree .rewind s.enc.stk)) := by
  show execEncWrhdr s = _
  rw [← endOfWalk_pop _ hsp]
  simp only [execEncWrhdr, Enc.pop_some (Enc.top_some hsp hx), hn, hk, writeLeafRecord_open hopen.1 hopen.2]
  rfl

/-- As `genChildren`, but the walk of the header writes node indices only (R162). -/
def hdrChildren (a b : Nat) (e : Enc) : Vector StkEntry encStkCap := withNode (withNode e.stk (e.sp - 1) b) e.sp a

theorem exec_encWrhdr_of_internal {a b : Nat} (hopen : CoutOpen s) (hsp : 1 ≤ s.enc.sp)
    (hx : s.enc.stk[s.enc.sp - 1]? = some x) (hn : s.enc.node[x.node]? = some n) (hk : n.kind = .internal a b)
    (hroom : s.enc.sp < encStkCap) :
    exec .encWrhdr s = .next (s.wrote (encode .hdrNode) (s.enc.descend (hdrChildren a b s.enc))) := by
  show execEncWrhdr s = _
  have hpush := Enc.pushTwoNodes_some (e := { s.enc with sp := s.enc.sp - 1 }) (a := b) (b := a) (by simp only; omega)
  simp only [execEncWrhdr, Enc.pop_some (Enc.top_some hsp hx), hn, hk, Cout.write_open hopen.1 hopen.2, hpush]
  rw [endOfWalk_pos _ _ (by simp), show s.enc.sp - 1 + 1 = s.enc.sp by omega,
    show s.enc.sp - 1 + 2 = s.enc.sp + 1 by omega]
  rfl

section HdrChildren
variable {e : Enc} {a b k : Nat}

theorem hdrChildren_left (h : e.sp < encStkCap) : ∃ y, (hdrChildren a b e)[e.sp]? = some y ∧ y.node = a :=
  ⟨_, withNode_same (Vector.getElem?_eq_getElem h), rfl⟩

theorem hdrChildren_right (hsp : 1 ≤ e.sp) (h : e.sp < encStkCap) :
    ∃ z, (hdrChildren a b e)[e.sp - 1]? = some z ∧ z.node = b :=
  ⟨_, (withNode_ne (by omega)).trans (withNode_same (Vector.getElem?_eq_getElem (by omega))), rfl⟩

theorem hdrChildren_below (hk : k < e.sp - 1) : (hdrChildren a b e)[k]? = e.stk[k]? :=
  (withNode_ne (by omega)).trans (withNode_ne (by omega))

end HdrChildren

/-- The header writer's walk of the subtree on top of the stack appends its serialization (R163, R97). -/
theorem turns_wrhdr (hphase : s.enc.phase = .wrhdr) (hopen : CoutOpen s)
    (htop : OnTop s.enc.node s.enc.stk s.enc.sp T x) :
    ∃ stk, turns .enc T.size s = .next (s.wrote T.ser (s.enc.popTree .rewind stk)) ∧
      ∀ k, k < s.enc.sp - 1 → stk[k]? = s.enc.stk[k]? := by
  have hsp := htop.pos
  induction T generalizing s x with
  | leaf v =>
    obtain ⟨w, hn⟩ := htop.rep
    refine ⟨s.enc.stk, ?_, fun _ _ => rfl⟩
    rw [HTree.size, turns_one, runUnit_enc_of_wrhdr hphase, exec_encWrhdr_of_leaf hopen hsp htop.top hn rfl]
    rfl
  | node l r ihl ihr =>
    obtain ⟨w, a, b, hn, hroom, hleft, hright⟩ := htop.children
    have hstep := exec_encWrhdr_of_internal hopen hsp htop.top hn rfl hroom
    rw [← runUnit_enc_of_wrhdr hphase, ← turns_one] at hstep
    obtain ⟨y, hy, hya⟩ := hdrChildren_left (a := a) (b := b) hroom
    obtain ⟨z, hz, hzb⟩ := hdrChildren_right (a := a) (b := b) hsp hroom
    obtain ⟨stkl, hturnsl, hbelowl⟩ := ihl
      (s := s.wrote (encode .hdrNode) (s.enc.descend (hdrChildren a b s.enc)))
      hphase hopen (hleft _ y hy hya) (Nat.le_add_left 1 _)
    rw [wrote_enc, popTree_descend _ _ hsp, wrote_wrote] at hturnsl
    have hkept : ∀ k, k < s.enc.sp → stkl[k]? = (hdrChildren a b s.enc)[k]? := hbelowl
    obtain ⟨stkr, hturnsr, hbelowr⟩ := ihr
      (s := s.wrote (encode .hdrNode ++ l.ser) { s.enc with stk := stkl })
      hphase hopen (hright stkl z ((hkept _ (by omega)).trans hz) hzb) hsp
    refine ⟨stkr, ?_, fun k hk => ?_⟩
    · rw [HTree.size, Nat.add_comm, turns_then hstep, turns_then hturnsl, hturnsr, wrote_wrote]
      rfl
    · exact (hbelowr k hk).trans ((hkept k (by omega)).trans (hdrChildren_below hk))

end HeaderWriter

end Sys2Proof.Machine
end

section
/-! PROOFS. A whole run of ENC (R132, R145, R153, R160, R163, R170 to R177): each phase's turns, one after the other. -/

namespace Sys2Proof.Machine

/-- One turn, and then the others. -/
theorem turns_succ {u : Agent} {k : Nat} {s t : State} (h : runUnit u s = .next t) :
    turns u (k + 1) s = turns u k t := by
  rw [turns, h]

section SecondPass
variable {s : State}

theorem runUnit_enc_of_encode (h : s.enc.phase = .encode) : runUnit .enc s = exec .encEncode s :=
  runUnit_some (by rw [fetchUnit_enc, h]; rfl)

/-- The state in which the bytes `l` have been read from the raw input and their codes written. -/
def State.encoded (s : State) (l : List Byte) : State :=
  { s with rin := { s.rin with pos := s.rin.pos + l.length }
           cout := { s.cout with bits := s.cout.bits ++ l.flatMap fun r => codeOf s.enc (byteIndex r) } }

theorem encoded_cons (r : Byte) (l : List Byte) : s.encoded (r :: l) = (s.encoded [r]).encoded l := by
  simp only [State.encoded, List.flatMap_cons, List.flatMap_nil, List.append_nil, List.append_assoc, List.length_cons,
    List.length_nil]
  rw [Nat.zero_add, Nat.add_assoc, Nat.add_comm 1]

/-- The bytes next at the raw input, if each has a code, are encoded in as many turns as there are of them (R172). -/
theorem turns_encode (l : List Byte) (hp : s.enc.phase = .encode) (hv : s.rin.valid = true) (hopen : CoutOpen s)
    (hl : l <+: s.rin.data.drop s.rin.pos) (hcode : ∀ r ∈ l, s.enc.codeValid[byteIndex r] = true) :
    turns .enc l.length s = .next (s.encoded l) := by
  induction l generalizing s with
  | nil => simp [turns, State.encoded]
  | cons r l ih =>
    obtain ⟨rest, hrest⟩ := hl
    have hr : s.rin.data[s.rin.pos]? = some r := by rw [← List.head?_drop, ← hrest]; rfl
    have hnext : l <+: s.rin.data.drop (s.rin.pos + 1) := ⟨rest, by rw [← List.tail_drop, ← hrest]; rfl⟩
    have hstep : runUnit .enc s = .next (s.encoded [r]) := by
      rw [runUnit_enc_of_encode hp, exec_encEncode_of_code hv hr (hcode r (List.mem_cons_self ..))
        (writeCode_open hopen.1 hopen.2)]
      simp [State.encoded]
    rw [encoded_cons, List.length_cons, turns, hstep]
    exact ih hp hv hopen hnext fun x hx => hcode x (List.mem_cons_of_mem _ hx)

theorem runUnit_enc_of_wreof (hp : s.enc.phase = .wreof) (hopen : CoutOpen s) :
    runUnit .enc s = .next { s with
      cout := { s.cout with bits := s.cout.bits ++ codeOf s.enc eofIndex }
      enc := { s.enc with phase := .close } } := by
  rw [runUnit_some (i := .encWreof) (by rw [fetchUnit_enc, hp]; rfl)]
  exact exec_encWreof_of_sent (writeCode_open hopen.1 hopen.2)

theorem runUnit_enc_of_close (hp : s.enc.phase = .close) (herr : s.enc.err = .none) (hopen : CoutOpen s) :
    runUnit .enc s = .next { s with cout := { s.cout with closed := true }, enc := { s.enc with phase := .done } } := by
  rw [runUnit_some (i := .encClose) (by rw [fetchUnit_enc, hp]; rfl), exec_encClose_of_open hopen, if_pos herr]

/-- The terminator and the close (R174, R176). -/
theorem turns_terminate (hp : s.enc.phase = .wreof) (herr : s.enc.err = .none) (hopen : CoutOpen s) :
    turns .enc 2 s = .next { s with
      cout := { s.cout with bits := s.cout.bits ++ codeOf s.enc eofIndex, closed := true }
      enc := { s.enc with phase := .done } } := by
  rw [turns_succ (runUnit_enc_of_wreof hp hopen), turns_one]
  exact runUnit_enc_of_close rfl herr hopen

/-- The state after ENC.REWIND (R170). -/
def State.rewound (s : State) : State := { s with rin := s.rin.rewind, enc := { s.enc with phase := .encode } }

theorem runUnit_enc_of_rewind (h : s.enc.phase = .rewind) : runUnit .enc s = .next s.rewound :=
  runUnit_some (by rw [fetchUnit_enc, h]; rfl)

/-- The state after a second pass over the input `raw`, with ENC's output closed. -/
def State.streamed (s : State) (raw : List Byte) : State :=
  { s with
    rin := { s.rin with data := raw, pos := raw.length }
    cout := { s.cout with
      bits := s.cout.bits ++ (raw.flatMap fun r => codeOf s.enc (byteIndex r)) ++ codeOf s.enc eofIndex
      closed := true }
    enc := { s.enc with phase := .done } }

/-- The second pass: the rewind, one turn per byte, and the three of its end. -/
theorem turns_secondPass (hp : s.enc.phase = .rewind) (herr : s.enc.err = .none) (hv : s.rin.valid = true)
    (hopen : CoutOpen s) (hcode : ∀ r ∈ s.rin.replay, s.enc.codeValid[byteIndex r] = true) :
    turns .enc (s.rin.replay.length + 3 + 1) s = .next (s.streamed s.rin.replay) := by
  have hencode : turns .enc s.rin.replay.length s.rewound = .next (s.rewound.encoded s.rin.replay) :=
    turns_encode s.rin.replay rfl hv hopen List.prefix_rfl hcode
  have heos : runUnit .enc (s.rewound.encoded s.rin.replay) = .next { s.rewound.encoded s.rin.replay with
      enc := { s.enc with phase := .wreof } } :=
    (runUnit_enc_of_encode rfl).trans (exec_encEncode_of_eos hv (by simp [State.encoded, State.rewound]))
  rw [turns_succ (runUnit_enc_of_rewind hp), turns_then hencode, turns_succ heos]
  rw [turns_terminate rfl (by exact herr) (by exact hopen)]
  simp [State.streamed, State.encoded, State.rewound, codeOf]

end SecondPass

section Header
variable {s : State} {T : HTree}

theorem runUnit_enc_of_wrmagic (hp : s.enc.phase = .wrmagic) (hopen : CoutOpen s) :
    runUnit .enc s = .next (s.wrote (bits 32 s.cfg.magic.toNat)
      { s.enc with stk := withNode s.enc.stk 0 s.enc.root, sp := 1, phase := .wrhdr }) := by
  rw [runUnit_some (i := .encWrmagic) (by rw [fetchUnit_enc, hp]; rfl)]
  show execEncWrmagic s = _
  rw [execEncWrmagic, Cout.write_open hopen.1 hopen.2]
  rfl

/-- The magic and the header: one turn, and one per node (R160, R163). -/
theorem turns_header (hp : s.enc.phase = .wrmagic) (hopen : CoutOpen s) (hrep : NodeRep s.enc.node T s.enc.root)
    (hleaves : T.leafCount ≤ nsym) :
    ∃ stk, turns .enc (T.size + 1) s =
      .next (s.wrote (bits 32 s.cfg.magic.toNat ++ T.ser) { s.enc with stk := stk, sp := 0, phase := .rewind }) := by
  rw [turns_succ (runUnit_enc_of_wrmagic hp hopen)]
  have htop : OnTop s.enc.node (withNode s.enc.stk 0 s.enc.root) 1 T { s.enc.stk[0] with node := s.enc.root } :=
    ⟨Nat.le_refl 1, withNode_same (Vector.getElem?_eq_getElem (by decide)), hrep, by
      simp only [nsym, encStkCap] at *; omega⟩
  obtain ⟨stk, hturns, -⟩ := turns_wrhdr (s := s.wrote (bits 32 s.cfg.magic.toNat)
    { s.enc with stk := withNode s.enc.stk 0 s.enc.root, sp := 1, phase := .wrhdr }) rfl hopen htop
  exact ⟨stk, by rw [hturns, wrote_wrote]; rfl⟩

end Header

section CodedTree
variable {s : State}

/-- ENC is about to write: its store holds the tree `T`, whose leaves are the symbols counted in `cnt`, and its code
table holds the tree's paths. -/
structure TreeCoded (cnt : Vector Nat nsym) (T : HTree) (e : Enc) : Prop where
  phase : e.phase = .wrmagic
  rep : NodeRep e.node T e.root
  leaves : (HTree.leafValues T).Perm ((presentSymbols cnt).map symbolAt)
  codes : ∀ (i : Fin nsym) (c : Bits), (symbolAt i, c) ∈ T.codes → e.codes.entry i = pathEntry c

/-- From the counts to the code table: the builder's turns and one turn of the generator per node. -/
theorem turns_tree (hp : s.enc.phase = .qinit) (heof : s.enc.cnt[eofIndex] ≠ 0) :
    ∃ e T, turns .enc (1 + T.leafCount + T.size) s = .next { s with enc := e } ∧ e.err = s.enc.err ∧
      TreeCoded s.enc.cnt T e := by
  obtain ⟨f, n, r, T, hbuild, hrep, hperm⟩ := turns_build hp heof
  have hcount := leafCount_of_perm hperm
  have hle : T.leafCount ≤ nsym := hcount ▸ length_presentSymbols_le
  have htop : OnTop f.node (s.enc.stk.setIfInBounds 0 { node := r, len := 0, bits := 0#256 }) 1 T
      { node := r, len := 0, bits := 0#256 } :=
    ⟨Nat.le_refl 1, Vector.getElem?_setIfInBounds_self_of_lt (by decide), hrep, by
      simp only [nsym, encStkCap] at *; omega⟩
  obtain ⟨t, stk, hgen, -, hrec⟩ := turns_gen (s := (s.planted f n).rooted r) rfl htop (hasPath_nil r)
    (by rwa [List.length_nil, Nat.zero_add]) (symbolsLegal_of_perm hperm) (nodup_leafValues_of_perm hperm)
  refine ⟨(((s.planted f n).rooted r).enc.popTree .wrmagic stk).withCodes t, T, ?_, rfl, rfl, hrep, hperm, hrec.path⟩
  rw [hcount, turns_then hbuild, hgen]
  rfl

/-- A counted symbol has a code, which is its path in the tree. -/
theorem TreeCoded.code {cnt : Vector Nat nsym} {T : HTree} {e : Enc} {i : Fin nsym} (h : TreeCoded cnt T e)
    (hi : cnt[i] ≠ 0) : e.codeValid[i] = true ∧ (symbolAt i, codeOf e i) ∈ T.codes := by
  have hmem := symbolAt_mem_leafValues_of_perm h.leaves hi
  rw [← map_fst_codes] at hmem
  obtain ⟨⟨v, c⟩, hc, hv⟩ := List.mem_map.mp hmem
  obtain rfl : v = symbolAt i := hv
  have hentry := h.codes i c hc
  have hlen := length_lt_leafCount_of_mem_codes hc
  have hle := length_presentSymbols_le (cnt := cnt)
  rw [← leafCount_of_perm h.leaves] at hle
  simp only [nsym] at hle
  rw [codeOf_of_entry hentry (by omega)]
  exact ⟨(Prod.mk.inj hentry).1, hc⟩

end CodedTree

section EncoderRun
variable {s : State} {raw : List Byte}

/-- The state after ENC.START (R122). -/
def State.encStarted (s : State) (raw : List Byte) : State :=
  { s with enc := { s.enc with cnt := Vector.replicate nsym 0, err := .none, phase := .count }
           rin := { s.rin with data := raw, replay := raw, pos := 0 }
           cout := { s.cout with bits := [], closed := false } }

/-- The tree `T` gives `code` for every symbol of `raw` and for pseudo-EOF. -/
structure CodesOf (T : HTree) (code : Fin nsym → Bits) (raw : List Byte) : Prop where
  byte : ∀ r ∈ raw, (symbolAt (byteIndex r), code (byteIndex r)) ∈ T.codes
  eof : (pseudoEof, code eofIndex) ∈ T.codes

/-- The codes of the bytes of `raw` in order, and the terminator (R98, R99). -/
def bodyBits (code : Fin nsym → Bits) (raw : List Byte) : Bits :=
  (raw.flatMap fun r => code (byteIndex r)) ++ code eofIndex

/-- `out` is the compressed form of `raw` by the tree `T` and its codes (R91). -/
structure StreamOf (magic : MagicWord) (raw : List Byte) (T : HTree) (code : Fin nsym → Bits) (out : Bits) : Prop where
  leaves : T.leafCount ≤ nsym
  codes : CodesOf T code raw
  out : out = bits 32 magic.toNat ++ T.ser ++ bodyBits code raw

theorem size_add_one (T : HTree) : T.size + 1 = 2 * T.leafCount := by
  induction T with
  | leaf v => rfl
  | node l r ihl ihr => rw [HTree.size, HTree.leafCount]; omega

/-- The counts of a whole input: every byte in it and the pseudo-EOF have one that is not 0 (R132). -/
theorem counted_ne_zero {w : Nat} (hw : 1 ≤ w) :
    (∀ r ∈ raw, ((tally w (Vector.replicate nsym 0) raw).set eofIndex 1)[byteIndex r] ≠ 0) ∧
      ((tally w (Vector.replicate nsym 0) raw).set eofIndex 1)[eofIndex] ≠ 0 := by
  refine ⟨fun r hr => ?_, ?_⟩
  · rw [getElem_set_count_ne 1 (byteIndex_ne_eofIndex r), getElem_tally_zero]
    have hocc : 0 < occurrences r raw := List.countP_pos_iff.mpr ⟨r, hr, beq_self_eq_true r⟩
    have hpow : 2 ^ 1 ≤ 2 ^ w := Nat.pow_le_pow_right (by decide) hw
    omega
  · rw [getElem_set_count_same]
    exact Nat.one_ne_zero

/-- A whole run of ENC ends in `DONE` with the compressed form of its input written (R177, R245). -/
theorem turns_encoder (hready : LinesReady s) (hcnt : 1 ≤ s.cfg.cntW) :
    ∃ t T, turns .enc (2 * raw.length + 5 * T.leafCount + 5) (s.encStarted raw) = .next t ∧ t.enc.phase = .done ∧
      t.enc.err = .none ∧ t.cout.closed = true ∧ StreamOf s.cfg.magic raw T (codeOf t.enc) t.cout.bits ∧
      t = { s with enc := t.enc, rin := t.rin, cout := t.cout } := by
  obtain ⟨hrin, hcout, -, -⟩ := hready
  obtain ⟨hbyte, heof⟩ := counted_ne_zero (raw := raw) hcnt
  have hcount : turns .enc (raw.length + 1) (s.encStarted raw) = .next ((s.encStarted raw).counted raw).countEnded :=
    turns_count_to_qinit rfl hrin rfl
  obtain ⟨e, T, htree, herr, hcoded⟩ := turns_tree (s := ((s.encStarted raw).counted raw).countEnded) rfl heof
  have hleaves : T.leafCount ≤ nsym := leafCount_of_perm hcoded.leaves ▸ length_presentSymbols_le
  obtain ⟨stk, hheader⟩ := turns_header (s := { ((s.encStarted raw).counted raw).countEnded with enc := e })
    hcoded.phase ⟨hcout, rfl⟩ hcoded.rep hleaves
  have hpass := turns_secondPass (s := State.wrote { ((s.encStarted raw).counted raw).countEnded with enc := e }
    (bits 32 s.cfg.magic.toNat ++ T.ser) { e with stk := stk, sp := 0, phase := .rewind })
    rfl herr hrin ⟨hcout, rfl⟩ fun r hr => (hcoded.code (hbyte r hr)).1
  have hsize := size_add_one T
  have hrun := (turns_then hcount).trans ((turns_then htree).trans ((turns_then hheader).trans hpass))
  have hlength : raw.length + 1 + (1 + T.leafCount + T.size + (T.size + 1 + (raw.length + 3 + 1))) =
      2 * raw.length + 5 * T.leafCount + 5 := by omega
  have hcodes : CodesOf T (codeOf e) raw := ⟨fun r hr => (hcoded.code (hbyte r hr)).2, (hcoded.code heof).2⟩
  exact ⟨_, T, (hlength ▸ hrun :), rfl, herr, rfl, ⟨hleaves, hcodes, List.append_assoc ..⟩, rfl⟩

end EncoderRun

end Sys2Proof.Machine
end

section
/-! PROOFS. DEC's header reader on a whole serialized tree (R182, R183, R186): a subtree's records lay it out in
pre-order from the next free index on, and hang it where its first record hangs; the induction is over the subtree. -/

namespace Sys2Proof.Machine

section Layout
variable {dnode dnode' : List DNode} {T : HTree} {i : Nat}

/-- The tree `T` stands in pre-order from the index `i` on, as the header reader allocates it. -/
def Laid (dnode : List DNode) : HTree → Nat → Prop
  | .leaf v, i => dnode[i]? = some (.leaf v)
  | .node l r, i =>
    dnode[i]? = some (.internal (some (i + 1)) (some (i + 1 + l.size))) ∧ Laid dnode l (i + 1) ∧
      Laid dnode r (i + 1 + l.size)

theorem Laid.dnodeRep (h : Laid dnode T i) : DNodeRep dnode T i := by
  induction T generalizing i with
  | leaf v => exact h
  | node l r ihl ihr => exact ⟨i + 1, i + 1 + l.size, h.1, ihl h.2.1, ihr h.2.2⟩

/-- Only the tree's own entries matter. -/
theorem Laid.congr (h : Laid dnode T i) (hsame : ∀ j, i ≤ j → j < i + T.size → dnode'[j]? = dnode[j]?) :
    Laid dnode' T i := by
  induction T generalizing i with
  | leaf v => exact (hsame i le_rfl (Nat.lt_succ_self i)).trans h
  | node l r ihl ihr =>
    obtain ⟨hn, hl, hr⟩ := h
    rw [HTree.size] at hsame
    refine ⟨(hsame i le_rfl (by omega)).trans hn, ihl hl ?_, ihr hr ?_⟩
    · exact fun j _ _ => hsame j (by omega) (by omega)
    · exact fun j _ _ => hsame j (by omega) (by omega)

theorem one_le_size (T : HTree) : 1 ≤ T.size := by
  cases T with
  | leaf v => exact Nat.le_refl 1
  | node l r => exact Nat.le_add_left 1 _

end Layout

section Hang
variable {d dh : Dec} {i p : Nat} {n : DNode}

theorem hang_root (h : d.dsp = 0) : d.hang i = .ok { d with droot := i } := by
  rw [Dec.hang, if_pos h]

theorem hang_left (h : d.dsp ≠ 0) (htop : d.dstk[d.dsp - 1]? = some { node := p, side := false })
    (hp : d.dnode[p]? = some n) :
    d.hang i = .ok { d with dnode := d.dnode.set p (n.withLeft i)
                            dstk := d.dstk.set (d.dsp - 1) { node := p, side := true } } := by
  simp only [Dec.hang, if_neg h, htop, hp]
  rfl

theorem hang_right (h : d.dsp ≠ 0) (htop : d.dstk[d.dsp - 1]? = some { node := p, side := true })
    (hp : d.dnode[p]? = some n) :
    d.hang i = .ok { d with dnode := d.dnode.set p (n.withRight i), dsp := d.dsp - 1 } := by
  simp only [Dec.hang, if_neg h, htop, hp, if_true]

/-- The pending parent, if there is one, has an index that is already allocated (R183). -/
def ParentAllocated (d : Dec) : Prop := ∀ e, d.dsp ≠ 0 → d.dstk[d.dsp - 1]? = some e → e.node < d.dn

/-- Hanging a node reads and writes nothing at the index that its record has taken. -/
theorem hang_allocated (h : d.hang i = .ok dh) (hparent : ParentAllocated d) (x : DNode) :
    Dec.hang i { d with dnode := d.dnode.set d.dn x, dn := d.dn + 1 } =
      .ok { dh with dnode := dh.dnode.set d.dn x, dn := d.dn + 1 } := by
  rcases Dec.hang_eq_ok h with ⟨h0, rfl⟩ | ⟨⟨p, side⟩, m, h0, htop, hm, hcase⟩
  · rw [hang_root (by exact h0)]
  · have hlt : p < d.dn := hparent _ h0 htop
    have hm' : (d.dnode.set d.dn x)[p]? = some m := by rw [List.getElem?_set_ne (by omega)]; exact hm
    have hcomm : ∀ y, (d.dnode.set d.dn x).set p y = (d.dnode.set p y).set d.dn x :=
      fun y => List.set_comm _ _ (by omega)
    rcases hcase with ⟨rfl, rfl⟩ | ⟨rfl, rfl⟩
    · rw [hang_right (by exact h0) (by exact htop) (by exact hm')]
      simp only [hcomm]
    · rw [hang_left (by exact h0) (by exact htop) (by exact hm')]
      simp only [hcomm]

/-- What hanging a node leaves unchanged. -/
theorem hang_keeps (h : d.hang i = .ok dh) :
    dh.phase = d.phase ∧ dh.err = d.err ∧ dh.cur = d.cur ∧ dh.dnode.length = d.dnode.length ∧
      dh.dstk.length = d.dstk.length := by
  rcases Dec.hang_eq_ok h with ⟨-, rfl⟩ | ⟨e, m, -, -, -, ⟨-, rfl⟩ | ⟨-, rfl⟩⟩
  · exact ⟨rfl, rfl, rfl, rfl, rfl⟩
  · exact ⟨rfl, rfl, rfl, List.length_set .., rfl⟩
  · exact ⟨rfl, rfl, rfl, List.length_set .., List.length_set ..⟩

variable (h : d.hang d.dn = .ok dh) (hparent : ParentAllocated d) (hroom : d.dn < d.dnode.length)
include h hparent hroom

theorem addRecord_leaf (v : Sym) :
    d.addRecord (some v) = .ok (Dec.endOfHeader { dh with dnode := dh.dnode.set d.dn (.leaf v), dn := d.dn + 1 }) :=
  Dec.addRecord_ok (Dec.allocate_ok hroom) (hang_allocated h hparent _) Dec.await_leaf

/-- DEC after an internal node's record: the node is allocated and waits for its children (R182). -/
def Dec.waiting (d dh : Dec) : Dec :=
  { dh with dnode := dh.dnode.set d.dn (.internal none none), dn := d.dn + 1
            dstk := dh.dstk.set dh.dsp { node := d.dn, side := false }, dsp := dh.dsp + 1 }

theorem addRecord_node (hstk : dh.dsp < dh.dstk.length) : d.addRecord none = .ok (Dec.waiting d dh) := by
  rw [Dec.addRecord_ok (Dec.allocate_ok hroom) (hang_allocated h hparent _)
    (d3 := Dec.waiting d dh) (by simp only [Dec.await, if_pos hstk]; rfl)]
  rw [endOfHeader_pos _ (Nat.succ_ne_zero _)]

end Hang

section Read
variable {s : State} {T : HTree} {dh : Dec}

theorem CinPresents.of_append {a b : Bits} (h : CinPresents (a ++ b) s) :
    CinPresents a s ∧ CinPresents b (pastItem a.length s) := by
  obtain ⟨hv, hroom, hbits⟩ := h
  simp only [List.length_append, List.take_add, List.drop_drop] at hroom hbits
  obtain ⟨ha, hb⟩ := List.append_inj hbits (by rw [List.length_take, List.length_drop]; omega)
  exact ⟨⟨hv, by omega, ha⟩, hv, by simp only [pastItem]; omega, hb⟩

/-- The state with DEC's registers `d` after `n` bits were read. -/
def State.read (s : State) (n : Nat) (d : Dec) : State := { pastItem n s with dec := d }

theorem read_read (m n : Nat) (d e : Dec) : (s.read m d).read n e = s.read (m + n) e := by
  simp only [State.read, pastItem, Nat.add_assoc]

theorem runUnit_dec_of_rdhdr (h : s.dec.phase = .rdhdr) : runUnit .dec s = exec .decRdhdr s :=
  runUnit_some (by rw [fetchUnit_dec, h]; rfl)

/-- From the registers `d`, reading the tree `T`, whose root hangs as in `dh`, gives the registers `d'`. -/
structure TreeRead (T : HTree) (d dh d' : Dec) : Prop where
  laid : Laid d'.dnode T d.dn
  below : ∀ j, j < d.dn → d'.dnode[j]? = dh.dnode[j]?
  dn : d'.dn = d.dn + T.size
  dsp : d'.dsp = dh.dsp
  dstk : ∀ k, k < dh.dsp → d'.dstk[k]? = dh.dstk[k]?
  droot : d'.droot = dh.droot
  phase : d'.phase = if dh.dsp = 0 then .decode else d.phase
  cur : d'.cur = if dh.dsp = 0 then dh.droot else d.cur
  err : d'.err = d.err
  nodes : d'.dnode.length = d.dnode.length
  entries : d'.dstk.length = d.dstk.length

theorem runUnit_of_record {r : Option Sym} {d : Dec} (hp : s.dec.phase = .rdhdr) (h : CinPresents (recordBits r) s)
    (hcap : s.dec.dn ≠ s.cfg.decNodeCap) (hadd : s.dec.addRecord r = .ok d) :
    runUnit .dec s = .next (s.read (recordBits r).length d) := by
  rw [runUnit_dec_of_rdhdr hp, exec_decRdhdr_of_record h, takeRecord, if_neg (by exact hcap)]
  simp only [pastItem_dec, hadd]
  rfl

theorem treeRead_leaf {d : Dec} {v : Sym} (h : d.hang d.dn = .ok dh) (hroom : d.dn < d.dnode.length) :
    TreeRead (.leaf v) d dh (Dec.endOfHeader { dh with dnode := dh.dnode.set d.dn (.leaf v), dn := d.dn + 1 }) := by
  obtain ⟨hphase, herr, hcur, hnodes, hentries⟩ := hang_keeps h
  constructor
  case laid => simp [Laid, hnodes, hroom]
  case below => exact fun j hj => by rw [endOfHeader_dnode, List.getElem?_set_ne (by omega)]
  case nodes => simp [hnodes]
  all_goals simp [endOfHeader_phase, endOfHeader_cur, HTree.size, *]

section Node
variable {d dl dr : Dec} {l r : HTree}

/-- DEC after the left child of the waiting node was hung. -/
def Dec.leftHung (d dh : Dec) : Dec :=
  { Dec.waiting d dh with
    dnode := (Dec.waiting d dh).dnode.set d.dn (.internal (some (d.dn + 1)) none)
    dstk := (Dec.waiting d dh).dstk.set dh.dsp { node := d.dn, side := true } }

/-- DEC, from its registers `dl` after the left child was read, after the right child of the node was hung. -/
def Dec.rightHung (d dh dl : Dec) : Dec :=
  { dl with dnode := dl.dnode.set d.dn (.internal (some (d.dn + 1)) (some dl.dn)), dsp := dh.dsp }

section Hang
variable (hroom : d.dn < dh.dnode.length) (hstk : dh.dsp < dh.dstk.length)
include hroom hstk

theorem hang_waiting : (Dec.waiting d dh).hang (d.dn + 1) = .ok (Dec.leftHung d dh) :=
  hang_left (d := Dec.waiting d dh) (p := d.dn) (n := .internal none none) (Nat.succ_ne_zero _)
    (List.getElem?_set_self hstk) (List.getElem?_set_self hroom)

variable (hl : TreeRead l (Dec.waiting d dh) (Dec.leftHung d dh) dl)
include hl

/-- After the left subtree its parent is on top of the stack again, with the left child in place. -/
theorem TreeRead.top_left :
    dl.dsp = dh.dsp + 1 ∧ dl.dstk[dh.dsp]? = some { node := d.dn, side := true } ∧
      dl.dnode[d.dn]? = some (.internal (some (d.dn + 1)) none) := by
  refine ⟨hl.dsp, (hl.dstk dh.dsp (Nat.lt_succ_self _)).trans ?_, (hl.below d.dn (Nat.lt_succ_self _)).trans ?_⟩
  · exact List.getElem?_set_self (by simpa [Dec.waiting] using hstk)
  · exact List.getElem?_set_self (by simpa [Dec.waiting] using hroom)

theorem TreeRead.hang_right : dl.hang dl.dn = .ok (Dec.rightHung d dh dl) := by
  obtain ⟨hsp, htop, hn⟩ := hl.top_left hroom hstk
  have hsub : dl.dsp - 1 = dh.dsp := by omega
  rw [Machine.hang_right (by omega) (hsub ▸ htop) hn, hsub]
  rfl

end Hang

/-- The two subtrees make the tree: each one's records leave the other's entries. -/
theorem TreeRead.node (hroom : d.dn < dh.dnode.length) (hl : TreeRead l (Dec.waiting d dh) (Dec.leftHung d dh) dl)
    (h : d.hang d.dn = .ok dh) (hr : TreeRead r dl (Dec.rightHung d dh dl) dr) :
    TreeRead (.node l r) d dh dr := by
  obtain ⟨hphase, herr, hcur, hnodes, hentries⟩ := hang_keeps h
  have hdn : dl.dn = d.dn + 1 + l.size := hl.dn
  have hlength : d.dn < dl.dnode.length := by
    rw [hl.nodes]
    simpa [Dec.waiting] using hroom
  have hkept : ∀ j, j < dl.dn → j ≠ d.dn → dr.dnode[j]? = dl.dnode[j]? := fun j hj hne =>
    (hr.below j hj).trans (List.getElem?_set_ne (Ne.symm hne))
  have hpending : (Dec.leftHung d dh).dsp ≠ 0 := Nat.succ_ne_zero _
  constructor
  case laid =>
    refine ⟨?_, hl.laid.congr fun j hj hlt => hkept j ?_ ?_, hdn ▸ hr.laid⟩
    · rw [hr.below d.dn (by omega), ← hdn]
      exact List.getElem?_set_self hlength
    · exact (show j < d.dn + 1 + l.size from hlt).trans_eq hdn.symm
    · exact (Nat.lt_of_succ_le hj).ne'
  case below =>
    intro j hj
    rw [hkept j (by omega) hj.ne, hl.below j (Nat.lt_succ_of_lt hj)]
    simp [Dec.leftHung, Dec.waiting, List.getElem?_set_ne hj.ne']
  case dn =>
    rw [hr.dn, hdn, HTree.size]
    omega
  case dsp => exact hr.dsp
  case dstk =>
    intro k hk
    rw [hr.dstk k hk]
    refine (hl.dstk k (Nat.lt_succ_of_lt hk)).trans ?_
    simp [Dec.leftHung, Dec.waiting, List.getElem?_set_ne hk.ne']
  case droot => exact hr.droot.trans hl.droot
  case phase =>
    rw [hr.phase, hl.phase, if_neg hpending, ← hphase]
    rfl
  case cur =>
    have hlroot : (Dec.rightHung d dh dl).droot = dh.droot := hl.droot
    rw [hr.cur, hl.cur, if_neg hpending, ← hcur, hlroot]
    rfl
  case err => exact hr.err.trans (hl.err.trans herr)
  case nodes => exact hr.nodes.trans (hl.nodes.trans ((List.length_set ..).trans hnodes))
  case entries => exact hr.entries.trans (hl.entries.trans ((List.length_set ..).trans hentries))

end Node

/-- DEC is about to read the records of the tree `T`, whose root will hang as in `dh`; its stores have room (R182). -/
structure HeaderReady (T : HTree) (s : State) (dh : Dec) : Prop where
  phase : s.dec.phase = .rdhdr
  bits : CinPresents T.ser s
  cap : s.dec.dnode.length = s.cfg.decNodeCap
  hang : s.dec.hang s.dec.dn = .ok dh
  parent : ParentAllocated s.dec
  nodes : s.dec.dn + T.size ≤ s.dec.dnode.length
  entries : dh.dsp + T.size ≤ s.dec.dstk.length

section Subtrees
variable {dl : Dec} {l r : HTree}

theorem HeaderReady.room (h : HeaderReady T s dh) :
    s.dec.dn < s.dec.dnode.length ∧ s.dec.dn < dh.dnode.length ∧ dh.dsp < dh.dstk.length := by
  obtain ⟨-, -, -, hnodes, hentries⟩ := hang_keeps h.hang
  have hsize := one_le_size T
  have hroom := h.nodes
  have hstk := h.entries
  omega

theorem HeaderReady.left (h : HeaderReady (.node l r) s dh) :
    HeaderReady l (s.read 1 (Dec.waiting s.dec dh)) (Dec.leftHung s.dec dh) := by
  obtain ⟨hphase, -, -, hnodes, hentries⟩ := hang_keeps h.hang
  obtain ⟨-, hroom, hstk⟩ := h.room
  have hsize : s.dec.dn + (l.size + r.size + 1) ≤ s.dec.dnode.length := h.nodes
  have hdepth : dh.dsp + (l.size + r.size + 1) ≤ s.dec.dstk.length := h.entries
  constructor
  case phase => exact hphase.trans h.phase
  case bits => exact h.bits.of_append.1.of_append.2
  case cap => exact (List.length_set ..).trans (hnodes.trans h.cap)
  case hang => exact hang_waiting hroom hstk
  case parent =>
    intro e _ he
    obtain rfl := Option.some.inj ((List.getElem?_set_self hstk).symm.trans he)
    exact Nat.lt_succ_self _
  case nodes => simp only [State.read, Dec.waiting, List.length_set]; omega
  case entries => simp only [State.read, Dec.waiting, Dec.leftHung, List.length_set]; omega

theorem HeaderReady.right (h : HeaderReady (.node l r) s dh)
    (hl : TreeRead l (Dec.waiting s.dec dh) (Dec.leftHung s.dec dh) dl) :
    HeaderReady r (s.read (1 + l.ser.length) dl) (Dec.rightHung s.dec dh dl) := by
  obtain ⟨hphase, -, -, hnodes, hentries⟩ := hang_keeps h.hang
  obtain ⟨-, hroom, hstk⟩ := h.room
  obtain ⟨hsp, htop, -⟩ := hl.top_left hroom hstk
  have hsize : s.dec.dn + (l.size + r.size + 1) ≤ s.dec.dnode.length := h.nodes
  have hdepth : dh.dsp + (l.size + r.size + 1) ≤ s.dec.dstk.length := h.entries
  have hdn : dl.dn = s.dec.dn + 1 + l.size := hl.dn
  have hlnodes : dl.dnode.length = s.dec.dnode.length := hl.nodes.trans ((List.length_set ..).trans hnodes)
  have hlentries : dl.dstk.length = s.dec.dstk.length := hl.entries.trans ((List.length_set ..).trans hentries)
  constructor
  case phase => exact hl.phase.trans ((if_neg (Nat.succ_ne_zero _)).trans (hphase.trans h.phase))
  case bits =>
    have hbits := h.bits.of_append.2
    rwa [List.length_append] at hbits
  case cap => exact hlnodes.trans h.cap
  case hang => exact hl.hang_right hroom hstk
  case parent =>
    intro e _ he
    have he : dl.dstk[dl.dsp - 1]? = some e := he
    rw [hsp, Nat.add_sub_cancel, htop] at he
    obtain rfl := Option.some.inj he
    show s.dec.dn < dl.dn
    omega
  case nodes => simp only [State.read]; omega
  case entries => simp only [State.read, Dec.rightHung]; omega

end Subtrees

/-- The header reader's turns over a subtree's records. -/
theorem HeaderReady.turns (h : HeaderReady T s dh) :
    ∃ d, turns .dec T.size s = .next (s.read T.ser.length d) ∧ TreeRead T s.dec dh d := by
  induction T generalizing s dh with
  | leaf v =>
    obtain ⟨hroom, -, -⟩ := h.room
    refine ⟨_, ?_, treeRead_leaf h.hang hroom⟩
    rw [HTree.size, turns_one]
    exact runUnit_of_record (r := some v) h.phase h.bits (h.cap ▸ hroom.ne) (addRecord_leaf h.hang h.parent hroom v)
  | node l r ihl ihr =>
    obtain ⟨hroom, hnodes, hstk⟩ := h.room
    have hbit : CinPresents (recordBits none) s := h.bits.of_append.1.of_append.1
    have hstep : runUnit .dec s = .next (s.read 1 (Dec.waiting s.dec dh)) :=
      runUnit_of_record h.phase hbit (h.cap ▸ hroom.ne) (addRecord_node h.hang h.parent hroom hstk)
    obtain ⟨dl, hturnsl, hl⟩ := ihl h.left
    obtain ⟨dr, hturnsr, hr⟩ := ihr (h.right hl)
    rw [read_read] at hturnsl hturnsr
    refine ⟨dr, ?_, hl.node hnodes h.hang hr⟩
    rw [HTree.size, turns_succ hstep, turns_then hturnsl, hturnsr, HTree.ser, List.length_append, List.length_append]
    rfl

/-- On the serialization of a tree the header reader rebuilds the tree, with the walker on its root (R186). -/
theorem turns_readHeader (hp : s.dec.phase = .rdhdr) (hdn : s.dec.dn = 0) (hdsp : s.dec.dsp = 0)
    (hnodes : s.dec.dnode.length = s.cfg.decNodeCap) (hentries : s.dec.dstk.length = s.cfg.decNodeCap)
    (hsize : T.size ≤ s.cfg.decNodeCap) (hbits : CinPresents T.ser s) :
    ∃ d, turns .dec T.size s = .next (s.read T.ser.length d) ∧ DNodeRep d.dnode T d.droot ∧ d.cur = d.droot ∧
      d.phase = .decode ∧ d.err = s.dec.err := by
  have hready : HeaderReady T s { s.dec with droot := s.dec.dn } :=
    { phase := hp, bits := hbits, cap := hnodes, hang := hang_root hdsp, parent := fun _ h0 => absurd hdsp h0
      nodes := by omega
      entries := by simp only; omega }
  obtain ⟨d, hturns, hread⟩ := hready.turns
  refine ⟨d, hturns, ?_, ?_, hread.phase.trans (if_pos hdsp), hread.err⟩
  · rw [hread.droot]
    exact hread.laid.dnodeRep
  · exact (hread.cur.trans (if_pos hdsp)).trans hread.droot.symm

end Read

end Sys2Proof.Machine
end

section
/-! PROOFS. The round trip (R195): the walk of a code ends at its leaf (R196), so DEC reads the codes of a stream back
one after the other; a whole run of DEC on what ENC wrote. -/

namespace Sys2Proof.Machine

section WalkOfCodes
variable {root l r : HTree} {v : Sym} {c rest : Bits}

/-- What the walk still does once a code has led to the leaf of `v` (R190). -/
def leafWalk (root : HTree) (v : Sym) (rest : Bits) : List Byte × Bool × Nat :=
  if v = pseudoEof then ([], true, 0)
  else (lowByte v :: (bodyWalk root root rest).1, (bodyWalk root root rest).2.1, (bodyWalk root root rest).2.2)

theorem bodyWalk_cons_of_leaf {b : Bool} (h : (if b then r else l) = .leaf v) :
    bodyWalk root (.node l r) (b :: rest) =
      ((leafWalk root v rest).1, (leafWalk root v rest).2.1, (leafWalk root v rest).2.2 + 1) := by
  by_cases hv : v = pseudoEof
  · rw [leafWalk, if_pos hv]
    exact bodyWalk_cons_of_eof (hv ▸ h)
  · rw [leafWalk, if_neg hv]
    exact bodyWalk_cons_of_literal h hv

/-- The bits of a code walk to its leaf. -/
theorem bodyWalk_code (hc : (v, c) ∈ (HTree.node l r).codes) :
    bodyWalk root (.node l r) (c ++ rest) =
      ((leafWalk root v rest).1, (leafWalk root v rest).2.1, (leafWalk root v rest).2.2 + c.length) := by
  induction c generalizing l r with
  | nil =>
    obtain ⟨_, _, h, -⟩ := mem_codes_node hc
    cases h
  | cons b c ih =>
    obtain ⟨_, _, h, hc'⟩ := mem_codes_node hc
    obtain ⟨rfl, rfl⟩ := List.cons.inj h
    rw [List.cons_append]
    cases hchild : (if b then r else l) with
    | leaf w =>
      rw [hchild] at hc'
      obtain ⟨rfl, rfl⟩ := Prod.mk.inj (List.mem_singleton.mp hc')
      exact bodyWalk_cons_of_leaf hchild
    | node l' r' =>
      rw [hchild] at hc'
      rw [bodyWalk_cons_of_node hchild, ih hc']
      rfl

theorem symbolAt_byteIndex_ne (x : Byte) : symbolAt (byteIndex x) ≠ pseudoEof := fun h =>
  byteIndex_ne_eofIndex x (symbolAt_injective h)

theorem lowByte_symbolAt (x : Byte) : lowByte (symbolAt (byteIndex x)) = x := by
  apply BitVec.eq_of_toNat_eq
  rw [lowByte, BitVec.toNat_setWidth, symbolAt_toNat]
  exact Nat.mod_eq_of_lt x.isLt

/-- The body of a compressed stream walks to `raw` and ends there, whatever follows (R195, R196). -/
theorem CodesOf.bodyWalk {code : Fin nsym → Bits} {raw : List Byte} (h : CodesOf (.node l r) code raw) :
    bodyWalk (.node l r) (.node l r) (bodyBits code raw ++ rest) = (raw, true, (bodyBits code raw).length) := by
  obtain ⟨hbyte, heof⟩ := h
  induction raw with
  | nil => exact (bodyWalk_code heof).trans (by rw [leafWalk, if_pos rfl, Nat.zero_add]; rfl)
  | cons x raw ih =>
    have hcons : bodyBits code (x :: raw) = code (byteIndex x) ++ bodyBits code raw := by
      rw [bodyBits, List.flatMap_cons, List.append_assoc, bodyBits]
    rw [hcons, List.append_assoc, bodyWalk_code (hbyte x (List.mem_cons_self ..)), leafWalk,
      if_neg (symbolAt_byteIndex_ne x), ih fun y hy => hbyte y (List.mem_cons_of_mem _ hy), lowByte_symbolAt,
      List.length_append, Nat.add_comm]

end WalkOfCodes

section DecoderRun
variable {s : State} {T : HTree}

/-- The state after DEC.START (R123). -/
def State.decStarted (s : State) (comp : Bits) : State :=
  { s with dec := { s.dec with dn := 0, dsp := 0, err := .none, phase := .rdmagic }
           cin := { s.cin with data := comp, pos := 0 }
           sout := { s.sout with bytes := [], closed := false } }

section Stream
variable {item rest : Bits} (h : s.cin.data.drop s.cin.pos = item ++ rest)
include h

theorem cinPresents_of_drop (hv : s.cin.valid = true) : CinPresents item s := by
  refine ⟨hv, ?_, by rw [h, List.take_left]⟩
  rw [← List.length_drop, h, List.length_append]
  exact Nat.le_add_right _ _

theorem drop_of_drop : s.cin.data.drop (s.cin.pos + item.length) = rest := by
  rw [← List.drop_drop, h, List.drop_left]

end Stream

theorem runUnit_dec_of_magic (hp : s.dec.phase = .rdmagic) (h : CinPresents (bits 32 s.cfg.magic.toNat) s) :
    runUnit .dec s = .next (s.read 32 { s.dec with phase := .rdhdr }) := by
  rw [runUnit_some (i := .decRdmagic) (by rw [fetchUnit_dec, hp]; rfl), exec_decRdmagic_of_word h]
  exact if_pos rfl

theorem runUnit_dec_of_close (hp : s.dec.phase = .close) (herr : s.dec.err = .none) (hopen : SoutOpen s) :
    runUnit .dec s = .next { s with sout := { s.sout with closed := true }, dec := { s.dec with phase := .done } } := by
  rw [runUnit_some (i := .decClose) (by rw [fetchUnit_dec, hp]; rfl), exec_decClose_of_open hopen, if_pos herr]

section Body
variable {code : Fin nsym → Bits} {raw : List Byte} {tail : Bits}

/-- From the root of the tree, DEC reads the body of a compressed stream and writes `raw` (R192, R196). -/
theorem turns_body (hp : s.dec.phase = .decode) (hv : s.cin.valid = true) (hopen : SoutOpen s)
    (hcur : s.dec.cur = s.dec.droot) (hrep : DNodeRep s.dec.dnode T s.dec.droot) (h : CodesOf T code raw)
    (hbits : s.cin.data.drop s.cin.pos = bodyBits code raw ++ tail) (hpos : s.cin.pos ≤ s.cin.data.length) :
    ∃ n k, turns .dec n s = .next ((s.walked (bodyBits code raw).length raw k).bodyEnded true) := by
  cases T with
  | leaf v =>
    obtain ⟨hbyte, heof⟩ := h
    have hnone : code eofIndex = [] := (Prod.mk.inj (List.mem_singleton.mp heof)).2
    obtain rfl : v = pseudoEof := (Prod.mk.inj (List.mem_singleton.mp heof)).1.symm
    have hraw : raw = [] := List.eq_nil_iff_forall_not_mem.mpr fun x hx =>
      symbolAt_byteIndex_ne x (Prod.mk.inj (List.mem_singleton.mp (hbyte x hx))).1
    refine ⟨1, s.dec.cur, ?_⟩
    rw [turns_one, runUnit_dec_of_decode hp, exec_decDecode_of_leaf_root hrep]
    simp [hraw, hnone, bodyBits, State.walked, State.bodyEnded]
  | node l r =>
    have hdec : Decoding (.node l r) (.node l r) s := ⟨hp, hv, hopen, hrep, hcur ▸ hrep⟩
    obtain ⟨k, hturns, -⟩ := h.bodyWalk ▸ hdec.walkEnds hbits hpos
    exact ⟨_, k, hturns⟩

/-- The body, and then the close (R194). -/
theorem turns_bodyAndClose (hp : s.dec.phase = .decode) (herr : s.dec.err = .none) (hv : s.cin.valid = true)
    (hopen : SoutOpen s) (hcur : s.dec.cur = s.dec.droot) (hrep : DNodeRep s.dec.dnode T s.dec.droot)
    (h : CodesOf T code raw) (hbits : s.cin.data.drop s.cin.pos = bodyBits code raw ++ tail)
    (hpos : s.cin.pos ≤ s.cin.data.length) :
    ∃ n u, turns .dec n s = .next u ∧ u.dec.phase = .done ∧ u.dec.err = .none ∧
      u.sout.bytes = s.sout.bytes ++ raw ∧ u.sout.closed = true ∧
      u.cin.pos = s.cin.pos + (bodyBits code raw).length := by
  obtain ⟨n, k, hbody⟩ := turns_body hp hv hopen hcur hrep h hbits hpos
  have hclose := runUnit_dec_of_close (s := (s.walked (bodyBits code raw).length raw k).bodyEnded true) rfl herr hopen
  rw [← turns_one] at hclose
  exact ⟨n + 1, _, (turns_then hbody).trans hclose, rfl, herr, rfl, rfl, rfl⟩

/-- The magic and the header: one turn, and one per node (R180, R186). -/
theorem turns_readPrefix {rest : Bits} (hp : s.dec.phase = .rdmagic) (hv : s.cin.valid = true) (hdn : s.dec.dn = 0)
    (hdsp : s.dec.dsp = 0) (hnodes : s.dec.dnode.length = s.cfg.decNodeCap)
    (hentries : s.dec.dstk.length = s.cfg.decNodeCap) (hsize : T.size ≤ s.cfg.decNodeCap)
    (hdata : s.cin.data.drop s.cin.pos = bits 32 s.cfg.magic.toNat ++ (T.ser ++ rest)) :
    ∃ d, turns .dec (T.size + 1) s = .next (s.read (32 + T.ser.length) d) ∧ DNodeRep d.dnode T d.droot ∧
      d.cur = d.droot ∧ d.phase = .decode ∧ d.err = s.dec.err := by
  have hser : s.cin.data.drop (s.cin.pos + 32) = T.ser ++ rest := by
    have hdrop := drop_of_drop hdata
    rwa [length_bits] at hdrop
  obtain ⟨d, hturns, htree⟩ := turns_readHeader (s := s.read 32 { s.dec with phase := .rdhdr })
    rfl hdn hdsp hnodes hentries hsize (cinPresents_of_drop hser hv)
  rw [read_read] at hturns
  exact ⟨d, (turns_succ (runUnit_dec_of_magic hp (cinPresents_of_drop hdata hv))).trans hturns, htree⟩

/-- A whole run of DEC on the compressed form of `raw`, whatever follows it, ends in `DONE` with `raw` written. -/
theorem turns_decoder {out : Bits} (tail : Bits) (hv : s.cin.valid = true) (hready : s.sout.ready = true)
    (hcap : 513 ≤ s.cfg.decNodeCap) (hnodes : s.dec.dnode.length = s.cfg.decNodeCap)
    (hentries : s.dec.dstk.length = s.cfg.decNodeCap) (h : StreamOf s.cfg.magic raw T code out) :
    ∃ n u, turns .dec n (s.decStarted (out ++ tail)) = .next u ∧ u.dec.phase = .done ∧ u.dec.err = .none ∧
      u.sout.bytes = raw ∧ u.sout.closed = true ∧ u.cin.pos = out.length := by
  obtain ⟨hleaves, hcodes, hout⟩ := h
  have hsize : T.size ≤ s.cfg.decNodeCap := by
    have := size_add_one T
    simp only [nsym] at hleaves
    omega
  have hdata : out ++ tail = bits 32 s.cfg.magic.toNat ++ (T.ser ++ (bodyBits code raw ++ tail)) := by
    simp only [hout, List.append_assoc]
  have hlength : out.length = 32 + T.ser.length + (bodyBits code raw).length := by
    rw [hout, List.length_append, List.length_append, length_bits]
  obtain ⟨d, hprefix, hrep, hcur, hphase, herr⟩ :=
    turns_readPrefix (s := s.decStarted (out ++ tail)) rfl hv rfl rfl hnodes hentries hsize hdata
  have hbody : (out ++ tail).drop (0 + (32 + T.ser.length)) = bodyBits code raw ++ tail := by
    rw [Nat.zero_add, hout, List.append_assoc, List.drop_left' (by rw [List.length_append, length_bits])]
  have hpos : 0 + (32 + T.ser.length) ≤ (out ++ tail).length := by
    rw [List.length_append]
    omega
  obtain ⟨n, u, hturns, hdone, hnone, hbytes, hclosed, hend⟩ := turns_bodyAndClose
    (s := (s.decStarted (out ++ tail)).read (32 + T.ser.length) d)
    hphase herr hv ⟨hready, rfl⟩ hcur hrep hcodes hbody hpos
  refine ⟨T.size + 1 + n, u, (turns_then hprefix).trans hturns, hdone, hnone, hbytes, hclosed, hend.trans ?_⟩
  show 0 + (32 + T.ser.length) + (bodyBits code raw).length = out.length
  omega

end Body

end DecoderRun

/-- Settles O60: a whole run of ENC, and then a whole run of DEC on its output. -/
theorem compressThenDecompressIsTheInput : Obligations.CompressThenDecompressIsTheInput := by
  intro s raw tail henc hdec hready hcnt hcap hnodes hentries
  obtain ⟨t, T, hturns, hdone, -, -, hstream, hframe⟩ := turns_encoder (raw := raw) hready hcnt
  obtain ⟨-, -, hcin, hsout⟩ := hready
  have hcfg : t.cfg = s.cfg := by rw [hframe]
  have hdec_eq : t.dec = s.dec := by rw [hframe]
  have hcin_eq : t.cin = s.cin := by rw [hframe]
  have hsout_eq : t.sout = s.sout := by rw [hframe]
  rw [← hcfg] at hcap hnodes hentries hstream
  rw [← hdec_eq] at hdec hnodes hentries
  obtain ⟨n, u, hdecode, hend⟩ :=
    turns_decoder tail (hcin_eq ▸ hcin) (hsout_eq ▸ hsout) hcap hnodes hentries hstream
  exact ⟨_, t, _, u, _, n, exec_encStart_of_waiting raw henc, hturns, hdone, exec_decStart_of_waiting _ hdec, hdecode,
    hend⟩

end Sys2Proof.Machine
end

section
/-! PROOFS. Which operations raise (R203): each operation keeps both units' `err`, clears it as a command, or raises what
the table of R201 gives it. One lemma per operation, from what it can do when it answers a next state. -/

namespace Sys2Proof.Machine

/-- Neither unit's `err` has changed. -/
def KeepsErr (s t : State) : Prop := t.enc.err = s.enc.err ∧ t.dec.err = s.dec.err

/-- DEC has raised `e` (R204): beside `err` and `phase`, only its input port may have changed. -/
def DecRaised (e : Err) (s t : State) : Prop :=
  t = { s with cin := t.cin, dec := { s.dec with err := e, phase := .close } }

theorem KeepsErr.trans {s t u : State} (hst : KeepsErr s t) (htu : KeepsErr t u) : KeepsErr s u :=
  ⟨htu.1.trans hst.1, htu.2.trans hst.2⟩

/-- An operation of DEC that at most raises `e` leaves ENC's `err`, and leaves DEC's unless it raises. -/
theorem err_of_keepsErr_or_decRaised {A B : Prop} {P : Err → Prop} {e : Err} {s t : State}
    (h : KeepsErr s t ∨ DecRaised e s t) (he : P e) :
    (t.enc.err = s.enc.err ∨ A) ∧ (t.dec.err = s.dec.err ∨ B ∨ ∃ e, DecRaised e s t ∧ P e) := by
  obtain hkeep | hraise := h
  · exact hkeep.imp .inl .inl
  · exact ⟨.inl (by rw [hraise]), .inr (.inr ⟨e, hraise, he⟩)⟩

section Operations
variable {s t : State}

/-! ### Unit ENC -/

theorem execEncCount_keepsErr (h : execEncCount s = .next t) : KeepsErr s t := by
  obtain rfl | ⟨-, rfl⟩ | ⟨r, -, rfl⟩ := execEncCount_next h <;> exact ⟨rfl, rfl⟩

theorem execEncMerge_keepsErr (h : execEncMerge s = .next t) : KeepsErr s t := by
  obtain ⟨-, hn, h⟩ | ⟨-, h⟩ := execEncMerge_next h
  · simp only [mergeTwo, if_pos hn] at h
    cases h
    exact ⟨rfl, rfl⟩
  · cases h
    exact ⟨rfl, rfl⟩

theorem execEncGen_keepsErr (h : execEncGen s = .next t) : KeepsErr s t := by
  obtain ⟨x, n, -, -, -, ⟨v, hv, -, rfl⟩ | ⟨l, r, -, -, rfl⟩⟩ := execEncGen_next h
  · exact ⟨endOfWalk_err .., rfl⟩
  · exact ⟨rfl, rfl⟩

theorem execEncWrmagic_keepsErr (h : execEncWrmagic s = .next t) : KeepsErr s t := by
  obtain rfl | rfl := execEncWrmagic_next h <;> exact ⟨rfl, rfl⟩

theorem execEncWrhdr_keepsErr (h : execEncWrhdr s = .next t) : KeepsErr s t := by
  obtain ⟨x, n, -, -, -, rfl | ⟨v, -, rfl⟩ | ⟨l, r, -, -, rfl⟩⟩ := execEncWrhdr_next h
  · exact ⟨rfl, rfl⟩
  · exact ⟨endOfWalk_err .., rfl⟩
  · exact ⟨rfl, rfl⟩

theorem execEncEncode_err (h : execEncEncode s = .next t) :
    KeepsErr s t ∨ t = { s with rin := t.rin, enc := { s.enc with err := .encNoCode, phase := .close } } := by
  obtain rfl | ⟨-, rfl⟩ | ⟨r, -, -, rfl⟩ | ⟨r, -, -, rfl⟩ := execEncEncode_next h
  · exact .inl ⟨rfl, rfl⟩
  · exact .inl ⟨rfl, rfl⟩
  · exact .inl ⟨rfl, rfl⟩
  · exact .inr rfl

theorem execEncWreof_keepsErr (h : execEncWreof s = .next t) : KeepsErr s t := by
  obtain rfl | rfl := execEncWreof_next h <;> exact ⟨rfl, rfl⟩

theorem execEncClose_keepsErr (h : execEncClose s = .next t) : KeepsErr s t := by
  obtain rfl | rfl := execEncClose_next h <;> exact ⟨rfl, rfl⟩

/-! ### Unit DEC: the header -/

theorem takeMagic_err {m : MagicWord} {p : Cin} (h : takeMagic m { s with cin := p } = .next t) :
    KeepsErr s t ∨ DecRaised .formatError s t := by
  obtain ⟨-, rfl⟩ | ⟨-, rfl⟩ := takeMagic_next h
  · exact .inl ⟨rfl, rfl⟩
  · exact .inr rfl

theorem addRecord_keeps_err {r : Option Sym} {d d' : Dec} (h : d.addRecord r = .ok d') : d'.err = d.err := by
  obtain ⟨d1, d2, d3, halloc, hhang, hawait, rfl⟩ := Dec.addRecord_eq_ok h
  obtain ⟨-, rfl⟩ := Dec.allocate_eq_ok halloc
  obtain ⟨-, herr, -⟩ := hang_keeps hhang
  obtain ⟨-, rfl⟩ | ⟨-, -, rfl⟩ := Dec.await_eq_ok hawait <;> exact (endOfHeader_err _).trans herr

theorem takeRecord_err {r : Option Sym} {p : Cin} (h : takeRecord r { s with cin := p } = .next t) :
    KeepsErr s t ∨ DecRaised .headerCapacity s t := by
  obtain ⟨-, rfl⟩ | ⟨-, d, hadd, rfl⟩ := takeRecord_next h
  · exact .inr rfl
  · exact .inl ⟨rfl, addRecord_keeps_err hadd⟩

theorem execDecRdmagic_err (h : execDecRdmagic s = .next t) : KeepsErr s t ∨ DecRaised .formatError s t := by
  obtain rfl | rfl | ⟨-, m, h⟩ := execDecRdmagic_next h
  · exact .inl ⟨rfl, rfl⟩
  · exact .inr rfl
  · exact takeMagic_err h

theorem execDecRdhdr_err (h : execDecRdhdr s = .next t) :
    KeepsErr s t ∨ DecRaised .headerCorrupt s t ∨ DecRaised .headerCapacity s t := by
  obtain rfl | rfl | ⟨-, h⟩ | ⟨-, v, h⟩ := execDecRdhdr_next h
  · exact .inl ⟨rfl, rfl⟩
  · exact .inr (.inl rfl)
  · exact (takeRecord_err h).imp_right .inr
  · exact (takeRecord_err h).imp_right .inr

theorem execMagic_err {m : MagicWord} (h : execMagic m s = .next t) :
    KeepsErr s t ∨ DecRaised .formatError s t := by
  unfold execMagic at h
  split at h
  · exact takeMagic_err h
  · cases h; exact .inl ⟨rfl, rfl⟩

/-- Both record items, in the phase that reads them or in another. -/
theorem exec_recordItem_err {r : Option Sym} (h : exec (recordItem r) s = .next t) :
    KeepsErr s t ∨ DecRaised .headerCapacity s t := by
  by_cases hread : s.dec.phase = .rdhdr ∧ s.cin.valid = true
  · rw [exec_recordItem_of_rdhdr r hread.1 hread.2] at h
    exact takeRecord_err h
  · have hstay : exec (recordItem r) s = .next s := by cases r <;> exact if_neg hread
    cases hstay.symm.trans h
    exact .inl ⟨rfl, rfl⟩

/-! ### Unit DEC: the body -/

theorem takeBit_keepsErr {b : Bool} {p : Cin} (h : takeBit b s { s with cin := p } = .next t) : KeepsErr s t := by
  obtain ⟨n, c, m, -, -, -, hmove⟩ := takeBit_next h
  obtain ⟨l, r, -, rfl⟩ | ⟨-, rfl⟩ | ⟨v, -, -, ⟨-, rfl⟩ | ⟨q, -, rfl⟩⟩ := hmove <;> exact ⟨rfl, rfl⟩

theorem takeBits_keepsErr {code : Bits} (h : takeBits code s = .next t) : KeepsErr s t := by
  induction code generalizing s with
  | nil => cases h; exact ⟨rfl, rfl⟩
  | cons b bs ih =>
    rw [takeBits] at h
    split at h
    · split at h
      · rename_i u hbit
        have hu : KeepsErr s u := takeBit_keepsErr hbit
        split at h
        · cases h; exact hu
        · exact hu.trans (ih h)
      · cases h
      · cases h
    · cases h; exact ⟨rfl, rfl⟩

theorem takeBody_keepsErr {code : Bits} (h : takeBody code s = .next t) : KeepsErr s t := by
  unfold takeBody at h
  split at h
  · split at h
    · cases h
    · cases h; exact ⟨rfl, rfl⟩
    · exact takeBits_keepsErr h
  · cases h; exact ⟨rfl, rfl⟩

theorem execDecDecode_err (h : execDecDecode s = .next t) : KeepsErr s t ∨ DecRaised .decodeTermination s t := by
  obtain ⟨-, rfl⟩ | ⟨-, rfl | rfl | ⟨-, b, h⟩⟩ := execDecDecode_next h
  · exact .inl ⟨rfl, rfl⟩
  · exact .inl ⟨rfl, rfl⟩
  · exact .inr rfl
  · exact .inl (takeBit_keepsErr h)

theorem execDecClose_keepsErr (h : execDecClose s = .next t) : KeepsErr s t := by
  obtain rfl | rfl := execDecClose_next h <;> exact ⟨rfl, rfl⟩

/-! ### The start commands -/

theorem exec_encStart_err {raw : List Byte} (h : exec (.encStart raw) s = .next t) :
    KeepsErr s t ∨ (t.enc.err = .none ∧ t.dec.err = s.dec.err) := by
  by_cases hw : s.enc.phase.waiting = true
  · cases (exec_encStart_of_waiting raw hw).symm.trans h
    exact .inr ⟨rfl, rfl⟩
  · cases (exec_encStart_of_not_waiting raw hw).symm.trans h
    exact .inl ⟨rfl, rfl⟩

theorem exec_decStart_err {comp : Bits} (h : exec (.decStart comp) s = .next t) :
    KeepsErr s t ∨ (t.enc.err = s.enc.err ∧ t.dec.err = .none) := by
  by_cases hw : s.dec.phase.waiting = true
  · cases (exec_decStart_of_waiting comp hw).symm.trans h
    exact .inr ⟨rfl, rfl⟩
  · cases (exec_decStart_of_not_waiting comp hw).symm.trans h
    exact .inl ⟨rfl, rfl⟩

end Operations

/-- Settles O42: ENC.ENCODE and six instructions of DEC can raise, the three commands clear, and all others keep `err`. -/
theorem onlyTheNamedOperationsRaise : Obligations.OnlyTheNamedOperationsRaise := by
  intro i s t h
  cases i with
  | reset =>
    cases h
    exact ⟨.inr (.inl ⟨rfl, .inl rfl⟩), .inr (.inl ⟨rfl, .inl rfl⟩)⟩
  | encStart raw =>
    obtain hkeep | ⟨hclear, hdec⟩ := exec_encStart_err h
    · exact hkeep.imp .inl .inl
    · exact ⟨.inr (.inl ⟨hclear, .inr ⟨raw, rfl⟩⟩), .inl hdec⟩
  | decStart comp =>
    obtain hkeep | ⟨henc, hclear⟩ := exec_decStart_err h
    · exact hkeep.imp .inl .inl
    · exact ⟨.inl henc, .inr (.inl ⟨hclear, .inr ⟨comp, rfl⟩⟩)⟩
  | encWaitIdle | encWaitDone | encWaitFault | decWaitIdle | decWaitDone | decWaitFault | pad | encQinit | encRewind =>
    cases h
    exact ⟨.inl rfl, .inl rfl⟩
  | encCount => exact (execEncCount_keepsErr h).imp .inl .inl
  | encMerge => exact (execEncMerge_keepsErr h).imp .inl .inl
  | encGen => exact (execEncGen_keepsErr h).imp .inl .inl
  | encWrmagic => exact (execEncWrmagic_keepsErr h).imp .inl .inl
  | encWrhdr => exact (execEncWrhdr_keepsErr h).imp .inl .inl
  | encWreof => exact (execEncWreof_keepsErr h).imp .inl .inl
  | encClose => exact (execEncClose_keepsErr h).imp .inl .inl
  | encEncode =>
    obtain hkeep | hraise := execEncEncode_err h
    · exact hkeep.imp .inl .inl
    · exact ⟨.inr (.inr ⟨rfl, hraise⟩), .inl (by rw [hraise])⟩
  | decRdmagic => exact err_of_keepsErr_or_decRaised (execDecRdmagic_err h) (.inl ⟨rfl, .inl rfl⟩)
  | magic m => exact err_of_keepsErr_or_decRaised (execMagic_err h) (.inl ⟨rfl, .inr ⟨m, rfl⟩⟩)
  | decRdhdr =>
    obtain hkeep | hcorrupt | hfull := execDecRdhdr_err h
    · exact hkeep.imp .inl .inl
    · exact err_of_keepsErr_or_decRaised (.inr hcorrupt) (.inr (.inl ⟨rfl, rfl⟩))
    · exact err_of_keepsErr_or_decRaised (.inr hfull) (.inr (.inr (.inl ⟨rfl, .inl rfl⟩)))
  | hdrNode =>
    exact err_of_keepsErr_or_decRaised (exec_recordItem_err (r := none) h)
      (.inr (.inr (.inl ⟨rfl, .inr (.inl rfl)⟩)))
  | hdrLeaf v =>
    exact err_of_keepsErr_or_decRaised (exec_recordItem_err (r := some v) h)
      (.inr (.inr (.inl ⟨rfl, .inr (.inr ⟨v, rfl⟩)⟩)))
  | decDecode => exact err_of_keepsErr_or_decRaised (execDecDecode_err h) (.inr (.inr (.inr ⟨rfl, rfl⟩)))
  | decClose => exact (execDecClose_keepsErr h).imp .inl .inl
  | bodyCode code | bodyEof code => exact (takeBody_keepsErr h).imp .inl .inl

end Sys2Proof.Machine
end

section
/-! PROOFS. The command RESET (R121, R231): the STATUS words of idle units without an error, and what RESET keeps. -/

namespace Sys2Proof.Machine

/-- `busy`, `done` and `fault` are functions of the phase, so the phase and `err` fix the whole word (R43). -/
theorem Enc.status_of_idle {e : Enc} (hphase : e.phase = .idle) (herr : e.err = .none) : e.status = 0 := by
  rw [e.status_eq_statusWord, Enc.busy, Enc.done, Enc.faulted, hphase, herr]
  rfl

/-- As for ENC (R43). -/
theorem Dec.status_of_idle {d : Dec} (hphase : d.phase = .idle) (herr : d.err = .none) : d.status = 0 := by
  rw [d.status_eq_statusWord, Dec.busy, Dec.done, Dec.faulted, hphase, herr]
  rfl

/-- RESET replaces the registers of both units and takes a fresh draw; the ports and parameters are not among them. -/
theorem exec_reset (s : State) : exec .reset s = .next { s with
    enc := Enc.afterReset s.cfg s.draws, dec := Dec.afterReset s.cfg s.draws, draws := s.draws + 1 } := rfl

/-- Settles O2: RESET sets `phase` and `err` of both units, which fix both STATUS words, and no port is in its effect. -/
theorem resetCommandGoesIdle : Obligations.ResetCommandGoesIdle := by
  intro s
  have hencStatus : (Enc.afterReset s.cfg s.draws).status = 0 := Enc.status_of_idle rfl rfl
  have hdecStatus : (Dec.afterReset s.cfg s.draws).status = 0 := Dec.status_of_idle rfl rfl
  exact ⟨_, exec_reset s, rfl, rfl, rfl, rfl, hencStatus, hdecStatus, rfl, rfl, rfl, rfl, rfl⟩

end Sys2Proof.Machine
end

section
/-! PROOFS. Decode and encode agree (R90 to R102): a format is a field of fixed width, a header record, or a path of the
header's tree, and each of them is read back from what follows it exactly as it was written. -/

namespace Sys2Proof.Machine

section Field
variable {n v : Nat} {bs rest : Bits}

/-- A field that was read is the first `n` bits, and its value writes them back (R70). -/
theorem eq_bits_append_of_field (h : field n bs = .ok (v, rest)) : bs = bits n v ++ rest := by
  obtain ⟨hn, rfl, rfl⟩ := field_ok h
  have hbits := bits_valueOf (bs.take n)
  rw [List.length_take_of_le hn] at hbits
  rw [hbits, List.take_append_drop]

/-- A field of `n` bits reads a number of `n` bits back, whatever follows (R70). -/
theorem field_bits (n v : Nat) (rest : Bits) : field n (bits n v ++ rest) = .ok (v % 2 ^ n, rest) := by
  rw [field_append n _ rest (length_bits n v), valueOf_bits]

theorem lt_of_field (h : field n bs = .ok (v, rest)) : v < 2 ^ n := by
  obtain ⟨hn, rfl, -⟩ := field_ok h
  have hlt := valueOf_lt (bs.take n)
  rwa [List.length_take_of_le hn] at hlt

end Field

/-- A decoder that reads a field and then looks its value up answers what the lookup answers. -/
theorem map_pair_eq_ok {α : Type} {x : Except Reject α} {rest rest' : Bits} {i : α}
    (h : x.map (·, rest') = .ok (i, rest)) : x = .ok i ∧ rest' = rest := by
  cases x with
  | error e => cases h
  | ok j => cases h; exact ⟨rfl, rfl⟩

section Phases
variable {code : Nat} {i : Instr}

/-- The code of an ENC operation is the number its word stands for (R90, R40). -/
theorem encode_of_decodeEncPhase (h : decodeEncPhase code = .ok i) :
    encode i = bits 4 code ∧ StandsIn .encPhase i ∧ i.wellFormed = true := by
  unfold decodeEncPhase at h
  split at h <;> cases h <;> exact ⟨rfl, by simp [StandsIn], rfl⟩

/-- The code of a DEC operation is the number its word stands for (R90, R40). -/
theorem encode_of_decodeDecPhase (h : decodeDecPhase code = .ok i) :
    encode i = bits 3 code ∧ StandsIn .decPhase i ∧ i.wellFormed = true := by
  unfold decodeDecPhase at h
  split at h <;> cases h <;> exact ⟨rfl, by simp [StandsIn], rfl⟩

/-- Every operation of ENC has a phase code (R40). -/
theorem exists_decodeEncPhase (h : StandsIn .encPhase i) :
    ∃ code, code < 16 ∧ encode i = bits 4 code ∧ decodeEncPhase code = .ok i := by
  simp only [StandsIn, List.mem_cons, List.not_mem_nil, or_false] at h
  rcases h with rfl | rfl | rfl | rfl | rfl | rfl | rfl | rfl | rfl | rfl | rfl | rfl | rfl <;>
    exact ⟨_, by decide, rfl, rfl⟩

/-- Every operation of DEC has a phase code (R40). -/
theorem exists_decodeDecPhase (h : StandsIn .decPhase i) :
    ∃ code, code < 8 ∧ encode i = bits 3 code ∧ decodeDecPhase code = .ok i := by
  simp only [StandsIn, List.mem_cons, List.not_mem_nil, or_false] at h
  rcases h with rfl | rfl | rfl | rfl | rfl | rfl | rfl <;> exact ⟨_, by decide, rfl, rfl⟩

end Phases

section Body
variable {T : HTree} {v : Sym} {c bs rest : Bits}

theorem mem_codes_node_iff {l r : HTree} {b : Bool} :
    (v, b :: c) ∈ (HTree.node l r).codes ↔ (v, c) ∈ (if b then r else l).codes := by
  refine ⟨fun h => ?_, cons_mem_codes_node⟩
  obtain ⟨b', c', heq, hmem⟩ := mem_codes_node h
  obtain ⟨rfl, rfl⟩ := List.cons.inj heq
  exact hmem

/-- Following bits to a leaf finds the leaf's code in front of them (R98). -/
theorem walkTree_eq_some_iff : walkTree T bs = some (c, v, rest) ↔ (v, c) ∈ T.codes ∧ bs = c ++ rest := by
  induction T generalizing bs c with
  | leaf w =>
    simp only [walkTree, HTree.codes, List.mem_singleton, Option.some.injEq, Prod.mk.injEq]
    constructor
    · rintro ⟨rfl, rfl, rfl⟩; exact ⟨⟨rfl, rfl⟩, rfl⟩
    · rintro ⟨⟨rfl, rfl⟩, rfl⟩; exact ⟨rfl, rfl, rfl⟩
  | node l r ihl ihr =>
    have ih : ∀ (b : Bool) (bs c : Bits), (if b then walkTree r bs else walkTree l bs) = some (c, v, rest) ↔
        (v, c) ∈ (if b then r else l).codes ∧ bs = c ++ rest := by
      intro b bs c
      cases b with
      | false => exact ihl
      | true => exact ihr
    cases bs with
    | nil =>
      constructor
      · intro h; cases h
      · rintro ⟨hmem, hnil⟩
        obtain ⟨b, c', rfl, -⟩ := mem_codes_node hmem
        cases hnil
    | cons b bs =>
      rw [walkTree]
      constructor
      · intro h
        split at h
        · rename_i path w rest' hwalk
          cases h
          obtain ⟨hmem, rfl⟩ := (ih b bs path).mp hwalk
          exact ⟨cons_mem_codes_node hmem, rfl⟩
        · cases h
      · rintro ⟨hmem, heq⟩
        obtain ⟨b', c', rfl, hc'⟩ := mem_codes_node hmem
        rw [List.cons_append, List.cons.injEq] at heq
        obtain ⟨rfl, rfl⟩ := heq
        simp only [(ih b (c' ++ rest) c').mpr ⟨hc', rfl⟩]

/-- A path of the tree, followed by anything, decodes to the item that it is (R98, R99). -/
theorem decodeBody_of_code {l r : HTree} (hc : (v, c) ∈ (HTree.node l r).codes) (hlen : c.length ≤ 256) :
    decodeBody (.node l r) (c ++ rest) = .ok (if v = pseudoEof then .bodyEof c else .bodyCode c, rest) := by
  simp only [decodeBody, walkTree_eq_some_iff.mpr ⟨hc, rfl⟩, if_pos hlen]
  split <;> rfl

/-- What a body decodes to is the code of a leaf, standing in front (R98, R99). -/
theorem code_of_decodeBody {l r : HTree} {i : Instr} (h : decodeBody (.node l r) bs = .ok (i, rest)) :
    ∃ v c, (v, c) ∈ (HTree.node l r).codes ∧ c.length ≤ 256 ∧ bs = c ++ rest ∧
      i = if v = pseudoEof then .bodyEof c else .bodyCode c := by
  simp only [decodeBody] at h
  split at h
  · cases h
  · rename_i path v rest' hwalk
    obtain ⟨hmem, rfl⟩ := walkTree_eq_some_iff.mp hwalk
    split at h
    · refine ⟨v, path, hmem, ‹_›, ?_⟩
      split at h <;> cases h
      · exact ⟨rfl, (if_pos ‹v = pseudoEof›).symm⟩
      · exact ⟨rfl, (if_neg ‹v ≠ pseudoEof›).symm⟩
    · cases h

end Body

section Header
variable {bs rest : Bits} {i : Instr}

theorem encode_recordItem (r : Option Sym) : encode (recordItem r) = recordBits r := by cases r <;> rfl

theorem decodeHeader_record (r : Option Sym) (rest : Bits) :
    decodeHeader (recordBits r ++ rest) = .ok (recordItem r, rest) := by
  cases r with
  | none => rfl
  | some v =>
    rw [recordBits, List.cons_append, decodeHeader, field_append 9 _ rest (length_bits 9 _)]
    simp only [ofNat_valueOf_bits, recordItem]

/-- A header decodes to the record that stands in front (R95, R96). -/
theorem record_of_decodeHeader (h : decodeHeader bs = .ok (i, rest)) :
    ∃ r, i = recordItem r ∧ bs = recordBits r ++ rest := by
  unfold decodeHeader at h
  split at h
  · cases h
  · cases h; exact ⟨none, rfl, rfl⟩
  · split at h
    · rename_i v rest' hfield
      cases h
      refine ⟨some (BitVec.ofNat 9 v), rfl, ?_⟩
      rw [recordBits, List.cons_append, BitVec.toNat_ofNat, Nat.mod_eq_of_lt (lt_of_field hfield),
        ← eq_bits_append_of_field hfield]
    · cases h

end Header

theorem padLength_lt (n : Nat) : padLength n < 8 := Nat.mod_lt _ (by decide)

/-- The first command of a strobe word is one of the three (R90). -/
theorem standsIn_of_decodeStrobes {w : Nat} {raw : List Byte} {comp : Bits} {i : Instr}
    (h : decodeStrobes w raw comp = .ok i) : StandsIn (.strobes raw comp) i ∧ i.wellFormed = true := by
  unfold decodeStrobes commands at h
  generalize w.testBit 2 = rst at h
  generalize w.testBit 1 = es at h
  generalize w.testBit 0 = ds at h
  cases rst <;> cases es <;> cases ds <;> cases h <;> simp [StandsIn, Instr.wellFormed]

/-- The word of a command holds its strobe alone, so it is the first command (R90). -/
theorem decodeStrobes_encode {raw : List Byte} {comp : Bits} {i : Instr} (h : StandsIn (.strobes raw comp) i) :
    (encode i).length = 3 ∧ decodeStrobes (valueOf (encode i)) raw comp = .ok i := by
  obtain rfl | rfl | rfl := h <;> exact ⟨rfl, by simp [decodeStrobes, commands, encode, valueOf, Nat.testBit]⟩

/-- Settles O33: place by place, the field, record, path or padding that was written is read back. -/
theorem decodeInvertsEncode : Obligations.DecodeInvertsEncode := by
  intro c i rest hi hwf
  cases c with
  | strobes raw comp =>
    obtain ⟨hlen, hdec⟩ := decodeStrobes_encode hi
    rw [decode, field_append 3 _ rest hlen]
    simp only [hdec, Except.map]
  | encPhase =>
    obtain ⟨code, hlt, hcode, hdec⟩ := exists_decodeEncPhase hi
    rw [hcode, decode, field_bits, Nat.mod_eq_of_lt (by exact hlt)]
    simp only [hdec, Except.map]
  | decPhase =>
    obtain ⟨code, hlt, hcode, hdec⟩ := exists_decodeDecPhase hi
    rw [hcode, decode, field_bits, Nat.mod_eq_of_lt (by exact hlt)]
    simp only [hdec, Except.map]
  | magicWord =>
    obtain ⟨m, rfl⟩ := hi
    rw [decode, encode, field_append 32 _ rest (length_bits 32 _)]
    simp only [ofNat_valueOf_bits]
  | header =>
    obtain ⟨r, rfl⟩ := hi
    rw [encode_recordItem]
    exact decodeHeader_record r rest
  | body T =>
    cases T with
    | leaf v => cases hi; rfl
    | node l r =>
      obtain ⟨c, v, hmem, hv, rfl⟩ | ⟨c, hmem, rfl⟩ := hi
      · have hlen : 1 ≤ c.length ∧ c.length ≤ 256 := of_decide_eq_true hwf
        exact (decodeBody_of_code hmem hlen.2).trans (by rw [if_neg hv])
      · have hlen : c.length ≤ 256 := of_decide_eq_true hwf
        exact (decodeBody_of_code hmem hlen).trans (by rw [if_pos rfl])
  | padding total =>
    cases hi
    rw [decode, encode, if_pos (by simp), List.drop_left' List.length_replicate]

/-- Settles O34: each place's reader is taken back to the field, record, path or padding that it accepted. -/
theorem decodedWordsAreEncodings : Obligations.DecodedWordsAreEncodings := by
  intro c i bs rest h
  cases c with
  | strobes raw comp =>
    simp only [decode] at h
    split at h
    · rename_i w rest' hfield
      obtain ⟨hword, rfl⟩ := map_pair_eq_ok h
      obtain ⟨hstands, hwf⟩ := standsIn_of_decodeStrobes hword
      refine ⟨hstands, hwf, ?_⟩
      rw [eq_bits_append_of_field hfield, List.length_append, length_bits]
    · cases h
  | encPhase =>
    simp only [decode] at h
    split at h
    · rename_i w rest' hfield
      obtain ⟨hword, rfl⟩ := map_pair_eq_ok h
      obtain ⟨hcode, hstands, hwf⟩ := encode_of_decodeEncPhase hword
      exact ⟨hstands, hwf, hcode ▸ eq_bits_append_of_field hfield⟩
    · cases h
  | decPhase =>
    simp only [decode] at h
    split at h
    · rename_i w rest' hfield
      obtain ⟨hword, rfl⟩ := map_pair_eq_ok h
      obtain ⟨hcode, hstands, hwf⟩ := encode_of_decodeDecPhase hword
      exact ⟨hstands, hwf, hcode ▸ eq_bits_append_of_field hfield⟩
    · cases h
  | magicWord =>
    simp only [decode] at h
    split at h
    · rename_i m rest' hfield
      cases h
      refine ⟨⟨_, rfl⟩, rfl, ?_⟩
      simp only [encode]
      rw [BitVec.toNat_ofNat, Nat.mod_eq_of_lt (lt_of_field hfield), ← eq_bits_append_of_field hfield]
    · cases h
  | header =>
    obtain ⟨r, rfl, rfl⟩ := record_of_decodeHeader h
    refine ⟨⟨r, rfl⟩, by cases r <;> rfl, ?_⟩
    simp only [encode_recordItem]
  | body T =>
    cases T with
    | leaf v => cases h; exact ⟨rfl, rfl, rfl⟩
    | node l r =>
      obtain ⟨v, c, hmem, hlen, rfl, rfl⟩ := code_of_decodeBody h
      by_cases hv : v = pseudoEof
      · subst hv
        rw [if_pos rfl]
        exact ⟨.inr ⟨c, hmem, rfl⟩, decide_eq_true hlen, rfl⟩
      · rw [if_neg hv]
        obtain ⟨b, c', rfl, -⟩ := mem_codes_node hmem
        exact ⟨.inl ⟨_, v, hmem, hv, rfl⟩, decide_eq_true ⟨Nat.succ_pos _, hlen⟩, rfl⟩
  | padding total =>
    simp only [decode] at h
    split at h
    · rename_i hle
      cases h
      refine ⟨rfl, decide_eq_true (Nat.le_of_lt_succ (padLength_lt total)), ?_⟩
      rw [List.length_drop]
      omega
    · cases h

/-- Settles O32: each word is one row's, so it is read back as O33 says or found in no row. -/
theorem tableWordsDecode : Obligations.TableWordsDecode :=
  ⟨rfl, rfl, rfl, rfl, rfl, rfl, rfl, rfl, rfl, rfl, rfl⟩

end Sys2Proof.Machine
end

section
/-! PROOFS. What ENC's two walks leave (R153, R163) and the size of a header (R97): the walk of the whole tree is the
walk of the subtree on top of a stack of one entry. -/

namespace Sys2Proof.Machine

/-- The size of a header (R97), without the truncated subtraction. -/
theorem length_ser_add_one (T : HTree) : T.ser.length + 1 = 11 * T.leafCount := by
  induction T with
  | leaf v => simp [HTree.ser, encode, HTree.leafCount]
  | node l r ihl ihr =>
    rw [HTree.ser, List.length_append, List.length_append, HTree.leafCount, encode, List.length_singleton]
    omega

/-- A stack of one entry is a whole tree's walk. -/
theorem onTop_of_one {node : Vector Node encNodeCap} {stk : Vector StkEntry encStkCap} {T : HTree} {x : StkEntry}
    (hx : stk[0]? = some x) (hrep : NodeRep node T x.node) (hleaves : T.leafCount ≤ nsym) :
    OnTop node stk 1 T x where
  pos := Nat.le_refl 1
  top := hx
  rep := hrep
  room := by simp only [nsym, encStkCap] at *; omega

section CodeTable
variable {e : Enc} {T : HTree} {t t' : CodeTable}

/-- What a recorded path says of the three registers of its symbol (R33). -/
theorem registers_of_entry {i : Fin nsym} {c : Bits} (h : e.codes.entry i = pathEntry c) (hc : c.length ≤ 256) :
    e.codeValid[i] = true ∧ e.codeLen[i] = c.length ∧ codeOf e i = c ∧ e.codeBits[i].toNat < 2 ^ c.length := by
  have hcode := codeOf_of_entry h hc
  simp only [CodeTable.entry, Enc.codes, pathEntry, Prod.mk.injEq] at h
  obtain ⟨hvalid, hlen, hbits⟩ := h
  refine ⟨hvalid, hlen, hcode, ?_⟩
  rw [hbits, BitVec.toNat_ofNat]
  exact (Nat.mod_le _ _).trans_lt (valueOf_lt c)

/-- The leaf values are symbols, so each is the symbol of its own index. -/
theorem Recorded.registers (h : Recorded T [] t e.codes) (hleaves : T.leafCount ≤ nsym) {v : Sym} {c : Bits}
    (hv : v.toNat < nsym) (hc : (v, c) ∈ T.codes) :
    e.codeValid[v.toNat] = true ∧ e.codeLen[v.toNat] = c.length ∧ codeOf e ⟨v.toNat, hv⟩ = c ∧
      e.codeBits[v.toNat].toNat < 2 ^ c.length := by
  have hlen := length_lt_leafCount_of_mem_codes hc
  have hentry := h.path ⟨v.toNat, hv⟩ c ((eq_symbolAt (i := ⟨v.toNat, hv⟩) rfl) ▸ hc)
  exact registers_of_entry (i := ⟨v.toNat, hv⟩) hentry (by simp only [nsym] at hleaves; omega)

theorem Recorded.invalid (h : Recorded T [] t e.codes) (ht : t.valid = Vector.replicate nsym false) {i : Fin nsym}
    (hi : symbolAt i ∉ HTree.leafValues T) : e.codeValid[i] = false := by
  have hother : e.codeValid[i] = t.valid[i] := congrArg Prod.fst (h.other i hi)
  rw [hother, ht]
  exact Vector.getElem_replicate _

end CodeTable

/-- Settles O50: the generator's walk of the subtree on top of the stack, for the whole tree and the empty path. -/
theorem generatorRecordsEveryPath : Obligations.GeneratorRecordsEveryPath := by
  intro s T hphase hsp hstk hrep hleaves hlegal hnodup hvalid
  have htop := onTop_of_one hstk hrep hleaves
  rw [← hsp] at htop
  obtain ⟨t, stk, hturns, -, hrec⟩ := turns_gen hphase htop (hasPath_nil _) (by simpa using hleaves) hlegal hnodup
  have hrec : Recorded T [] s.enc.codes ((s.enc.popTree .wrmagic stk).withCodes t).codes := hrec
  refine ⟨_, hturns, ?_, ?_, fun v c hv hc => hrec.registers hleaves hv hc, fun i hi => hrec.invalid hvalid hi, ?_⟩
  · exact if_pos hsp
  · show s.enc.sp - 1 = 0
    rw [hsp]
  · simp only [Enc.withCodes, Enc.popTree, hsp, if_true, Nat.sub_self]

/-- Settles O52: the header writer's walk of the subtree on top of the stack, for the whole tree. -/
theorem headerWriterSerializesTheTree : Obligations.HeaderWriterSerializesTheTree := by
  intro s T x hphase hsp hopen hx hrep hleaves
  have htop := onTop_of_one hx hrep hleaves
  rw [← hsp] at htop
  obtain ⟨stk, hturns, -⟩ := turns_wrhdr hphase hopen htop
  refine ⟨_, hturns, ?_⟩
  simp only [State.wrote, Enc.popTree, hsp, if_true, Nat.sub_self]

/-- Settles O53: both sums are inductions over the tree, and a tree has a leaf. -/
theorem headerHasElevenBitsPerLeafLessOne : Obligations.HeaderHasElevenBitsPerLeafLessOne := by
  intro T
  have hser := length_ser_add_one T
  have hsize := size_add_one T
  exact ⟨by omega, by omega, one_le_leafCount T⟩

end Sys2Proof.Machine
end

section
/-! PROOFS. The header reader from empty stores (R186, R212): on a whole serialization it rebuilds the tree; on one cut
short it reads the subtrees that are whole and finds the end of the stream in the one that is not. -/

namespace Sys2Proof.Machine

section Header
variable {s : State} {T : HTree} {dh : Dec} {k : Nat}

/-- The reader's readiness rests on the registers; the input matters for the bits only. -/
theorem HeaderReady.of_input (h : HeaderReady T s dh) {p : Cin} (hbits : CinPresents T.ser { s with cin := p }) :
    HeaderReady T { s with cin := p } dh :=
  { h with bits := hbits }

/-- The state with `item` and nothing else on the compressed input. -/
def State.presenting (s : State) (item : Bits) : State := { s with cin := { data := item, pos := 0, valid := true } }

theorem cinPresents_presenting (item : Bits) : CinPresents item (s.presenting item) :=
  ⟨rfl, Nat.le_refl _, List.take_length⟩

/-- Empty stores with enough entries are ready for a tree, whose root will be the root (R182). -/
theorem headerReady_of_empty (hp : s.dec.phase = .rdhdr) (hdn : s.dec.dn = 0) (hdsp : s.dec.dsp = 0)
    (hnodes : s.dec.dnode.length = s.cfg.decNodeCap) (hentries : s.dec.dstk.length = s.cfg.decNodeCap)
    (hsize : T.size ≤ s.cfg.decNodeCap) (hbits : CinPresents T.ser s) :
    HeaderReady T s { s.dec with droot := s.dec.dn } where
  phase := hp
  bits := hbits
  cap := hnodes
  hang := hang_root hdsp
  parent _ h0 := absurd hdsp h0
  nodes := by omega
  entries := by simp only; omega

/-- Within `n` turns DEC is in `CLOSE` with HeaderCorruptError, every bit consumed and nothing written (R212). -/
def EndsCorrupt (n : Nat) (s : State) : Prop :=
  ∃ m t, m ≤ n ∧ turns .dec m s = .next t ∧ t.dec.phase = .close ∧ t.dec.err = .headerCorrupt ∧
    t.cin.pos = s.cin.data.length ∧ t.sout = s.sout

theorem EndsCorrupt.mono {m n : Nat} (h : EndsCorrupt m s) (hmn : m ≤ n) : EndsCorrupt n s := by
  obtain ⟨j, t, hj, ht⟩ := h
  exact ⟨j, t, hj.trans hmn, ht⟩

/-- Records that are whole may come first. -/
theorem EndsCorrupt.of_turns {m n l : Nat} {d : Dec} (hrun : turns .dec m s = .next (s.read l d))
    (h : EndsCorrupt n (s.read l d)) : EndsCorrupt (m + n) s := by
  obtain ⟨j, t, hj, hturns, ht⟩ := h
  exact ⟨m + j, t, by omega, (turns_then hrun).trans hturns, ht⟩

/-- The turn that finds the end of the stream (R182). -/
theorem endsCorrupt_of_rdhdr (hp : s.dec.phase = .rdhdr)
    (h : exec .decRdhdr s = .next { s with
      cin := { s.cin with pos := s.cin.data.length }, dec := { s.dec with err := .headerCorrupt, phase := .close } }) :
    EndsCorrupt 1 s :=
  ⟨1, _, le_rfl, (turns_one _ _).trans ((runUnit_dec_of_rdhdr hp).trans h), rfl, rfl, rfl, rfl⟩

/-- What is left of the stream is less than the serialization of `T`. -/
structure CutInside (T : HTree) (k : Nat) (s : State) : Prop where
  valid : s.cin.valid = true
  rest : s.cin.data.drop s.cin.pos = T.ser.take k
  cut : k < T.ser.length

theorem CutInside.no_bit (h : CutInside T 0 s) : s.cin.data.length ≤ s.cin.pos :=
  List.drop_eq_nil_iff.mp h.rest

/-- A leaf's record that is cut short (R96). -/
theorem CutInside.exec_leaf {v : Sym} (h : CutInside (.leaf v) k s) :
    exec .decRdhdr s = .next { s with
      cin := { s.cin with pos := s.cin.data.length }
      dec := { s.dec with err := .headerCorrupt, phase := .close } } := by
  have hlen : s.cin.data.length - s.cin.pos = k := by
    rw [← List.length_drop, h.rest, List.length_take_of_le h.cut.le]
  have hcut : k < 10 := by simpa [HTree.ser, encode] using h.cut
  cases k with
  | zero => exact exec_decRdhdr_of_no_bit h.valid h.no_bit
  | succ k => exact exec_decRdhdr_of_cut_leaf (cinPresents_of_drop_eq_cons h.valid h.rest) (hlen ▸ hcut)

/-- Of a node's serialization that is cut after its tag, either the left subtree is cut, or the right one after it. -/
theorem CutInside.node {l r : HTree} (h : CutInside (.node l r) (k + 1) s) (d : Dec) :
    CinPresents (recordBits none) s ∧
      (CutInside l k (s.read 1 d) ∨
        (CinPresents l.ser (s.read 1 d) ∧
          ∀ dl, CutInside r (k - l.ser.length) (s.read (1 + l.ser.length) dl))) := by
  obtain ⟨hv, hrest, hcut⟩ := h
  have hser : (HTree.node l r).ser = false :: (l.ser ++ r.ser) := rfl
  rw [hser, List.take_succ_cons] at hrest
  have hnext : s.cin.data.drop (s.cin.pos + 1) = (l.ser ++ r.ser).take k := by rw [← List.tail_drop, hrest]; rfl
  rw [hser, List.length_cons, List.length_append] at hcut
  refine ⟨cinPresents_of_drop_eq_cons hv hrest, ?_⟩
  rcases Nat.lt_or_ge k l.ser.length with hk | hk
  · exact .inl ⟨hv, hnext.trans (List.take_append_of_le_length hk.le), hk⟩
  · have hwhole : s.cin.data.drop (s.cin.pos + 1) = l.ser ++ r.ser.take (k - l.ser.length) := by
      rw [hnext, List.take_append, List.take_of_length_le hk]
    refine .inr ⟨cinPresents_of_drop hwhole hv, fun dl => ⟨hv, ?_, by omega⟩⟩
    show s.cin.data.drop (s.cin.pos + (1 + l.ser.length)) = _
    rw [← Nat.add_assoc]
    exact drop_of_drop (s := s.read 1 d) hwhole

/-- The reader's turns over a subtree that is cut short. -/
theorem HeaderReady.endsCorrupt (h : HeaderReady T (s.presenting T.ser) dh) (hcut : CutInside T k s) :
    EndsCorrupt T.size s := by
  have hp : s.dec.phase = .rdhdr := h.phase
  induction T generalizing s dh k with
  | leaf v => exact endsCorrupt_of_rdhdr hp hcut.exec_leaf
  | node l r ihl ihr =>
    cases k with
    | zero =>
      exact (endsCorrupt_of_rdhdr hp (exec_decRdhdr_of_no_bit hcut.valid hcut.no_bit)).mono (one_le_size _)
    | succ k =>
      obtain ⟨hroom, -, hstk⟩ := h.room
      obtain ⟨htag, hsub⟩ := hcut.node (Dec.waiting s.dec dh)
      have hstep : Machine.turns .dec 1 s = .next (s.read 1 (Dec.waiting s.dec dh)) :=
        (turns_one _ _).trans (runUnit_of_record hp htag (h.cap ▸ hroom.ne)
          (addRecord_node h.hang h.parent hroom hstk))
      obtain hleft | ⟨hpresents, hright⟩ := hsub
      · have hready : HeaderReady l ((s.read 1 (Dec.waiting s.dec dh)).presenting l.ser) (Dec.leftHung s.dec dh) :=
          h.left.of_input (cinPresents_presenting l.ser)
        refine (EndsCorrupt.of_turns hstep (ihl hready hleft hready.phase)).mono ?_
        rw [HTree.size]
        omega
      · have hwhole : HeaderReady l (s.read 1 (Dec.waiting s.dec dh)) (Dec.leftHung s.dec dh) :=
          h.left.of_input hpresents
        obtain ⟨dl, hturns, hl⟩ := hwhole.turns
        have hrun : Machine.turns .dec (1 + l.size) s = .next (s.read (1 + l.ser.length) dl) := by
          rw [turns_then hstep, hturns, read_read]
        have hready : HeaderReady r ((s.read (1 + l.ser.length) dl).presenting r.ser) (Dec.rightHung s.dec dh dl) :=
          (h.right hl).of_input (cinPresents_presenting r.ser)
        refine (EndsCorrupt.of_turns hrun (ihr hready (hright dl) hready.phase)).mono ?_
        rw [HTree.size]
        omega

end Header

/-- Settles O54: the reader's turns over the whole tree, whose root hangs at index 0. -/
theorem headerReaderRebuildsTheTree : Obligations.HeaderReaderRebuildsTheTree := by
  intro s T hp hdn hdsp hnodes hentries hsize hbits
  obtain ⟨d, hturns, hread⟩ := (headerReady_of_empty hp hdn hdsp hnodes hentries hsize hbits).turns
  have hroot : d.droot = s.dec.dn := hread.droot
  refine ⟨_, hturns, hroot ▸ hread.laid.dnodeRep, hread.phase.trans (if_pos hdsp), ?_, hroot.trans hdn, ?_, ?_,
    hread.err, rfl⟩
  · rw [show ((s.read T.ser.length d).dec).dn = s.dec.dn + T.size from hread.dn, hdn, Nat.zero_add]
  · exact (hread.cur.trans (if_pos hdsp)).trans hdn
  · exact hread.dsp.trans hdsp

/-- Settles O55: the reader's turns over a tree that is cut short, from empty stores. -/
theorem truncatedHeaderIsHeaderCorrupt : Obligations.TruncatedHeaderIsHeaderCorrupt := by
  intro s T k hp hdn hdsp hnodes hentries hsize hv _ hk hrest
  have hready := headerReady_of_empty (s := s.presenting T.ser) hp hdn hdsp hnodes hentries hsize
    (cinPresents_presenting T.ser)
  exact hready.endsCorrupt ⟨hv, hrest, hk⟩

end Sys2Proof.Machine
end

section
/-! PROOFS. ENC.QINIT node by node (R142), and the weights of the builder (R145, R147): the queue's weights add up to
the sum of the counts, which every merge keeps, and the newest node is always in the queue. -/

namespace Sys2Proof.Machine

section Plant
variable {f : LeafFill} {x : Node} {xs : List Node} {i j : Nat}

/-- These nodes planted one after the other. -/
def LeafFill.plantAll (f : LeafFill) (xs : List Node) : LeafFill := xs.foldl LeafFill.plant f

theorem plantAll_cons : f.plantAll (x :: xs) = (f.plant x).plantAll xs := rfl

theorem plant_node_self (h : f.nn < encNodeCap) : (f.plant x).node[f.nn]? = some x :=
  Vector.getElem?_setIfInBounds_self_of_lt h

theorem plant_node_ne (h : j ≠ f.nn) : (f.plant x).node[j]? = f.node[j]? :=
  Vector.getElem?_setIfInBounds_ne h.symm

theorem plant_inq_self (h : f.nn < encNodeCap) : (f.plant x).inq[f.nn]? = some true :=
  Vector.getElem?_setIfInBounds_self_of_lt h

theorem plant_inq_ne (h : j ≠ f.nn) : (f.plant x).inq[j]? = f.inq[j]? :=
  Vector.getElem?_setIfInBounds_ne h.symm

theorem plantAll_nn : (f.plantAll xs).nn = f.nn + xs.length := by
  induction xs generalizing f with
  | nil => rfl
  | cons x xs ih => rw [plantAll_cons, ih, List.length_cons]; exact Nat.succ_add_eq_add_succ ..

/-- Planting writes the nodes from `nn` on and no others. -/
theorem plantAll_outside (h : j < f.nn ∨ f.nn + xs.length ≤ j) :
    (f.plantAll xs).node[j]? = f.node[j]? ∧ (f.plantAll xs).inq[j]? = f.inq[j]? := by
  induction xs generalizing f with
  | nil => exact ⟨rfl, rfl⟩
  | cons x xs ih =>
    rw [List.length_cons] at h
    obtain ⟨hnode, hinq⟩ := ih (f := f.plant x) (by simp only [LeafFill.plant]; omega)
    exact ⟨hnode.trans (plant_node_ne (by omega)), hinq.trans (plant_inq_ne (by omega))⟩

theorem plantAll_inside (hroom : f.nn + xs.length ≤ encNodeCap) (h : j < xs.length) :
    (f.plantAll xs).node[f.nn + j]? = xs[j]? ∧ (f.plantAll xs).inq[f.nn + j]? = some true := by
  induction xs generalizing f j with
  | nil => cases h
  | cons x xs ih =>
    rw [List.length_cons] at hroom h
    cases j with
    | zero =>
      obtain ⟨hnode, hinq⟩ := plantAll_outside (f := f.plant x) (xs := xs) (j := f.nn) (.inl (Nat.lt_succ_self _))
      exact ⟨hnode.trans (plant_node_self (by omega)), hinq.trans (plant_inq_self (by omega))⟩
    | succ j =>
      have hnext := ih (f := f.plant x) (j := j) (by simp only [LeafFill.plant]; omega) (by omega)
      rwa [show (f.plant x).nn + j = f.nn + (j + 1) by simp only [LeafFill.plant]; omega] at hnext

end Plant

section Qinit
variable {cnt : Vector Nat nsym} {e : Enc} {k : Nat}

/-- The leaf of a symbol, with its count as its weight (R142). -/
def leafNode (cnt : Vector Nat nsym) (i : Fin nsym) : Node := { weight := cnt[i], kind := .leaf (symbolAt i) }

theorem foldl_insertLeaf (l : List (Fin nsym)) (f : LeafFill) :
    l.foldl (insertLeaf cnt) f = f.plantAll ((l.filter fun i => cnt[i] ≠ 0).map (leafNode cnt)) := by
  induction l generalizing f with
  | nil => rfl
  | cons i l ih =>
    rw [List.foldl_cons, ih]
    by_cases hi : cnt[i] = 0
    · rw [insertLeaf_of_zero hi, List.filter_cons_of_neg (by simpa using hi)]
    · rw [insertLeaf_of_ne_zero hi, List.filter_cons_of_pos (by simpa using hi)]
      rfl

/-- The builder's registers before ENC.QINIT's loop. -/
def Enc.emptyFill (e : Enc) : LeafFill := { node := e.node, inq := Vector.replicate encNodeCap false, nn := 0 }

/-- ENC.QINIT's loop plants one leaf per present symbol, ascending (R142). -/
theorem insertLeaves_eq_plantAll (e : Enc) :
    insertLeaves e = e.emptyFill.plantAll ((presentSymbols e.cnt).map (leafNode e.cnt)) :=
  foldl_insertLeaf _ _

theorem length_presentLeaves_le : e.emptyFill.nn + ((presentSymbols cnt).map (leafNode cnt)).length ≤ encNodeCap := by
  have hle := length_presentSymbols_le (cnt := cnt)
  rw [List.length_map]
  simp only [Enc.emptyFill, nsym, encNodeCap] at *
  omega

theorem insertLeaves_nn (e : Enc) : (insertLeaves e).nn = (presentSymbols e.cnt).length := by
  rw [insertLeaves_eq_plantAll, plantAll_nn, List.length_map]
  exact Nat.zero_add _

theorem insertLeaves_inside (h : k < (presentSymbols e.cnt).length) :
    (insertLeaves e).node[k]? = some (leafNode e.cnt (presentSymbols e.cnt)[k]) ∧
      (insertLeaves e).inq[k]? = some true := by
  obtain ⟨hnode, hinq⟩ := plantAll_inside (f := e.emptyFill) (xs := (presentSymbols e.cnt).map (leafNode e.cnt))
    (j := k) length_presentLeaves_le (by rwa [List.length_map])
  rw [← insertLeaves_eq_plantAll, show e.emptyFill.nn + k = k from Nat.zero_add k] at hnode hinq
  exact ⟨by rw [hnode, List.getElem?_map, List.getElem?_eq_getElem h]; rfl, hinq⟩

theorem insertLeaves_outside (h : (presentSymbols e.cnt).length ≤ k) :
    (insertLeaves e).node[k]? = e.node[k]? ∧ (k < encNodeCap → (insertLeaves e).inq[k]? = some false) := by
  obtain ⟨hnode, hinq⟩ := plantAll_outside (f := e.emptyFill) (xs := (presentSymbols e.cnt).map (leafNode e.cnt))
    (j := k) (.inr (by rw [List.length_map]; exact (Nat.zero_add _).trans_le h))
  rw [← insertLeaves_eq_plantAll] at hnode hinq
  refine ⟨hnode, fun hk => hinq.trans ?_⟩
  exact (Vector.getElem?_replicate ..).trans (if_pos hk)

end Qinit

/-- Settles O7: the leaves are planted from node 0 on, one per present symbol in ascending order. -/
theorem qinitMakesOneLeafPerPresentSymbol : Obligations.QinitMakesOneLeafPerPresentSymbol := by
  intro s
  refine ⟨s.leavesPlanted, rfl, insertLeaves_nn s.enc, insertLeaves_nn s.enc, fun k h => (insertLeaves_inside h).1,
    fun k h => (insertLeaves_outside h).1, fun k hk => ?_, rfl⟩
  rcases Nat.lt_or_ge k (presentSymbols s.enc.cnt).length with h | h
  · rw [decide_eq_true h]
    exact (insertLeaves_inside h).2
  · rw [decide_eq_false (Nat.not_lt.mpr h)]
    exact (insertLeaves_outside h).2 hk

section Weight
variable {f : LeafFill} {x : Node} {xs : List Node} {i a b w : Nat} {q : List (Nat × HTree)}

/-- The queue's members as a set. -/
def LeafFill.members (f : LeafFill) : Finset Nat := (Finset.range encNodeCap).filter fun i => f.inq[i]? = some true

/-- The sum of the weights in the queue. -/
def LeafFill.total (f : LeafFill) : Nat := ∑ i ∈ f.members, weightAt f.node i

/-- Every member of the queue has been allocated. -/
def LeafFill.Allocated (f : LeafFill) : Prop := ∀ i, f.inq[i]? = some true → i < f.nn

theorem mem_members : i ∈ f.members ↔ f.inq[i]? = some true := by
  rw [LeafFill.members, Finset.mem_filter, Finset.mem_range, and_iff_right_iff_imp]
  intro h
  obtain ⟨hlt, -⟩ := Vector.getElem?_eq_some_iff.mp h
  exact hlt

theorem weightAt_congr {node node' : Vector Node encNodeCap} (h : node'[i]? = node[i]?) :
    weightAt node' i = weightAt node i := by
  rw [weightAt, weightAt, h]

theorem LeafFill.Allocated.plant (h : f.Allocated) : (f.plant x).Allocated := by
  intro i hi
  by_cases hne : i = f.nn
  · exact hne ▸ Nat.lt_succ_self _
  · exact Nat.lt_succ_of_lt (h i ((plant_inq_ne hne).symm.trans hi))

theorem members_plant (hn : f.nn < encNodeCap) : (f.plant x).members = insert f.nn f.members := by
  ext i
  rw [Finset.mem_insert, mem_members, mem_members]
  by_cases hi : i = f.nn
  · exact iff_of_true (hi ▸ plant_inq_self hn) (.inl hi)
  · rw [plant_inq_ne hi, or_iff_right hi]

/-- A node that is planted adds its weight. -/
theorem total_plant (h : f.Allocated) (hn : f.nn < encNodeCap) : (f.plant x).total = f.total + x.weight := by
  have hnew : f.nn ∉ f.members := fun hmem => Nat.lt_irrefl _ (h _ (mem_members.mp hmem))
  have hkept : ∀ i ∈ f.members, weightAt (f.plant x).node i = weightAt f.node i := fun i hi =>
    weightAt_congr (plant_node_ne fun heq => hnew (heq ▸ hi))
  have hx : weightAt (f.plant x).node f.nn = x.weight := by rw [weightAt, plant_node_self hn]
  rw [LeafFill.total, members_plant hn, Finset.sum_insert hnew, hx, Finset.sum_congr rfl hkept, Nat.add_comm]
  rfl

theorem total_plantAll (h : f.Allocated) (hroom : f.nn + xs.length ≤ encNodeCap) :
    (f.plantAll xs).total = f.total + (xs.map Node.weight).sum := by
  induction xs generalizing f with
  | nil => exact (Nat.add_zero _).symm
  | cons x xs ih =>
    rw [List.length_cons] at hroom
    rw [plantAll_cons, ih h.plant (by simp only [LeafFill.plant]; omega), total_plant h (by omega),
      List.map_cons, List.sum_cons, Nat.add_assoc]

theorem members_unqueue : (f.unqueue a).members = f.members.erase a := by
  ext i
  rw [Finset.mem_erase, mem_members, mem_members]
  by_cases hi : i = a
  · subst hi
    refine iff_of_false (fun h => ?_) (fun h => h.1 rfl)
    simp [LeafFill.unqueue, Vector.getElem?_setIfInBounds] at h
  · rw [LeafFill.unqueue, Vector.getElem?_setIfInBounds_ne (Ne.symm hi), and_iff_right hi]

/-- A node taken off the queue takes its weight with it. -/
theorem total_unqueue (h : f.inq[a]? = some true) : (f.unqueue a).total + weightAt f.node a = f.total := by
  rw [LeafFill.total, members_unqueue]
  exact Finset.sum_erase_add _ _ (mem_members.mpr h)

theorem LeafFill.Allocated.unqueue (h : f.Allocated) : (f.unqueue a).Allocated := by
  intro i hi
  have hmem := mem_members.mpr hi
  rw [members_unqueue, Finset.mem_erase] at hmem
  exact h i (mem_members.mp hmem.2)

/-- A merge keeps the sum of the weights, which fits its width (R147). -/
theorem total_join {c : Nat} (h : f.Allocated) (hn : f.nn < encNodeCap) (ha : f.inq[a]? = some true)
    (hb : (f.unqueue a).inq[b]? = some true) (hc : f.total < c)
    (hx : x.weight = (weightAt f.node a + weightAt f.node b) % c) :
    (((f.unqueue a).unqueue b).plant x).total = f.total := by
  have htotala := total_unqueue ha
  have htotalb : ((f.unqueue a).unqueue b).total + weightAt f.node b = (f.unqueue a).total := total_unqueue hb
  rw [total_plant h.unqueue.unqueue (by exact hn), hx, Nat.mod_eq_of_lt (by omega)]
  omega

theorem Forest.allocated (h : Forest f q) : f.Allocated := by
  intro i hi
  obtain ⟨p, hp, rfl⟩ := List.mem_map.mp ((h.mem_queue i).mp hi)
  exact (h.tree p hp).1

theorem Forest.members_eq (h : Forest f q) : f.members = (q.map Prod.fst).toFinset := by
  ext i
  rw [mem_members, h.mem_queue, List.mem_toFinset]

/-- A queue of one member holds the newest node, whose weight is the whole sum. -/
theorem Forest.root_of_one {t : HTree} (h : Forest f [(a, t)]) (hlast : f.inq[f.nn - 1]? = some true) :
    a = f.nn - 1 ∧ weightAt f.node a = f.total := by
  refine ⟨(List.mem_singleton.mp ((h.mem_queue _).mp hlast)).symm, ?_⟩
  rw [LeafFill.total, h.members_eq]
  exact (Finset.sum_singleton ..).symm

end Weight

section Build
variable {s : State} {q : List (Nat × HTree)}

theorem joined_fill (a b : Nat) : (s.joined a b).enc.fill = ((s.enc.fill.unqueue a).unqueue b).plant
    { weight := (weightAt s.enc.node a + weightAt s.enc.node b) % 2 ^ s.cfg.wgtW, kind := .internal a b } := rfl

/-- The merges keep the sum of the weights; the last node made is the root (R144, R145). -/
theorem turns_merge_weight (hp : s.enc.phase = .merge) (hf : Forest s.enc.fill q) (hsize : s.enc.qsize = q.length)
    (hne : q ≠ []) (hroom : s.enc.nn + q.length ≤ encNodeCap + 1)
    (hlast : s.enc.fill.inq[s.enc.fill.nn - 1]? = some true) (hfits : s.enc.fill.total < 2 ^ s.cfg.wgtW) :
    ∃ t, turns .enc q.length s = .next t ∧ t.enc.nn + 1 = s.enc.nn + q.length ∧ t.enc.root = t.enc.nn - 1 ∧
      weightAt t.enc.node t.enc.root = s.enc.fill.total := by
  induction hlen : q.length generalizing s q with
  | zero => exact absurd (List.eq_nil_of_length_eq_zero hlen) hne
  | succ n ih =>
    rw [turns, runUnit_enc_of_merge hp]
    rcases Nat.eq_zero_or_pos n with rfl | hn
    · obtain ⟨r, T, q', hmin, hperm⟩ := hf.exists_min hne
      have hlen' := hperm.length_eq
      rw [List.length_cons] at hlen'
      obtain rfl : q' = [] := List.eq_nil_of_length_eq_zero (by omega)
      obtain ⟨hroot, hweight⟩ := (hf.perm hperm).root_of_one hlast
      rw [exec_encMerge_of_one (by omega) hmin]
      exact ⟨_, rfl, rfl, hroot, hweight⟩
    · have hfree : s.enc.fill.nn < encNodeCap := by show s.enc.nn < encNodeCap; omega
      obtain ⟨a, b, q', hmina, hminb, hlen', -, hjoin⟩ := hf.join (by omega) hfree
      rw [exec_encMerge_of_two (by omega) hfree hmina hminb]
      have htotal : (s.joined a b).enc.fill.total = s.enc.fill.total := by
        rw [joined_fill]
        exact total_join hf.allocated hfree hmina.1 hminb.1 hfits rfl
      have hnewest : (s.joined a b).enc.fill.inq[(s.joined a b).enc.fill.nn - 1]? = some true := by
        rw [joined_fill]
        exact plant_inq_self (f := (s.enc.fill.unqueue a).unqueue b) hfree
      obtain ⟨t, hturns, hnn, hroot, hweight⟩ := ih (s := s.joined a b) hp (hjoin _)
        (show s.enc.qsize - 1 = q'.length by omega) (List.ne_nil_of_length_pos (by omega))
        (show s.enc.nn + 1 + q'.length ≤ encNodeCap + 1 by omega) hnewest (htotal.trans_lt hfits) (by omega)
      have hmade : (s.joined a b).enc.nn = s.enc.nn + 1 := rfl
      exact ⟨t, hturns, by omega, hroot, hweight.trans htotal⟩

/-- The sum of counts of `w` bits fits in nine bits more (R147). -/
theorem sum_counts_lt {w : Nat} {cnt : Vector Nat nsym} (h : ∀ i : Fin nsym, cnt[i] < 2 ^ w) :
    ((presentSymbols cnt).map fun i => cnt[i]).sum < 2 ^ (w + 9) := by
  have hbound : ((presentSymbols cnt).map fun i => cnt[i]).sum ≤ (presentSymbols cnt).length * 2 ^ w := by
    have hsum := List.sum_le_card_nsmul ((presentSymbols cnt).map fun i => cnt[i]) (2 ^ w) fun x hx => by
      obtain ⟨i, -, rfl⟩ := List.mem_map.mp hx
      exact (h i).le
    rwa [List.length_map, smul_eq_mul] at hsum
  have hle : (presentSymbols cnt).length * 2 ^ w ≤ 257 * 2 ^ w := Nat.mul_le_mul_right _ length_presentSymbols_le
  have hpos : 0 < 2 ^ w := Nat.two_pow_pos w
  rw [Nat.pow_add]
  omega

theorem insertLeaves_total (e : Enc) :
    (insertLeaves e).total = ((presentSymbols e.cnt).map fun i => e.cnt[i]).sum := by
  have hempty : e.emptyFill.Allocated := fun i hi => by simp [Enc.emptyFill, Vector.getElem?_replicate] at hi
  have hzero : e.emptyFill.total = 0 := by
    rw [LeafFill.total, Finset.sum_eq_zero]
    exact fun i hi => absurd (hempty i (mem_members.mp hi)) (Nat.not_lt_zero i)
  rw [insertLeaves_eq_plantAll, total_plantAll hempty length_presentLeaves_le, hzero, Nat.zero_add, List.map_map]
  rfl

/-- The node count, the root and its weight after the builder's turns (R145). -/
theorem turns_build_weight (hp : s.enc.phase = .qinit) (heof : s.enc.cnt[eofIndex] ≠ 0)
    (hcnt : ∀ i : Fin nsym, s.enc.cnt[i] < 2 ^ s.cfg.cntW) :
    ∃ t, turns .enc (1 + (presentSymbols s.enc.cnt).length) s = .next t ∧
      t.enc.nn = 2 * (presentSymbols s.enc.cnt).length - 1 ∧ t.enc.root = t.enc.nn - 1 ∧
      weightAt t.enc.node t.enc.root = ((presentSymbols s.enc.cnt).map fun i => s.enc.cnt[i]).sum := by
  obtain ⟨q, hforest, hnn, hlen, -⟩ := insertLeaves_forest s.enc
  have hmem : eofIndex ∈ presentSymbols s.enc.cnt :=
    List.mem_filter.mpr ⟨List.mem_finRange _, by simpa using heof⟩
  have hpos := List.length_pos_of_mem hmem
  have hle := length_presentSymbols_le (cnt := s.enc.cnt)
  have htotal := insertLeaves_total s.enc
  have hroom : (insertLeaves s.enc).nn + q.length ≤ encNodeCap + 1 := by
    simp only [encNodeCap, nsym] at *
    omega
  have hlast : (insertLeaves s.enc).inq[(insertLeaves s.enc).nn - 1]? = some true :=
    (insertLeaves_inside (by rw [insertLeaves_nn]; omega)).2
  obtain ⟨t, hturns, hnodes, hroot, hweight⟩ := turns_merge_weight (s := s.leavesPlanted) rfl hforest hnn
    (List.ne_nil_of_length_pos (hlen ▸ hpos)) hroom hlast (htotal.trans_lt (sum_counts_lt hcnt))
  rw [hlen] at hturns hnodes
  have hstart : s.leavesPlanted.enc.nn = (presentSymbols s.enc.cnt).length := insertLeaves_nn s.enc
  refine ⟨t, (turns_then ((turns_one _ _).trans (runUnit_enc_of_qinit hp))).trans hturns, by omega, hroot,
    hweight.trans htotal⟩

end Build

/-- Settles O49: the tree is the one `turns_build` finds; its size, root and weight are in `turns_build_weight`. -/
theorem builderMakesATreeOfThePresentSymbols : Obligations.BuilderMakesATreeOfThePresentSymbols := by
  intro s hp heof hcnt
  obtain ⟨f, n, r, T, hturns, hrep, hleaves⟩ := turns_build hp heof
  obtain ⟨t, hturns', hnn, hroot, hweight⟩ := turns_build_weight hp heof hcnt
  obtain rfl : (s.planted f n).rooted r = t := Host.Outcome.next.inj (hturns.symm.trans hturns')
  exact ⟨_, T, hturns, hrep, hleaves, hnn, hroot, hweight, rfl, rfl,
    Vector.getElem?_setIfInBounds_self_of_lt (by decide), rfl, rfl, rfl, rfl⟩

end Sys2Proof.Machine
end

section
/-! PROOFS. A whole run of ENC, with its tree and its code table (R177, R245): the present symbols of an input are its
distinct bytes and pseudo-EOF, and the code table that the second pass writes from is the one the generator recorded. -/

namespace Sys2Proof.Machine

section Symbols
variable {raw : List Byte} {cnt : Vector Nat nsym} {T : HTree}

/-- Every index of the symbol space is a byte's or pseudo-EOF's (R46). -/
theorem eq_byteIndex_or_eofIndex (i : Fin nsym) : (∃ r, i = byteIndex r) ∨ i = eofIndex := by
  rcases Nat.lt_or_ge i.val 256 with h | h
  · exact .inl ⟨BitVec.ofNat 8 i.val, Fin.ext (Nat.mod_eq_of_lt h).symm⟩
  · have hlt : i.val < 257 := i.isLt
    exact .inr (Fin.ext (show i.val = 256 by omega))

theorem symbolAt_byteIndex (r : Byte) : symbolAt (byteIndex r) = zext9 r := by
  refine (eq_symbolAt ?_).symm
  rw [zext9, BitVec.toNat_setWidth, Nat.mod_eq_of_lt (Nat.lt_trans r.isLt (by decide))]
  rfl

theorem mem_presentSymbols {i : Fin nsym} : i ∈ presentSymbols cnt ↔ cnt[i] ≠ 0 := by
  simp [presentSymbols]

/-- The counts that the first pass leaves (R132). -/
def inputCounts (w : Nat) (raw : List Byte) : Vector Nat nsym :=
  (tally w (Vector.replicate nsym 0) raw).set eofIndex 1

theorem inputCounts_ne_zero_iff {w : Nat} (hw : 1 ≤ w) (r : Byte) : (inputCounts w raw)[byteIndex r] ≠ 0 ↔ r ∈ raw := by
  refine ⟨fun h => ?_, (counted_ne_zero hw).1 r⟩
  rw [inputCounts, getElem_set_count_ne 1 (byteIndex_ne_eofIndex r), getElem_tally_zero] at h
  have hpos : 0 < occurrences r raw := by omega
  obtain ⟨x, hx, heq⟩ := List.countP_pos_iff.mp hpos
  exact beq_iff_eq.mp heq ▸ hx

/-- The present symbols of an input are its distinct bytes and pseudo-EOF. -/
theorem length_presentSymbols_inputCounts {w : Nat} (hw : 1 ≤ w) :
    (presentSymbols (inputCounts w raw)).length = distinctSymbols raw := by
  have hperm : (presentSymbols (inputCounts w raw)).Perm (eofIndex :: raw.dedup.map byteIndex) := by
    refine (List.perm_ext_iff_of_nodup ((List.nodup_finRange nsym).filter _) ?_).mpr fun i => ?_
    · refine List.nodup_cons.mpr ⟨fun h => ?_, (List.nodup_dedup raw).map byteIndex_injective⟩
      obtain ⟨r, -, hr⟩ := List.mem_map.mp h
      exact byteIndex_ne_eofIndex r hr
    · refine mem_presentSymbols.trans ?_
      rw [List.mem_cons]
      obtain ⟨r, rfl⟩ | rfl := eq_byteIndex_or_eofIndex i
      · rw [inputCounts_ne_zero_iff hw, or_iff_right (byteIndex_ne_eofIndex r),
          List.mem_map_of_injective byteIndex_injective, List.mem_dedup]
      · exact iff_of_true (counted_ne_zero (raw := raw) hw).2 (.inl rfl)
  rw [hperm.length_eq, List.length_cons, List.length_map, distinctSymbols]

end Symbols

section EncoderRun
variable {s : State} {raw : List Byte}

/-- A run of ENC passes through a state with the tree and its code table built, and keeps the code table (R177). -/
theorem turns_encoder_coded (hready : LinesReady s) (hcnt : 1 ≤ s.cfg.cntW) :
    ∃ t T e, TreeCoded (inputCounts s.cfg.cntW raw) T e ∧ t.enc.codes = e.codes ∧
      turns .enc (2 * raw.length + 5 * T.leafCount + 5) (s.encStarted raw) = .next t ∧ t.enc.phase = .done ∧
      t.enc.err = .none ∧ t.cout.closed = true ∧
      t.cout.bits = bits 32 s.cfg.magic.toNat ++ T.ser ++ (raw.flatMap fun r => codeOf t.enc (byteIndex r)) ++
        codeOf t.enc eofIndex ∧
      t.dec = s.dec ∧ t.cin = s.cin ∧ t.sout = s.sout := by
  obtain ⟨hrin, hcout, -, -⟩ := hready
  obtain ⟨hbyte, heof⟩ := counted_ne_zero (raw := raw) hcnt
  have hcount : turns .enc (raw.length + 1) (s.encStarted raw) = .next ((s.encStarted raw).counted raw).countEnded :=
    turns_count_to_qinit rfl hrin rfl
  obtain ⟨e, T, htree, herr, hcoded⟩ := turns_tree (s := ((s.encStarted raw).counted raw).countEnded) rfl heof
  have hleaves : T.leafCount ≤ nsym := leafCount_of_perm hcoded.leaves ▸ length_presentSymbols_le
  obtain ⟨stk, hheader⟩ := turns_header (s := { ((s.encStarted raw).counted raw).countEnded with enc := e })
    hcoded.phase ⟨hcout, rfl⟩ hcoded.rep hleaves
  have hpass := turns_secondPass (s := State.wrote { ((s.encStarted raw).counted raw).countEnded with enc := e }
    (bits 32 s.cfg.magic.toNat ++ T.ser) { e with stk := stk, sp := 0, phase := .rewind })
    rfl herr hrin ⟨hcout, rfl⟩ fun r hr => (hcoded.code (hbyte r hr)).1
  have hsize := size_add_one T
  have hrun := (turns_then hcount).trans ((turns_then htree).trans ((turns_then hheader).trans hpass))
  have hlength : raw.length + 1 + (1 + T.leafCount + T.size + (T.size + 1 + (raw.length + 3 + 1))) =
      2 * raw.length + 5 * T.leafCount + 5 := by omega
  exact ⟨_, T, e, hcoded, rfl, (hlength ▸ hrun :), rfl, herr, rfl, rfl, rfl, rfl, rfl⟩

end EncoderRun

/-- Settles O59: the run of `turns_encoder_coded`, whose tree has the present symbols as its leaves. -/
theorem encoderWritesTheWholeStream : Obligations.EncoderWritesTheWholeStream := by
  intro s raw hwait hready hcnt
  obtain ⟨t, T, e, hcoded, hcodes, hturns, hrest⟩ := turns_encoder_coded (raw := raw) hready hcnt
  obtain ⟨hdone, herr, hclosed, hbits, hframe⟩ := hrest
  have hcount : T.leafCount = distinctSymbols raw :=
    (leafCount_of_perm hcoded.leaves).trans (length_presentSymbols_inputCounts hcnt)
  have hleaves : T.leafCount ≤ 256 + 1 := leafCount_of_perm hcoded.leaves ▸ length_presentSymbols_le
  refine ⟨_, t, T, exec_encStart_of_waiting raw hwait, hcount ▸ hturns, hdone, herr, hclosed,
    nodup_leafValues_of_perm hcoded.leaves, ?_, hcount, fun v c hv hc => ?_, fun r hr => ?_, hbits, hframe⟩
  · exact symbolAt_mem_leafValues_of_perm hcoded.leaves (counted_ne_zero (raw := raw) hcnt).2
  · have hlt := length_lt_leafCount_of_mem_codes hc
    have hentry := hcoded.codes ⟨v.toNat, hv⟩ c ((eq_symbolAt (i := ⟨v.toNat, hv⟩) rfl) ▸ hc)
    exact codeOf_of_entry (hcodes ▸ hentry) (by omega)
  · exact symbolAt_byteIndex r ▸
      symbolAt_mem_leafValues_of_perm hcoded.leaves ((inputCounts_ne_zero_iff hcnt r).mpr hr)

end Sys2Proof.Machine
end

section
/-! PROOFS. The two units share nothing (R20, R125): what an instruction of one unit leaves unchanged, and that it does
the same in two states that its unit cannot tell apart; the two starts in either order. -/

namespace Sys2Proof.Machine

/-- What an instruction of ENC leaves unchanged. -/
structure EncFrame (s t : State) : Prop where
  cfg : t.cfg = s.cfg
  dec : t.dec = s.dec
  cin : t.cin = s.cin
  sout : t.sout = s.sout
  agenda : t.agenda = s.agenda
  turn : t.turn = s.turn

/-- What an instruction of DEC leaves unchanged. -/
structure DecFrame (s t : State) : Prop where
  cfg : t.cfg = s.cfg
  enc : t.enc = s.enc
  rin : t.rin = s.rin
  cout : t.cout = s.cout
  agenda : t.agenda = s.agenda
  turn : t.turn = s.turn
  draws : t.draws = s.draws

section Frame
variable {s t u : State}

theorem EncFrame.refl (s : State) : EncFrame s s := ⟨rfl, rfl, rfl, rfl, rfl, rfl⟩

theorem DecFrame.refl (s : State) : DecFrame s s := ⟨rfl, rfl, rfl, rfl, rfl, rfl, rfl⟩

theorem DecFrame.trans (hst : DecFrame s t) (htu : DecFrame t u) : DecFrame s u :=
  ⟨htu.cfg.trans hst.cfg, htu.enc.trans hst.enc, htu.rin.trans hst.rin, htu.cout.trans hst.cout,
    htu.agenda.trans hst.agenda, htu.turn.trans hst.turn, htu.draws.trans hst.draws⟩

theorem exec_encStart_frame {raw : List Byte} (h : exec (.encStart raw) s = .next t) : EncFrame s t := by
  by_cases hw : s.enc.phase.waiting = true
  · cases (exec_encStart_of_waiting raw hw).symm.trans h
    exact ⟨rfl, rfl, rfl, rfl, rfl, rfl⟩
  · cases (exec_encStart_of_not_waiting raw hw).symm.trans h
    exact .refl _

theorem execEncMerge_frame (h : execEncMerge s = .next t) : EncFrame s t := by
  obtain ⟨-, hn, h⟩ | ⟨-, h⟩ := execEncMerge_next h
  · simp only [mergeTwo, if_pos hn] at h
    cases h
    exact ⟨rfl, rfl, rfl, rfl, rfl, rfl⟩
  · cases h
    exact ⟨rfl, rfl, rfl, rfl, rfl, rfl⟩

/-- The operations of ENC one by one, from what each can do. -/
theorem exec_encFrame {i : Instr} (hi : Instr.unit i = some .enc) (h : exec i s = .next t) : EncFrame s t := by
  cases i with
  | encStart raw => exact exec_encStart_frame h
  | encWaitIdle | encWaitDone | encWaitFault | encQinit | encRewind => cases h; exact ⟨rfl, rfl, rfl, rfl, rfl, rfl⟩
  | encCount =>
    obtain rfl | ⟨-, rfl⟩ | ⟨r, -, rfl⟩ := execEncCount_next h <;> exact ⟨rfl, rfl, rfl, rfl, rfl, rfl⟩
  | encMerge => exact execEncMerge_frame h
  | encGen =>
    obtain ⟨x, n, -, -, -, ⟨v, hv, -, rfl⟩ | ⟨l, r, -, -, rfl⟩⟩ := execEncGen_next h <;>
      exact ⟨rfl, rfl, rfl, rfl, rfl, rfl⟩
  | encWrmagic => obtain rfl | rfl := execEncWrmagic_next h <;> exact ⟨rfl, rfl, rfl, rfl, rfl, rfl⟩
  | encWrhdr =>
    obtain ⟨x, n, -, -, -, rfl | ⟨v, -, rfl⟩ | ⟨l, r, -, -, rfl⟩⟩ := execEncWrhdr_next h <;>
      exact ⟨rfl, rfl, rfl, rfl, rfl, rfl⟩
  | encEncode =>
    obtain rfl | ⟨-, rfl⟩ | ⟨r, -, -, rfl⟩ | ⟨r, -, -, rfl⟩ := execEncEncode_next h <;>
      exact ⟨rfl, rfl, rfl, rfl, rfl, rfl⟩
  | encWreof => obtain rfl | rfl := execEncWreof_next h <;> exact ⟨rfl, rfl, rfl, rfl, rfl, rfl⟩
  | encClose => obtain rfl | rfl := execEncClose_next h <;> exact ⟨rfl, rfl, rfl, rfl, rfl, rfl⟩
  | _ => cases hi

theorem exec_decStart_frame {comp : Bits} (h : exec (.decStart comp) s = .next t) : DecFrame s t := by
  by_cases hw : s.dec.phase.waiting = true
  · cases (exec_decStart_of_waiting comp hw).symm.trans h
    exact ⟨rfl, rfl, rfl, rfl, rfl, rfl, rfl⟩
  · cases (exec_decStart_of_not_waiting comp hw).symm.trans h
    exact .refl _

theorem takeMagic_frame {m : MagicWord} {p : Cin} (h : takeMagic m { s with cin := p } = .next t) : DecFrame s t := by
  obtain ⟨-, rfl⟩ | ⟨-, rfl⟩ := takeMagic_next h <;> exact ⟨rfl, rfl, rfl, rfl, rfl, rfl, rfl⟩

theorem takeRecord_frame {r : Option Sym} {p : Cin} (h : takeRecord r { s with cin := p } = .next t) :
    DecFrame s t := by
  obtain ⟨-, rfl⟩ | ⟨-, d, -, rfl⟩ := takeRecord_next h <;> exact ⟨rfl, rfl, rfl, rfl, rfl, rfl, rfl⟩

theorem takeBit_frame {b : Bool} {p : Cin} (h : takeBit b s { s with cin := p } = .next t) : DecFrame s t := by
  obtain ⟨n, c, m, -, -, -, hmove⟩ := takeBit_next h
  obtain ⟨l, r, -, rfl⟩ | ⟨-, rfl⟩ | ⟨v, -, -, ⟨-, rfl⟩ | ⟨q, -, rfl⟩⟩ := hmove <;>
    exact ⟨rfl, rfl, rfl, rfl, rfl, rfl, rfl⟩

/-- Bit by bit, as `takeBits` goes. -/
theorem takeBits_frame {code : Bits} (h : takeBits code s = .next t) : DecFrame s t := by
  induction code generalizing s with
  | nil => cases h; exact .refl _
  | cons b bs ih =>
    rw [takeBits] at h
    split at h
    · split at h
      · rename_i u hbit
        have hu : DecFrame s u := takeBit_frame hbit
        split at h
        · cases h; exact hu
        · exact hu.trans (ih h)
      · cases h
      · cases h
    · cases h; exact .refl _

theorem takeBody_frame {code : Bits} (h : takeBody code s = .next t) : DecFrame s t := by
  unfold takeBody at h
  split at h
  · split at h
    · cases h
    · cases h; exact ⟨rfl, rfl, rfl, rfl, rfl, rfl, rfl⟩
    · exact takeBits_frame h
  · cases h; exact .refl _

/-- The operations of DEC and the items one by one, from what each can do. -/
theorem exec_decFrame {i : Instr} (hi : Instr.unit i = some .dec) (h : exec i s = .next t) : DecFrame s t := by
  cases i with
  | decStart comp => exact exec_decStart_frame h
  | decWaitIdle | decWaitDone | decWaitFault | pad => cases h; exact .refl _
  | decRdmagic =>
    obtain rfl | rfl | ⟨-, m, h⟩ := execDecRdmagic_next h
    · exact .refl _
    · exact ⟨rfl, rfl, rfl, rfl, rfl, rfl, rfl⟩
    · exact takeMagic_frame h
  | decRdhdr =>
    obtain rfl | rfl | ⟨-, h⟩ | ⟨-, v, h⟩ := execDecRdhdr_next h
    · exact .refl _
    · exact ⟨rfl, rfl, rfl, rfl, rfl, rfl, rfl⟩
    · exact takeRecord_frame h
    · exact takeRecord_frame h
  | decDecode =>
    obtain ⟨-, rfl⟩ | ⟨-, rfl | rfl | ⟨-, b, h⟩⟩ := execDecDecode_next h
    · exact ⟨rfl, rfl, rfl, rfl, rfl, rfl, rfl⟩
    · exact .refl _
    · exact ⟨rfl, rfl, rfl, rfl, rfl, rfl, rfl⟩
    · exact takeBit_frame h
  | decClose => obtain rfl | rfl := execDecClose_next h <;> exact ⟨rfl, rfl, rfl, rfl, rfl, rfl, rfl⟩
  | magic m =>
    by_cases hread : s.dec.phase = .rdmagic ∧ s.cin.valid = true
    · exact takeMagic_frame ((if_pos hread).symm.trans h)
    · cases (if_neg hread).symm.trans h; exact .refl _
  | hdrNode =>
    by_cases hread : s.dec.phase = .rdhdr ∧ s.cin.valid = true
    · exact takeRecord_frame ((if_pos hread).symm.trans h)
    · cases (if_neg hread).symm.trans h; exact .refl _
  | hdrLeaf v =>
    by_cases hread : s.dec.phase = .rdhdr ∧ s.cin.valid = true
    · exact takeRecord_frame ((if_pos hread).symm.trans h)
    · cases (if_neg hread).symm.trans h; exact .refl _
  | bodyCode code | bodyEof code => exact takeBody_frame h
  | _ => cases hi

end Frame

/-- Two results that a condition chooses in both states. -/
theorem SameResult.ite {u : Agent} {c : Prop} [Decidable c] {a b a' b' : Result} (ha : SameResult u a a')
    (hb : SameResult u b b') : SameResult u (if c then a else b) (if c then a' else b') := by
  by_cases h : c
  · simpa only [if_pos h] using ha
  · simpa only [if_neg h] using hb

section EncView
variable {i : Instr}

/-- The state `o` with what ENC sees of `s` in it. -/
def State.encViewIn (s o : State) : State :=
  { o with cfg := s.cfg, enc := s.enc, rin := s.rin, cout := s.cout, draws := s.draws }

section Fields
variable (s o : State)

@[simp] theorem encViewIn_cfg : (s.encViewIn o).cfg = s.cfg := rfl
@[simp] theorem encViewIn_enc : (s.encViewIn o).enc = s.enc := rfl
@[simp] theorem encViewIn_rin : (s.encViewIn o).rin = s.rin := rfl
@[simp] theorem encViewIn_cout : (s.encViewIn o).cout = s.cout := rfl
@[simp] theorem encViewIn_draws : (s.encViewIn o).draws = s.draws := rfl

end Fields

theorem eq_encViewIn {s t : State} (h : SameView .enc s t) : t = s.encViewIn t := by
  obtain ⟨hcfg, henc, hrin, hcout, hdraws⟩ := h
  rw [State.encViewIn, hcfg, henc, hrin, hcout, hdraws]

/-- The operations of ENC one by one: after the view is put in place both states meet the same cases. -/
theorem exec_encViewIn (hi : Instr.unit i = some .enc) (s o : State) :
    SameResult .enc (exec i s) (exec i (s.encViewIn o)) := by
  cases i with
  | encStart raw =>
    exact SameResult.ite (c := s.enc.phase.waiting = true) ⟨rfl, rfl, rfl, rfl, rfl⟩ ⟨rfl, rfl, rfl, rfl, rfl⟩
  | encWaitIdle | encWaitDone | encWaitFault | encQinit | encRewind => exact ⟨rfl, rfl, rfl, rfl, rfl⟩
  | encCount =>
    simp only [exec, execEncCount, encViewIn_rin]
    cases s.rin.read <;> exact ⟨rfl, rfl, rfl, rfl, rfl⟩
  | encMerge =>
    have hmerge : SameResult .enc (mergeTwo s) (mergeTwo (s.encViewIn o)) :=
      SameResult.ite (c := s.enc.nn < encNodeCap) ⟨rfl, rfl, rfl, rfl, rfl⟩ rfl
    exact SameResult.ite (c := 1 < s.enc.qsize) hmerge ⟨rfl, rfl, rfl, rfl, rfl⟩
  | encGen =>
    simp only [exec, execEncGen, encViewIn_enc]
    cases s.enc.pop with
    | none => rfl
    | some p =>
      cases hn : p.2.node[p.1.node]? with
      | none => simp only [hn]; rfl
      | some n =>
        simp only [hn]
        cases n.kind with
        | leaf v =>
          by_cases hv : v.toNat < nsym
          · simp only [dif_pos hv]
            exact ⟨rfl, rfl, rfl, rfl, rfl⟩
          · simp only [dif_neg hv]
            rfl
        | internal l r =>
          simp only
          cases p.2.pushTwo (p.1.below true r) (p.1.below false l) with
          | none => rfl
          | some e => exact ⟨rfl, rfl, rfl, rfl, rfl⟩
  | encWrmagic =>
    simp only [exec, execEncWrmagic, encViewIn_cout, encViewIn_cfg]
    cases s.cout.write 32 s.cfg.magic.toNat with
    | closed => rfl
    | wait | sent p => exact ⟨rfl, rfl, rfl, rfl, rfl⟩
  | encWrhdr =>
    simp only [exec, execEncWrhdr, encViewIn_enc, encViewIn_cout]
    cases s.enc.pop with
    | none => rfl
    | some p =>
      cases hn : p.2.node[p.1.node]? with
      | none => simp only [hn]; rfl
      | some n =>
        simp only [hn]
        cases n.kind with
        | leaf v =>
          simp only
          cases writeLeafRecord v s.cout with
          | closed => rfl
          | wait | sent q => exact ⟨rfl, rfl, rfl, rfl, rfl⟩
        | internal l r =>
          simp only
          cases s.cout.write 1 0 with
          | closed => rfl
          | wait => exact ⟨rfl, rfl, rfl, rfl, rfl⟩
          | sent q =>
            simp only
            cases p.2.pushTwoNodes r l with
            | none => rfl
            | some e => exact ⟨rfl, rfl, rfl, rfl, rfl⟩
  | encEncode =>
    simp only [exec, execEncEncode, encViewIn_rin, encViewIn_enc, encViewIn_cout]
    cases s.rin.read with
    | wait | eos p => exact ⟨rfl, rfl, rfl, rfl, rfl⟩
    | got r p =>
      refine SameResult.ite ?_ ⟨rfl, rfl, rfl, rfl, rfl⟩
      cases writeCode s.enc (byteIndex r) s.cout with
      | closed => rfl
      | wait | sent q => exact ⟨rfl, rfl, rfl, rfl, rfl⟩
  | encWreof =>
    simp only [exec, execEncWreof, encViewIn_enc, encViewIn_cout]
    cases writeCode s.enc eofIndex s.cout with
    | closed => rfl
    | wait | sent p => exact ⟨rfl, rfl, rfl, rfl, rfl⟩
  | encClose =>
    simp only [exec, execEncClose, encViewIn_cout]
    cases s.cout.close with
    | closed => rfl
    | wait | sent p => exact ⟨rfl, rfl, rfl, rfl, rfl⟩
  | _ => cases hi

end EncView

section DecView
variable {i : Instr}

/-- The state `o` with what DEC sees of `s` in it. -/
def State.decViewIn (s o : State) : State := { o with cfg := s.cfg, dec := s.dec, cin := s.cin, sout := s.sout }

section Fields
variable (s o : State)

@[simp] theorem decViewIn_cfg : (s.decViewIn o).cfg = s.cfg := rfl
@[simp] theorem decViewIn_dec : (s.decViewIn o).dec = s.dec := rfl
@[simp] theorem decViewIn_cin : (s.decViewIn o).cin = s.cin := rfl
@[simp] theorem decViewIn_sout : (s.decViewIn o).sout = s.sout := rfl

end Fields

theorem eq_decViewIn {s t : State} (h : SameView .dec s t) : t = s.decViewIn t := by
  obtain ⟨hcfg, hdec, hcin, hsout⟩ := h
  rw [State.decViewIn, hcfg, hdec, hcin, hsout]

theorem takeMagic_decViewIn (m : MagicWord) (s o : State) :
    SameResult .dec (takeMagic m s) (takeMagic m (s.decViewIn o)) :=
  SameResult.ite (c := m = s.cfg.magic) ⟨rfl, rfl, rfl, rfl⟩ ⟨rfl, rfl, rfl, rfl⟩

theorem takeRecord_decViewIn (r : Option Sym) (s o : State) :
    SameResult .dec (takeRecord r s) (takeRecord r (s.decViewIn o)) := by
  simp only [takeRecord, decViewIn_cfg, decViewIn_dec]
  refine SameResult.ite ⟨rfl, rfl, rfl, rfl⟩ ?_
  cases s.dec.addRecord r with
  | ok d => exact ⟨rfl, rfl, rfl, rfl⟩
  | error f => rfl

theorem takeBit_decViewIn (b : Bool) (held s o : State) :
    SameResult .dec (takeBit b held s) (takeBit b (held.decViewIn o) (s.decViewIn o)) := by
  simp only [takeBit, decViewIn_dec, decViewIn_sout]
  cases s.dec.dnode[s.dec.cur]? with
  | none => rfl
  | some n =>
    simp only
    cases n.child b with
    | none => rfl
    | some c =>
      simp only
      cases s.dec.dnode[c]? with
      | none => rfl
      | some m =>
        cases m with
        | internal l r => exact ⟨rfl, rfl, rfl, rfl⟩
        | leaf v =>
          refine SameResult.ite ⟨rfl, rfl, rfl, rfl⟩ ?_
          cases s.sout.write v with
          | closed => rfl
          | wait | sent p => exact ⟨rfl, rfl, rfl, rfl⟩

/-- Bit by bit: the states between two bits look the same again. -/
theorem takeBits_decViewIn (code : Bits) (s o : State) :
    SameResult .dec (takeBits code s) (takeBits code (s.decViewIn o)) := by
  induction code generalizing s o with
  | nil => exact ⟨rfl, rfl, rfl, rfl⟩
  | cons b bs ih =>
    rw [takeBits, takeBits]
    simp only [decViewIn_dec, decViewIn_cin]
    refine SameResult.ite ?_ ⟨rfl, rfl, rfl, rfl⟩
    have hbit : SameResult .dec (takeBit b s (pastItem 1 s))
        (takeBit b (s.decViewIn o) (pastItem 1 (s.decViewIn o))) := takeBit_decViewIn b s (pastItem 1 s) o
    revert hbit
    cases takeBit b s (pastItem 1 s) <;> cases takeBit b (s.decViewIn o) (pastItem 1 (s.decViewIn o)) <;> intro hbit
    case next.next u v =>
      rw [eq_decViewIn hbit]
      simp only [decViewIn_cin]
      exact SameResult.ite ⟨rfl, rfl, rfl, rfl⟩ (ih u v)
    case fault.fault | refused.refused => exact hbit
    all_goals exact False.elim hbit

theorem takeBody_decViewIn (code : Bits) (s o : State) :
    SameResult .dec (takeBody code s) (takeBody code (s.decViewIn o)) := by
  simp only [takeBody, decViewIn_dec]
  refine SameResult.ite ?_ ⟨rfl, rfl, rfl, rfl⟩
  cases s.dec.rootIsLeaf with
  | none => rfl
  | some b =>
    cases b with
    | true => exact ⟨rfl, rfl, rfl, rfl⟩
    | false => exact takeBits_decViewIn code s o

/-- The operations of DEC and the items one by one: after the view is put in place both states meet the same cases. -/
theorem exec_decViewIn (hi : Instr.unit i = some .dec) (s o : State) :
    SameResult .dec (exec i s) (exec i (s.decViewIn o)) := by
  cases i with
  | decStart comp =>
    exact SameResult.ite (c := s.dec.phase.waiting = true) ⟨rfl, rfl, rfl, rfl⟩ ⟨rfl, rfl, rfl, rfl⟩
  | decWaitIdle | decWaitDone | decWaitFault | pad => exact ⟨rfl, rfl, rfl, rfl⟩
  | decRdmagic =>
    simp only [exec, execDecRdmagic, decViewIn_cin]
    cases s.cin.read 32 with
    | wait | eos p => exact ⟨rfl, rfl, rfl, rfl⟩
    | got m p => exact takeMagic_decViewIn _ { s with cin := p } o
  | decRdhdr =>
    simp only [exec, execDecRdhdr, decViewIn_cin]
    cases s.cin.read 1 with
    | wait | eos p => exact ⟨rfl, rfl, rfl, rfl⟩
    | got t p =>
      refine SameResult.ite ?_ (takeRecord_decViewIn none { s with cin := p } o)
      cases p.read 9 with
      | wait | eos q => exact ⟨rfl, rfl, rfl, rfl⟩
      | got v q => exact takeRecord_decViewIn _ { s with cin := q } o
  | decDecode =>
    simp only [exec, execDecDecode, decViewIn_dec, decViewIn_cin]
    cases s.dec.rootIsLeaf with
    | none => rfl
    | some b =>
      cases b with
      | true => exact ⟨rfl, rfl, rfl, rfl⟩
      | false =>
        cases s.cin.read 1 with
        | wait | eos p => exact ⟨rfl, rfl, rfl, rfl⟩
        | got b p => exact takeBit_decViewIn _ s { s with cin := p } o
  | decClose =>
    simp only [exec, execDecClose, decViewIn_sout]
    cases s.sout.close with
    | closed => rfl
    | wait | sent p => exact ⟨rfl, rfl, rfl, rfl⟩
  | magic m =>
    exact SameResult.ite (c := s.dec.phase = .rdmagic ∧ s.cin.valid = true)
      (takeMagic_decViewIn m (pastItem 32 s) o) ⟨rfl, rfl, rfl, rfl⟩
  | hdrNode =>
    exact SameResult.ite (c := s.dec.phase = .rdhdr ∧ s.cin.valid = true)
      (takeRecord_decViewIn none (pastItem 1 s) o) ⟨rfl, rfl, rfl, rfl⟩
  | hdrLeaf v =>
    exact SameResult.ite (c := s.dec.phase = .rdhdr ∧ s.cin.valid = true)
      (takeRecord_decViewIn (some v) (pastItem 10 s) o) ⟨rfl, rfl, rfl, rfl⟩
  | bodyCode code | bodyEof code => exact takeBody_decViewIn code s o
  | _ => cases hi

end DecView

/-- Settles O39: the frame of each unit's instructions, and their effect with one unit's view put into another state. -/
theorem unitsDoNotInterfere : Obligations.UnitsDoNotInterfere := by
  intro i u hi
  cases u with
  | enc =>
    refine ⟨fun s t h => ?_, fun s t h => ?_⟩
    · have hframe := exec_encFrame hi h
      exact ⟨hframe.agenda, hframe.turn, hframe.dec, hframe.cin, hframe.sout⟩
    · rw [eq_encViewIn h]
      exact exec_encViewIn hi s t
  | dec =>
    refine ⟨fun s t h => ?_, fun s t h => ?_⟩
    · have hframe := exec_decFrame hi h
      exact ⟨hframe.agenda, hframe.turn, hframe.enc, hframe.rin, hframe.cout, hframe.draws⟩
    · rw [eq_decViewIn h]
      exact exec_decViewIn hi s t

/-- Settles O40: neither start touches the phase that the other one asks for. -/
theorem startsAreIndependent : Obligations.StartsAreIndependent := by
  intro s raw comp
  by_cases he : s.enc.phase.waiting = true <;> by_cases hd : s.dec.phase.waiting = true
  · exact ⟨_, _, _, exec_encStart_of_waiting raw he, exec_decStart_of_waiting comp (by exact hd),
      exec_decStart_of_waiting comp hd, exec_encStart_of_waiting raw (by exact he)⟩
  · exact ⟨_, _, _, exec_encStart_of_waiting raw he, exec_decStart_of_not_waiting comp (by exact hd),
      exec_decStart_of_not_waiting comp hd, exec_encStart_of_waiting raw (by exact he)⟩
  · exact ⟨_, _, _, exec_encStart_of_not_waiting raw he, exec_decStart_of_waiting comp (by exact hd),
      exec_decStart_of_waiting comp hd, exec_encStart_of_not_waiting raw (by exact he)⟩
  · exact ⟨_, _, _, exec_encStart_of_not_waiting raw he, exec_decStart_of_not_waiting comp (by exact hd),
      exec_decStart_of_not_waiting comp hd, exec_encStart_of_not_waiting raw (by exact he)⟩

end Sys2Proof.Machine
end

section
/-! PROOFS. What a step does to `phase`, `err` and the output's `closed` (R41, R42, R65, R68, R204 to R207): said once
for each unit, and the rules about the phase tables, about errors and about closed outputs read off from it. -/

namespace Sys2Proof.Machine

/-- What the step `s` to `t` is: it runs on `s'`, which is `s` with another agenda and turn. -/
inductive StepKind (s s' t : State) : Prop
  | encOp (i : Instr) (hi : encOperation s'.enc.phase = some i) (h : exec i s' = .next t)
  | decOp (i : Instr) (hi : decOperation s'.dec.phase = some i) (h : exec i s' = .next t)
  | reset (hf : (fetch s).instr = some .reset) (h : exec .reset s' = .next t)
  | encStart (raw : List Byte) (hf : (fetch s).instr = some (.encStart raw)) (h : exec (.encStart raw) s' = .next t)
  | decStart (comp : Bits) (hf : (fetch s).instr = some (.decStart comp)) (h : exec (.decStart comp) s' = .next t)
  | event (e : HostEvent) (h : t = applyEvent e s')

section Step
variable {s s' t : State}

theorem exists_stepKind (h : step s = .next t) : ∃ a r, StepKind s { s with agenda := a, turn := r } t := by
  obtain ⟨a, r, hfetch⟩ := fetch_cases s
  refine ⟨a, r, ?_⟩
  unfold step at h
  obtain ⟨u, hs, hi⟩ | ⟨i, hs, hi, hc⟩ | ⟨e, hs, hi⟩ := hfetch
  · rw [hs] at h
    cases hinstr : (fetch s).instr with
    | none =>
      simp only [hinstr] at h
      cases h
      exact .event (.strobe false false false [] []) rfl
    | some i =>
      simp only [hinstr] at h
      rw [hi] at hinstr
      cases u with
      | enc => exact .encOp i ((fetchUnit_enc s).symm.trans hinstr) h
      | dec => exact .decOp i ((fetchUnit_dec s).symm.trans hinstr) h
  · simp only [hi, hs] at h
    obtain rfl | ⟨raw, rfl⟩ | ⟨comp, rfl⟩ := hc
    · exact .reset hi h
    · exact .encStart raw hi h
    · exact .decStart comp hi h
  · simp only [hi, hs] at h
    cases h
    exact .event e rfl

theorem unit_of_encOperation {p : EncPhase} {i : Instr} (h : encOperation p = some i) : Instr.unit i = some .enc := by
  cases p <;> cases h <;> rfl

theorem unit_of_decOperation {p : DecPhase} {i : Instr} (h : decOperation p = some i) : Instr.unit i = some .dec := by
  cases p <;> cases h <;> rfl

theorem StepKind.cfg (h : StepKind s s' t) : t.cfg = s'.cfg := by
  cases h with
  | encOp i hi h => exact (exec_encFrame (unit_of_encOperation hi) h).cfg
  | decOp i hi h => exact (exec_decFrame (unit_of_decOperation hi) h).cfg
  | reset hf h => cases h; rfl
  | encStart raw hf h => exact (exec_encStart_frame h).cfg
  | decStart comp hf h => exact (exec_decStart_frame h).cfg
  | event e h => exact h ▸ applyEvent_cfg e s'

end Step

section Enc
variable {f : Option Instr} {s s' t : State}

/-- The moves of ENC's phase within a run that keep `err` and the output (R41). -/
def encAdvances : List (EncPhase × EncPhase) :=
  [(.count, .qinit), (.qinit, .merge), (.merge, .gen), (.gen, .wrmagic), (.wrmagic, .wrhdr), (.wrhdr, .rewind),
    (.rewind, .encode), (.encode, .wreof), (.wreof, .close)]

/-- What a step that gives the command `f`, if any, does to ENC's `phase`, `err` and `closed`. -/
inductive EncControl (f : Option Instr) (s t : State) : Prop
  | stay (hp : t.enc.phase = s.enc.phase) (he : t.enc.err = s.enc.err) (hc : t.cout.closed = s.cout.closed)
  | advance (p q : EncPhase) (hpq : (p, q) ∈ encAdvances) (hs : s.enc.phase = p) (ht : t.enc.phase = q)
      (he : t.enc.err = s.enc.err) (hc : t.cout.closed = s.cout.closed)
  | raise (hs : s.enc.phase = .encode) (ht : t.enc.phase = .close) (he : t.enc.err = .encNoCode)
      (hc : t.cout.closed = s.cout.closed)
  | close (hs : s.enc.phase = .close) (ht : t.enc.phase = if s.enc.err = .none then .done else .fault)
      (he : t.enc.err = s.enc.err) (hc : t.cout.closed = true)
  | reset (hf : f = some .reset) (ht : t.enc.phase = .idle) (he : t.enc.err = .none)
      (hc : t.cout.closed = s.cout.closed)
  | start (raw : List Byte) (hf : f = some (.encStart raw)) (hs : s.enc.phase.waiting = true)
      (ht : t.enc.phase = .count) (he : t.enc.err = .none) (hc : t.cout.closed = false)

/-- A walk stays in its phase or, with the last node visited, goes on to the next (R151, R162). -/
theorem EncControl.endOfWalk {p q : EncPhase} {e : Enc} {c : Cout} (hpq : (p, q) ∈ encAdvances) (hs : s.enc.phase = p)
    (hp : e.phase = s.enc.phase) (he : e.err = s.enc.err) (hc : c.closed = s.cout.closed) :
    EncControl f s { s with enc := e.endOfWalk q, cout := c } := by
  by_cases h0 : e.sp = 0
  · exact .advance p q hpq hs (by rw [endOfWalk_phase, if_pos h0]) ((endOfWalk_err ..).trans he) hc
  · exact .stay (by rw [endOfWalk_phase, if_neg h0, hp]) ((endOfWalk_err ..).trans he) hc

/-- ENC's operations, phase by phase. -/
theorem exec_encControl {i : Instr} (hi : encOperation s.enc.phase = some i) (h : exec i s = .next t) :
    EncControl f s t := by
  cases hp : s.enc.phase <;> rw [hp] at hi <;> cases hi
  case idle | done | fault => cases h; exact .stay rfl rfl rfl
  case count =>
    obtain rfl | ⟨-, rfl⟩ | ⟨r, -, rfl⟩ := execEncCount_next h
    · exact .stay rfl rfl rfl
    · exact .advance .count .qinit (by decide) hp rfl rfl rfl
    · exact .stay rfl rfl rfl
  case qinit => cases h; exact .advance .qinit .merge (by decide) hp rfl rfl rfl
  case merge =>
    obtain ⟨-, hn, h⟩ | ⟨-, h⟩ := execEncMerge_next h
    · simp only [mergeTwo, if_pos hn] at h
      cases h
      exact .stay rfl rfl rfl
    · cases h
      exact .advance .merge .gen (by decide) hp rfl rfl rfl
  case gen =>
    obtain ⟨x, n, -, -, -, ⟨v, hv, -, rfl⟩ | ⟨l, r, -, -, rfl⟩⟩ := execEncGen_next h
    · exact .endOfWalk (p := .gen) (by decide) hp rfl rfl rfl
    · exact .stay rfl rfl rfl
  case wrmagic =>
    obtain rfl | rfl := execEncWrmagic_next h
    · exact .stay rfl rfl rfl
    · exact .advance .wrmagic .wrhdr (by decide) hp rfl rfl rfl
  case wrhdr =>
    obtain ⟨x, n, -, -, -, rfl | ⟨v, -, rfl⟩ | ⟨l, r, -, -, rfl⟩⟩ := execEncWrhdr_next h
    · exact .stay rfl rfl rfl
    · exact .endOfWalk (p := .wrhdr) (by decide) hp rfl rfl rfl
    · exact .stay rfl rfl rfl
  case rewind => cases h; exact .advance .rewind .encode (by decide) hp rfl rfl rfl
  case encode =>
    obtain rfl | ⟨-, rfl⟩ | ⟨r, -, -, rfl⟩ | ⟨r, -, -, rfl⟩ := execEncEncode_next h
    · exact .stay rfl rfl rfl
    · exact .advance .encode .wreof (by decide) hp rfl rfl rfl
    · exact .stay rfl rfl rfl
    · exact .raise hp rfl rfl rfl
  case wreof =>
    obtain rfl | rfl := execEncWreof_next h
    · exact .stay rfl rfl rfl
    · exact .advance .wreof .close (by decide) hp rfl rfl rfl
  case close =>
    obtain rfl | rfl := execEncClose_next h
    · exact .stay rfl rfl rfl
    · exact .close hp rfl rfl rfl

/-- What any step does to ENC's control. -/
theorem StepKind.encControl (h : StepKind s s' t) : EncControl (fetch s).instr s' t := by
  cases h with
  | encOp i hi h => exact exec_encControl hi h
  | decOp i hi h =>
    have hframe := exec_decFrame (unit_of_decOperation hi) h
    exact .stay (by rw [hframe.enc]) (by rw [hframe.enc]) (by rw [hframe.cout])
  | reset hf h => cases h; exact .reset hf rfl rfl rfl
  | encStart raw hf h =>
    by_cases hw : s'.enc.phase.waiting = true
    · cases (exec_encStart_of_waiting raw hw).symm.trans h
      exact .start raw hf hw rfl rfl rfl
    · cases (exec_encStart_of_not_waiting raw hw).symm.trans h
      exact .stay rfl rfl rfl
  | decStart comp hf h =>
    have hframe := exec_decStart_frame h
    exact .stay (by rw [hframe.enc]) (by rw [hframe.enc]) (by rw [hframe.cout])
  | event e h => subst h; exact .stay (by simp) (by simp) (by simp)

/-- The moves within a run are moves of the table between phases in which ENC is busy (R41). -/
theorem encAdvances_spec : ∀ m ∈ encAdvances, m.2 ∈ encMoves m.1 ∧ m.1.waiting = false ∧ m.2.waiting = false ∧
    m.2 ≠ .reserved13 ∧ m.2 ≠ .reserved14 ∧ m.2 ≠ .reserved15 ∧ m.1 ≠ .close := by
  decide

theorem EncControl.phase_moves (h : EncControl f s t) :
    t.enc.phase = s.enc.phase ∨ t.enc.phase ∈ encMoves s.enc.phase := by
  cases h with
  | stay hp _ _ => exact .inl hp
  | advance p q hpq hs ht _ _ => exact .inr (hs ▸ ht ▸ (encAdvances_spec _ hpq).1)
  | raise hs ht _ _ => exact .inr (by rw [hs, ht]; decide)
  | close hs ht _ _ => exact .inr (by rw [hs, ht]; split <;> decide)
  | reset _ ht _ _ => exact .inr (by rw [ht]; cases s.enc.phase <;> decide)
  | start raw _ hs ht _ _ =>
    refine .inr ?_
    rw [ht]
    obtain hp | hp | hp := (EncPhase.waiting_iff _).mp hs <;> rw [hp] <;> decide

/-- ENC's part of `State.OutputsAgree` and `State.PhasesLegal`. -/
def EncOutputOk (s : State) : Prop :=
  (s.enc.busy = true → s.cout.closed = false) ∧
    (s.enc.phase = .done ∨ s.enc.phase = .fault → s.cout.closed = true) ∧
    s.enc.phase ≠ .reserved13 ∧ s.enc.phase ≠ .reserved14 ∧ s.enc.phase ≠ .reserved15

theorem encOutputOk_of_busy (hb : t.enc.phase.waiting = false) (hc : t.cout.closed = false)
    (hlegal : t.enc.phase ≠ .reserved13 ∧ t.enc.phase ≠ .reserved14 ∧ t.enc.phase ≠ .reserved15) : EncOutputOk t := by
  refine ⟨fun _ => hc, fun h => ?_, hlegal⟩
  obtain h | h := h <;> rw [h] at hb <;> cases hb

theorem EncOutputOk.open_of_busy (h : EncOutputOk s) (hb : s.enc.phase.waiting = false) : s.cout.closed = false :=
  h.1 (by rw [Enc.busy, hb]; rfl)

theorem EncControl.outputOk (h : EncControl f s t) (hs : EncOutputOk s) : EncOutputOk t := by
  cases h with
  | stay hp _ hc => simpa only [EncOutputOk, Enc.busy, hp, hc] using hs
  | advance p q hpq hps hpt _ hc =>
    obtain ⟨-, hbp, hbq, h13, h14, h15, -⟩ := encAdvances_spec _ hpq
    exact encOutputOk_of_busy (hpt ▸ hbq) (hc.trans (hs.open_of_busy (hps ▸ hbp))) (hpt ▸ ⟨h13, h14, h15⟩)
  | raise hps hpt _ hc =>
    exact encOutputOk_of_busy (by rw [hpt]; rfl) (hc.trans (hs.open_of_busy (by rw [hps]; rfl))) (by rw [hpt]; decide)
  | close hps hpt _ hc =>
    refine ⟨fun hb => ?_, fun _ => hc, ?_⟩
    · rw [Enc.busy, hpt] at hb
      split at hb <;> cases hb
    · rw [hpt]
      split <;> decide
  | reset _ hpt _ hc =>
    refine ⟨fun hb => ?_, fun hd => ?_, by rw [hpt]; decide⟩
    · rw [Enc.busy, hpt] at hb
      cases hb
    · rw [hpt] at hd
      obtain hd | hd := hd <;> cases hd
  | start raw _ _ hpt _ hc => exact encOutputOk_of_busy (by rw [hpt]; rfl) hc (by rw [hpt]; decide)

/-- ENC's part of `State.ErrAgrees`. -/
def EncErrOk (s : State) : Prop :=
  (s.enc.err ≠ .none → s.enc.err = .encNoCode ∧ (s.enc.phase = .close ∨ s.enc.phase = .fault)) ∧
    (s.enc.phase = .fault → s.enc.err ≠ .none)

theorem encErrOk_of_none (he : t.enc.err = .none) (hp : t.enc.phase ≠ .fault) : EncErrOk t :=
  ⟨fun h => absurd he h, fun h => absurd h hp⟩

theorem EncPhase.ne_fault_of_busy {p : EncPhase} (h : p.waiting = false) : p ≠ .fault := fun hp => by
  rw [hp] at h
  cases h

/-- In a busy phase but `CLOSE` there is no error. -/
theorem EncErrOk.none_of_busy (h : EncErrOk s) (hb : s.enc.phase.waiting = false) (hc : s.enc.phase ≠ .close) :
    s.enc.err = .none := by
  by_contra herr
  exact (h.1 herr).2.elim hc (EncPhase.ne_fault_of_busy hb)

theorem EncControl.errOk (h : EncControl f s t) (hs : EncErrOk s) : EncErrOk t := by
  cases h with
  | stay hp he _ => simpa only [EncErrOk, hp, he] using hs
  | advance p q hpq hps hpt he _ =>
    obtain ⟨-, hbp, hbq, -, -, -, hne⟩ := encAdvances_spec _ hpq
    exact encErrOk_of_none (he.trans (hs.none_of_busy (hps ▸ hbp) (hps ▸ hne)))
      (hpt ▸ EncPhase.ne_fault_of_busy hbq)
  | raise hps hpt he _ => exact ⟨fun _ => ⟨he, .inl hpt⟩, fun hf => by rw [hpt] at hf; cases hf⟩
  | close hps hpt he _ =>
    by_cases herr : s.enc.err = .none
    · exact encErrOk_of_none (he.trans herr) (by rw [hpt, if_pos herr]; decide)
    · rw [if_neg herr] at hpt
      exact ⟨fun _ => ⟨he.trans (hs.1 herr).1, .inr hpt⟩, fun _ => he ▸ herr⟩
  | reset _ hpt he _ => exact encErrOk_of_none he (by rw [hpt]; decide)
  | start raw _ _ hpt he _ => exact encErrOk_of_none he (by rw [hpt]; decide)

/-- An error of ENC stays unless the step gives a command that clears it (R207). -/
theorem EncControl.err_final (h : EncControl f s t) (hs : EncErrOk s) (herr : s.enc.err ≠ .none) :
    t.enc.err = s.enc.err ∨ (t.enc.err = .none ∧ (f = some .reset ∨ ∃ raw, f = some (.encStart raw))) := by
  cases h with
  | stay _ he _ => exact .inl he
  | advance _ _ _ _ _ he _ => exact .inl he
  | raise _ _ he _ => exact .inl (he.trans (hs.1 herr).1.symm)
  | close _ _ he _ => exact .inl he
  | reset hf _ he _ => exact .inr ⟨he, .inl hf⟩
  | start raw hf _ _ he _ => exact .inr ⟨he, .inr ⟨raw, hf⟩⟩

end Enc

section Dec
variable {f : Option Instr} {s s' t : State}

/-- The moves of DEC's phase within a run that keep `err` and the output (R42). -/
def decAdvances : List (DecPhase × DecPhase) := [(.rdmagic, .rdhdr), (.rdhdr, .decode), (.decode, .close)]

/-- What a step that gives the command `f`, if any, does to DEC's `phase`, `err` and `closed`. -/
inductive DecControl (f : Option Instr) (s t : State) : Prop
  | stay (hp : t.dec.phase = s.dec.phase) (he : t.dec.err = s.dec.err) (hc : t.sout.closed = s.sout.closed)
  | advance (p q : DecPhase) (hpq : (p, q) ∈ decAdvances) (hs : s.dec.phase = p) (ht : t.dec.phase = q)
      (he : t.dec.err = s.dec.err) (hc : t.sout.closed = s.sout.closed)
  | raise (p : DecPhase) (hp : p ∈ [DecPhase.rdmagic, .rdhdr, .decode]) (hs : s.dec.phase = p)
      (ht : t.dec.phase = .close) (he : t.dec.err ≠ .none ∧ t.dec.err ≠ .encNoCode)
      (hc : t.sout.closed = s.sout.closed)
  | close (hs : s.dec.phase = .close) (ht : t.dec.phase = if s.dec.err = .none then .done else .fault)
      (he : t.dec.err = s.dec.err) (hc : t.sout.closed = true)
  | reset (hf : f = some .reset) (ht : t.dec.phase = .idle) (he : t.dec.err = .none)
      (hc : t.sout.closed = s.sout.closed)
  | start (comp : Bits) (hf : f = some (.decStart comp)) (hs : s.dec.phase.waiting = true)
      (ht : t.dec.phase = .rdmagic) (he : t.dec.err = .none) (hc : t.sout.closed = false)

/-- A record leaves the phase, or it was the header's last one (R182). -/
theorem addRecord_phase {r : Option Sym} {d d' : Dec} (h : d.addRecord r = .ok d') :
    d'.phase = d.phase ∨ d'.phase = .decode := by
  obtain ⟨d1, d2, d3, halloc, hhang, hawait, rfl⟩ := Dec.addRecord_eq_ok h
  obtain ⟨-, rfl⟩ := Dec.allocate_eq_ok halloc
  obtain ⟨hphase, -⟩ := hang_keeps hhang
  have hd3 : d3.phase = d.phase := by
    obtain ⟨-, rfl⟩ | ⟨-, -, rfl⟩ := Dec.await_eq_ok hawait <;> exact hphase
  rw [endOfHeader_phase, hd3]
  split
  · exact .inr rfl
  · exact .inl rfl

theorem takeRecord_control {r : Option Sym} {p : Cin} (hp : s.dec.phase = .rdhdr)
    (h : takeRecord r { s with cin := p } = .next t) : DecControl f s t := by
  obtain ⟨-, rfl⟩ | ⟨-, d, hadd, rfl⟩ := takeRecord_next h
  · exact .raise .rdhdr (by decide) hp rfl ⟨Err.noConfusion, Err.noConfusion⟩ rfl
  · obtain hphase | hphase := addRecord_phase hadd
    · exact .stay hphase (addRecord_keeps_err hadd) rfl
    · exact .advance .rdhdr .decode (by decide) hp hphase (addRecord_keeps_err hadd) rfl

theorem takeBit_control {b : Bool} {p : Cin} (hp : s.dec.phase = .decode)
    (h : takeBit b s { s with cin := p } = .next t) : DecControl f s t := by
  obtain ⟨n, c, m, -, -, -, hmove⟩ := takeBit_next h
  obtain ⟨l, r, -, rfl⟩ | ⟨-, rfl⟩ | ⟨v, -, -, ⟨-, rfl⟩ | ⟨q, hq, rfl⟩⟩ := hmove
  · exact .stay rfl rfl rfl
  · exact .advance .decode .close (by decide) hp rfl rfl rfl
  · exact .stay rfl rfl rfl
  · exact .stay rfl rfl (by rw [Sout.write_sent hq])

/-- DEC's operations, phase by phase. -/
theorem exec_decControl {i : Instr} (hi : decOperation s.dec.phase = some i) (h : exec i s = .next t) :
    DecControl f s t := by
  cases hp : s.dec.phase <;> rw [hp] at hi <;> cases hi
  case idle | done | fault => cases h; exact .stay rfl rfl rfl
  case rdmagic =>
    obtain rfl | rfl | ⟨-, m, h⟩ := execDecRdmagic_next h
    · exact .stay rfl rfl rfl
    · exact .raise .rdmagic (by decide) hp rfl ⟨Err.noConfusion, Err.noConfusion⟩ rfl
    · obtain ⟨-, rfl⟩ | ⟨-, rfl⟩ := takeMagic_next h
      · exact .advance .rdmagic .rdhdr (by decide) hp rfl rfl rfl
      · exact .raise .rdmagic (by decide) hp rfl ⟨Err.noConfusion, Err.noConfusion⟩ rfl
  case rdhdr =>
    obtain rfl | rfl | ⟨-, h⟩ | ⟨-, v, h⟩ := execDecRdhdr_next h
    · exact .stay rfl rfl rfl
    · exact .raise .rdhdr (by decide) hp rfl ⟨Err.noConfusion, Err.noConfusion⟩ rfl
    · exact takeRecord_control hp h
    · exact takeRecord_control hp h
  case decode =>
    obtain ⟨-, rfl⟩ | ⟨-, rfl | rfl | ⟨-, b, h⟩⟩ := execDecDecode_next h
    · exact .advance .decode .close (by decide) hp rfl rfl rfl
    · exact .stay rfl rfl rfl
    · exact .raise .decode (by decide) hp rfl ⟨Err.noConfusion, Err.noConfusion⟩ rfl
    · exact takeBit_control hp h
  case close =>
    obtain rfl | rfl := execDecClose_next h
    · exact .stay rfl rfl rfl
    · exact .close hp rfl rfl rfl

/-- What any step does to DEC's control. -/
theorem StepKind.decControl (h : StepKind s s' t) : DecControl (fetch s).instr s' t := by
  cases h with
  | encOp i hi h =>
    have hframe := exec_encFrame (unit_of_encOperation hi) h
    exact .stay (by rw [hframe.dec]) (by rw [hframe.dec]) (by rw [hframe.sout])
  | decOp i hi h => exact exec_decControl hi h
  | reset hf h => cases h; exact .reset hf rfl rfl rfl
  | encStart raw hf h =>
    have hframe := exec_encStart_frame h
    exact .stay (by rw [hframe.dec]) (by rw [hframe.dec]) (by rw [hframe.sout])
  | decStart comp hf h =>
    by_cases hw : s'.dec.phase.waiting = true
    · cases (exec_decStart_of_waiting comp hw).symm.trans h
      exact .start comp hf hw rfl rfl rfl
    · cases (exec_decStart_of_not_waiting comp hw).symm.trans h
      exact .stay rfl rfl rfl
  | event e h => subst h; exact .stay (by simp) (by simp) (by simp)

/-- The moves within a run are moves of the table between phases in which DEC is busy (R42). -/
theorem decAdvances_spec : ∀ m ∈ decAdvances,
    m.2 ∈ decMoves m.1 ∧ m.1.waiting = false ∧ m.2.waiting = false ∧ m.2 ≠ .reserved7 ∧ m.1 ≠ .close := by
  decide

/-- A phase in which DEC raises is busy, and `CLOSE` is a move from it (R42, R203). -/
theorem raisingPhases_spec : ∀ p ∈ [DecPhase.rdmagic, .rdhdr, .decode],
    DecPhase.close ∈ decMoves p ∧ p.waiting = false := by
  decide

theorem DecControl.phase_moves (h : DecControl f s t) :
    t.dec.phase = s.dec.phase ∨ t.dec.phase ∈ decMoves s.dec.phase := by
  cases h with
  | stay hp _ _ => exact .inl hp
  | advance p q hpq hs ht _ _ => exact .inr (hs ▸ ht ▸ (decAdvances_spec _ hpq).1)
  | raise p hp hs ht _ _ => exact .inr (hs ▸ ht ▸ (raisingPhases_spec p hp).1)
  | close hs ht _ _ => exact .inr (by rw [hs, ht]; split <;> decide)
  | reset _ ht _ _ => exact .inr (by rw [ht]; cases s.dec.phase <;> decide)
  | start comp _ hs ht _ _ =>
    refine .inr ?_
    rw [ht]
    obtain hp | hp | hp := (DecPhase.waiting_iff _).mp hs <;> rw [hp] <;> decide

/-- DEC's part of `State.OutputsAgree` and `State.PhasesLegal`. -/
def DecOutputOk (s : State) : Prop :=
  (s.dec.busy = true → s.sout.closed = false) ∧
    (s.dec.phase = .done ∨ s.dec.phase = .fault → s.sout.closed = true) ∧ s.dec.phase ≠ .reserved7

theorem decOutputOk_of_busy (hb : t.dec.phase.waiting = false) (hc : t.sout.closed = false)
    (hlegal : t.dec.phase ≠ .reserved7) : DecOutputOk t := by
  refine ⟨fun _ => hc, fun h => ?_, hlegal⟩
  obtain h | h := h <;> rw [h] at hb <;> cases hb

theorem DecOutputOk.open_of_busy (h : DecOutputOk s) (hb : s.dec.phase.waiting = false) : s.sout.closed = false :=
  h.1 (by rw [Dec.busy, hb]; rfl)

theorem DecControl.outputOk (h : DecControl f s t) (hs : DecOutputOk s) : DecOutputOk t := by
  cases h with
  | stay hp _ hc => simpa only [DecOutputOk, Dec.busy, hp, hc] using hs
  | advance p q hpq hps hpt _ hc =>
    obtain ⟨-, hbp, hbq, hlegal, -⟩ := decAdvances_spec _ hpq
    exact decOutputOk_of_busy (hpt ▸ hbq) (hc.trans (hs.open_of_busy (hps ▸ hbp))) (hpt ▸ hlegal)
  | raise p hp hps hpt _ hc =>
    have hb := (raisingPhases_spec p hp).2
    exact decOutputOk_of_busy (by rw [hpt]; rfl) (hc.trans (hs.open_of_busy (hps ▸ hb))) (by rw [hpt]; decide)
  | close hps hpt _ hc =>
    refine ⟨fun hb => ?_, fun _ => hc, ?_⟩
    · rw [Dec.busy, hpt] at hb
      split at hb <;> cases hb
    · rw [hpt]
      split <;> decide
  | reset _ hpt _ hc =>
    refine ⟨fun hb => ?_, fun hd => ?_, by rw [hpt]; decide⟩
    · rw [Dec.busy, hpt] at hb
      cases hb
    · rw [hpt] at hd
      obtain hd | hd := hd <;> cases hd
  | start comp _ _ hpt _ hc => exact decOutputOk_of_busy (by rw [hpt]; rfl) hc (by rw [hpt]; decide)

/-- DEC's part of `State.ErrAgrees`. -/
def DecErrOk (s : State) : Prop :=
  (s.dec.err ≠ .none → s.dec.err ≠ .encNoCode ∧ (s.dec.phase = .close ∨ s.dec.phase = .fault)) ∧
    (s.dec.phase = .fault → s.dec.err ≠ .none)

theorem DecPhase.ne_fault_of_busy {p : DecPhase} (h : p.waiting = false) : p ≠ .fault := fun hp => by
  rw [hp] at h
  cases h

/-- In a busy phase but `CLOSE` there is no error. -/
theorem DecErrOk.none_of_busy (h : DecErrOk s) (hb : s.dec.phase.waiting = false) (hc : s.dec.phase ≠ .close) :
    s.dec.err = .none := by
  by_contra herr
  exact (h.1 herr).2.elim hc (DecPhase.ne_fault_of_busy hb)

theorem decErrOk_of_none (he : t.dec.err = .none) (hp : t.dec.phase ≠ .fault) : DecErrOk t :=
  ⟨fun h => absurd he h, fun h => absurd h hp⟩

theorem DecControl.errOk (h : DecControl f s t) (hs : DecErrOk s) : DecErrOk t := by
  cases h with
  | stay hp he _ => simpa only [DecErrOk, hp, he] using hs
  | advance p q hpq hps hpt he _ =>
    obtain ⟨-, hbp, hbq, -, hne⟩ := decAdvances_spec _ hpq
    exact decErrOk_of_none (he.trans (hs.none_of_busy (hps ▸ hbp) (hps ▸ hne))) (hpt ▸ DecPhase.ne_fault_of_busy hbq)
  | raise p hp hps hpt he _ => exact ⟨fun _ => ⟨he.2, .inl hpt⟩, fun _ => he.1⟩
  | close hps hpt he _ =>
    by_cases herr : s.dec.err = .none
    · exact decErrOk_of_none (he.trans herr) (by rw [hpt, if_pos herr]; decide)
    · rw [if_neg herr] at hpt
      exact ⟨fun _ => ⟨he ▸ (hs.1 herr).1, .inr hpt⟩, fun _ => he ▸ herr⟩
  | reset _ hpt he _ => exact decErrOk_of_none he (by rw [hpt]; decide)
  | start comp _ _ hpt he _ => exact decErrOk_of_none he (by rw [hpt]; decide)

/-- An error of DEC stays unless the step gives a command that clears it (R207): no phase that raises holds one. -/
theorem DecControl.err_final (h : DecControl f s t) (hs : DecErrOk s) (herr : s.dec.err ≠ .none) :
    t.dec.err = s.dec.err ∨ (t.dec.err = .none ∧ (f = some .reset ∨ ∃ comp, f = some (.decStart comp))) := by
  cases h with
  | stay _ he _ => exact .inl he
  | advance _ _ _ _ _ he _ => exact .inl he
  | raise p hp hps _ _ _ =>
    have hb := (raisingPhases_spec p hp).2
    refine absurd (hs.none_of_busy (hps ▸ hb) fun hc => ?_) herr
    rw [← hps, hc] at hp
    exact absurd hp (by decide)
  | close _ _ he _ => exact .inl he
  | reset hf _ he _ => exact .inr ⟨he, .inl hf⟩
  | start comp hf _ _ he _ => exact .inr ⟨he, .inr ⟨comp, hf⟩⟩

end Dec

theorem errAgrees_iff (s : State) : s.ErrAgrees ↔ EncErrOk s ∧ DecErrOk s := by
  simp only [State.ErrAgrees, EncErrOk, DecErrOk, and_assoc]

theorem outputsOk_iff (s : State) : s.OutputsAgree ∧ s.PhasesLegal ↔ EncOutputOk s ∧ DecOutputOk s := by
  simp only [State.OutputsAgree, State.PhasesLegal, EncOutputOk, DecOutputOk]
  tauto

/-- Settles O41: every move of a phase that a step makes stands in its table. -/
theorem phasesMoveOnlyByTheTables : Obligations.PhasesMoveOnlyByTheTables := by
  intro s t h
  obtain ⟨a, r, hkind⟩ := exists_stepKind h
  exact ⟨hkind.cfg, hkind.encControl.phase_moves, hkind.decControl.phase_moves⟩

/-- Settles O43: an operation that raises is selected by a phase in which its unit holds no error. -/
theorem errorsStayFinal : Obligations.ErrorsStayFinal := by
  intro s t hs h
  obtain ⟨henc, hdec⟩ := (errAgrees_iff s).mp hs
  obtain ⟨a, r, hkind⟩ := exists_stepKind h
  exact ⟨(errAgrees_iff t).mpr ⟨hkind.encControl.errOk henc, hkind.decControl.errOk hdec⟩,
    hkind.encControl.err_final henc, hkind.decControl.err_final hdec⟩

/-- Settles O44: only a close ends the busy phases, and it closes the output. -/
theorem outputsCloseExactlyAtTheEnd : Obligations.OutputsCloseExactlyAtTheEnd := by
  intro s t hs hlegal h
  obtain ⟨henc, hdec⟩ := (outputsOk_iff s).mp ⟨hs, hlegal⟩
  obtain ⟨a, r, hkind⟩ := exists_stepKind h
  exact (outputsOk_iff t).mpr ⟨hkind.encControl.outputOk henc, hkind.decControl.outputOk hdec⟩

end Sys2Proof.Machine
end

section
/-! PROOFS. Every register keeps its width and each stream position stays in its stream (R22 to R38, R46, R48): the same
walk through the operations for each unit. -/

namespace Sys2Proof.Machine

section Entries
variable {α : Type} {n : Nat} {P : α → Prop} {v : Vector α n} {x : α}

/-- Every entry of the vector has the property. -/
def AllEntries (P : α → Prop) (v : Vector α n) : Prop := ∀ i : Fin n, P v[i]

theorem AllEntries.getElem? (h : AllEntries P v) {k : Nat} (hk : v[k]? = some x) : P x := by
  obtain ⟨hlt, rfl⟩ := Vector.getElem?_eq_some_iff.mp hk
  exact h ⟨k, hlt⟩

theorem AllEntries.setIfInBounds (h : AllEntries P v) (k : Nat) (hx : P x) : AllEntries P (v.setIfInBounds k x) := by
  intro i
  simp only [Fin.getElem_fin, Vector.getElem_setIfInBounds]
  split
  · exact hx
  · exact h i

theorem AllEntries.set (h : AllEntries P v) (k : Nat) (hk : k < n) (hx : P x) : AllEntries P (v.set k x) := by
  intro i
  simp only [Fin.getElem_fin, Vector.getElem_set]
  split
  · exact hx
  · exact h i

theorem allEntries_replicate (hx : P x) : AllEntries P (Vector.replicate n x) := fun _ => by
  rw [Fin.getElem_fin, Vector.getElem_replicate]
  exact hx

theorem allEntries_ofFn {f : Fin n → α} (h : ∀ i, P (f i)) : AllEntries P (Vector.ofFn f) := fun i => by
  rw [Fin.getElem_fin, Vector.getElem_ofFn]
  exact h i

end Entries

section EncFits
variable {c : Config} {e : Enc} {s s' t : State}

/-- ENC's part of `State.Fits`. -/
def EncFits (s : State) : Prop := Enc.Fits s.cfg s.enc ∧ s.rin.pos ≤ s.rin.data.length

theorem satInc_lt {w v : Nat} (h : v < 2 ^ w) : satInc w v < 2 ^ w := by
  unfold satInc
  split <;> omega

theorem Node.fits_leafNode {cnt : Vector Nat nsym} {i : Fin nsym} (h : cnt[i] < 2 ^ c.cntW) :
    Node.Fits c (leafNode cnt i) :=
  ⟨h.trans_le (Nat.pow_le_pow_right (by decide) (Nat.le_add_right _ 9)), trivial⟩

theorem plantAll_fits {f : LeafFill} {xs : List Node} (hf : AllEntries (Node.Fits c) f.node)
    (hxs : ∀ x ∈ xs, Node.Fits c x) : AllEntries (Node.Fits c) (f.plantAll xs).node := by
  induction xs generalizing f with
  | nil => exact hf
  | cons x xs ih =>
    exact ih (f := f.plant x) (hf.setIfInBounds f.nn (hxs x (List.mem_cons_self ..)))
      fun y hy => hxs y (List.mem_cons_of_mem _ hy)

/-- The queue's minimum, or the free index of an empty queue, is an index of the store (R141). -/
theorem pickMin_lt (node : Vector Node encNodeCap) (inq : Vector Bool encNodeCap) (draws : Nat) :
    (pickMin node inq draws).1 < encNodeCap := by
  by_cases hq : queueOf inq = []
  · rw [pickMin, hq]
    exact Nat.mod_lt _ (by decide)
  · obtain ⟨a, hargmin, hmem, -⟩ := argmin_spec (weightAt node) (queueOf inq) hq
    rw [pickMin_of_argmin draws hargmin]
    obtain ⟨hlt, -⟩ := Vector.getElem?_eq_some_iff.mp (mem_queueOf.mp hmem)
    exact hlt

theorem encNodeCap_lt : encNodeCap < 2 ^ 10 := by decide

theorem execEncQinit_fits (h : Enc.Fits c e) :
    Enc.Fits c { e with node := (insertLeaves e).node, inq := (insertLeaves e).inq, nn := (insertLeaves e).nn
                        qsize := (insertLeaves e).nn, phase := .merge } := by
  obtain ⟨hcnt, hnode, hnn, hqsize, hroot, hlen, hstk, hsp⟩ := h
  have hleaves : (insertLeaves e).nn < 2 ^ 10 := by
    rw [insertLeaves_nn]
    exact length_presentSymbols_le.trans_lt (by decide)
  refine ⟨hcnt, ?_, hleaves, hleaves, hroot, hlen, hstk, hsp⟩
  show AllEntries (Node.Fits c) (insertLeaves e).node
  rw [insertLeaves_eq_plantAll]
  refine plantAll_fits hnode fun x hx => ?_
  obtain ⟨i, -, rfl⟩ := List.mem_map.mp hx
  exact Node.fits_leafNode (hcnt i)

theorem mergeTwo_fits (hs : Enc.Fits s.cfg s.enc) (h : mergeTwo s = .next t) : Enc.Fits s.cfg t.enc := by
  obtain ⟨hcnt, hnode, hnn, hqsize, hroot, hlen, hstk, hsp⟩ := hs
  unfold mergeTwo at h
  dsimp only at h
  split at h
  · rename_i hroom
    cases h
    have hcap := encNodeCap_lt
    refine ⟨hcnt, AllEntries.setIfInBounds hnode _ ?_, ?_, ?_, hroot, hlen, hstk, hsp⟩
    · exact ⟨Nat.mod_lt _ (Nat.two_pow_pos _), (pickMin_lt ..).trans hcap, (pickMin_lt ..).trans hcap⟩
    · simp only; omega
    · simp only; omega
  · cases h

/-- A stack entry fits its fields' widths (R34). -/
def StkEntry.Fits (x : StkEntry) : Prop := x.node < 2 ^ 10 ∧ x.len < 2 ^ 9

theorem StkEntry.fits_below (x : StkEntry) (b : Bool) {i : Nat} (hi : i < 2 ^ 10) : (x.below b i).Fits :=
  ⟨hi, Nat.mod_lt _ (by decide)⟩

theorem withNode_fits {stk : Vector StkEntry encStkCap} (h : AllEntries StkEntry.Fits stk) (k : Nat) {i : Nat}
    (hi : i < 2 ^ 10) : AllEntries StkEntry.Fits (withNode stk k i) := by
  unfold withNode
  split
  · rename_i x hx
    exact h.setIfInBounds k ⟨hi, (h.getElem? hx).2⟩
  · exact h

theorem finishTree_fits (hs : Enc.Fits s.cfg s.enc) (h : finishTree s = .next t) : Enc.Fits s.cfg t.enc := by
  obtain ⟨hcnt, hnode, hnn, hqsize, hroot, hlen, hstk, hsp⟩ := hs
  cases h
  have hr : (pickMin s.enc.node s.enc.inq s.draws).1 < 2 ^ 10 := (pickMin_lt ..).trans encNodeCap_lt
  have hentry : StkEntry.Fits { node := (pickMin s.enc.node s.enc.inq s.draws).1, len := 0, bits := 0#256 } :=
    ⟨hr, Nat.two_pow_pos 9⟩
  exact ⟨hcnt, hnode, hnn, hqsize, hr, hlen, AllEntries.setIfInBounds (P := StkEntry.Fits) hstk 0 hentry,
    Nat.one_lt_two_pow (by decide)⟩

theorem Enc.Fits.endOfWalk (h : Enc.Fits c e) (p : EncPhase) : Enc.Fits c (e.endOfWalk p) := by
  unfold Enc.endOfWalk
  split
  · exact h
  · exact h

theorem execEncGen_fits (hs : Enc.Fits s.cfg s.enc) (h : execEncGen s = .next t) : Enc.Fits s.cfg t.enc := by
  obtain ⟨hcnt, hnode, hnn, hqsize, hroot, hlen, hstk, hsp⟩ := hs
  obtain ⟨x, n, h1, hx, hn, ⟨v, hv, -, rfl⟩ | ⟨l, r, hkind, hroom, rfl⟩⟩ := execEncGen_next h
  · have hfits : StkEntry.Fits x := AllEntries.getElem? (P := StkEntry.Fits) hstk hx
    have hrecord : Enc.Fits s.cfg (Enc.recordCode ⟨v.toNat, hv⟩ x { s.enc with sp := s.enc.sp - 1 }) :=
      ⟨hcnt, hnode, hnn, hqsize, hroot, AllEntries.set (P := (· < 2 ^ 9)) hlen _ hv hfits.2, hstk,
        (Nat.sub_le _ 1).trans_lt hsp⟩
    exact hrecord.endOfWalk _
  · have hchildren := (AllEntries.getElem? (P := Node.Fits s.cfg) hnode hn).2
    rw [hkind] at hchildren
    refine ⟨hcnt, hnode, hnn, hqsize, hroot, hlen, ?_, ?_⟩
    · exact AllEntries.setIfInBounds (P := StkEntry.Fits)
        (AllEntries.setIfInBounds (P := StkEntry.Fits) hstk _ (x.fits_below true hchildren.2)) _
        (x.fits_below false hchildren.1)
    · simp only [encStkCap] at hroom ⊢
      omega

theorem execEncWrhdr_fits (hs : Enc.Fits s.cfg s.enc) (h : execEncWrhdr s = .next t) : Enc.Fits s.cfg t.enc := by
  obtain ⟨hcnt, hnode, hnn, hqsize, hroot, hlen, hstk, hsp⟩ := hs
  obtain ⟨x, n, h1, hx, hn, rfl | ⟨v, -, rfl⟩ | ⟨l, r, hkind, hroom, rfl⟩⟩ := execEncWrhdr_next h
  · exact ⟨hcnt, hnode, hnn, hqsize, hroot, hlen, hstk, hsp⟩
  · have hpop : Enc.Fits s.cfg { s.enc with sp := s.enc.sp - 1 } :=
      ⟨hcnt, hnode, hnn, hqsize, hroot, hlen, hstk, (Nat.sub_le _ 1).trans_lt hsp⟩
    exact hpop.endOfWalk _
  · have hchildren := (AllEntries.getElem? (P := Node.Fits s.cfg) hnode hn).2
    rw [hkind] at hchildren
    refine ⟨hcnt, hnode, hnn, hqsize, hroot, hlen, withNode_fits (withNode_fits hstk _ hchildren.2) _ hchildren.1, ?_⟩
    simp only [encStkCap] at hroom ⊢
    omega

theorem execEncCount_fits (hcfg : 1 ≤ s.cfg.cntW) (hs : EncFits s) (h : execEncCount s = .next t) :
    Enc.Fits s.cfg t.enc := by
  obtain ⟨⟨hcnt, hrest⟩, hpos⟩ := hs
  obtain rfl | ⟨-, rfl⟩ | ⟨r, hr, rfl⟩ := execEncCount_next h
  · exact ⟨hcnt, hrest⟩
  · exact ⟨AllEntries.set (P := (· < 2 ^ s.cfg.cntW)) hcnt _ eofIndex.isLt (Nat.one_lt_two_pow (by omega)), hrest⟩
  · exact ⟨AllEntries.set (P := (· < 2 ^ s.cfg.cntW)) hcnt _ (byteIndex r).isLt (satInc_lt (hcnt _)), hrest⟩

theorem rin_pos_succ_le {p : Rin} {r : Byte} (h : p.data[p.pos]? = some r) : p.pos + 1 ≤ p.data.length := by
  obtain ⟨hlt, -⟩ := List.getElem?_eq_some_iff.mp h
  exact hlt

/-- ENC's operations, phase by phase. -/
theorem exec_encFits {i : Instr} (hi : encOperation s.enc.phase = some i) (hcfg : 1 ≤ s.cfg.cntW) (hs : EncFits s)
    (h : exec i s = .next t) : EncFits t := by
  have hkeep : t.cfg = s.cfg := (exec_encFrame (unit_of_encOperation hi) h).cfg
  obtain ⟨henc, hpos⟩ := hs
  rw [EncFits, hkeep]
  cases hp : s.enc.phase <;> rw [hp] at hi <;> cases hi
  case idle | done | fault => cases h; exact ⟨henc, hpos⟩
  case count =>
    refine ⟨execEncCount_fits hcfg ⟨henc, hpos⟩ h, ?_⟩
    obtain rfl | ⟨-, rfl⟩ | ⟨r, hr, rfl⟩ := execEncCount_next h
    · exact hpos
    · exact hpos
    · exact rin_pos_succ_le hr
  case qinit => cases h; exact ⟨execEncQinit_fits henc, hpos⟩
  case merge =>
    obtain ⟨-, hn, h⟩ | ⟨-, h⟩ := execEncMerge_next h
    · refine ⟨mergeTwo_fits henc h, ?_⟩
      simp only [mergeTwo, if_pos hn] at h
      cases h
      exact hpos
    · refine ⟨finishTree_fits henc h, ?_⟩
      cases h
      exact hpos
  case gen =>
    refine ⟨execEncGen_fits henc h, ?_⟩
    obtain ⟨x, n, -, -, -, ⟨v, hv, -, rfl⟩ | ⟨l, r, -, -, rfl⟩⟩ := execEncGen_next h <;> exact hpos
  case wrmagic =>
    obtain rfl | rfl := execEncWrmagic_next h
    · exact ⟨henc, hpos⟩
    · obtain ⟨hcnt, hnode, hnn, hqsize, hroot, hlen, hstk, hsp⟩ := henc
      exact ⟨⟨hcnt, hnode, hnn, hqsize, hroot, hlen, withNode_fits hstk 0 hroot,
        Nat.one_lt_two_pow (by decide)⟩, hpos⟩
  case wrhdr =>
    refine ⟨execEncWrhdr_fits henc h, ?_⟩
    obtain ⟨x, n, -, -, -, rfl | ⟨v, -, rfl⟩ | ⟨l, r, -, -, rfl⟩⟩ := execEncWrhdr_next h <;> exact hpos
  case rewind => cases h; exact ⟨henc, Nat.zero_le _⟩
  case encode =>
    obtain rfl | ⟨-, rfl⟩ | ⟨r, hr, -, rfl⟩ | ⟨r, hr, -, rfl⟩ := execEncEncode_next h
    · exact ⟨henc, hpos⟩
    · exact ⟨henc, hpos⟩
    · exact ⟨henc, rin_pos_succ_le hr⟩
    · exact ⟨henc, rin_pos_succ_le hr⟩
  case wreof => obtain rfl | rfl := execEncWreof_next h <;> exact ⟨henc, hpos⟩
  case close => obtain rfl | rfl := execEncClose_next h <;> exact ⟨henc, hpos⟩

/-- The values that RESET leaves free have the width of their register (R49). -/
theorem freeBits_lt (draw reg idx w : Nat) : freeBits draw reg idx w < 2 ^ w := Nat.mod_lt _ (Nat.two_pow_pos w)

theorem freeNode_fits (c : Config) (draw idx : Nat) : Node.Fits c (freeNode c draw idx) := by
  refine ⟨freeBits_lt .., ?_⟩
  unfold freeNode
  cases freeBit draw 3 idx
  · exact ⟨freeBits_lt .., freeBits_lt ..⟩
  · trivial

theorem Enc.afterReset_fits (c : Config) (draw : Nat) : Enc.Fits c (Enc.afterReset c draw) :=
  ⟨allEntries_ofFn (P := (· < 2 ^ c.cntW)) fun _ => freeBits_lt ..,
    allEntries_ofFn (P := Node.Fits c) fun _ => freeNode_fits ..,
    freeBits_lt .., freeBits_lt .., freeBits_lt ..,
    allEntries_ofFn (P := (· < 2 ^ 9)) fun _ => freeBits_lt ..,
    allEntries_ofFn (P := StkEntry.Fits) fun _ => ⟨freeBits_lt .., freeBits_lt ..⟩,
    freeBits_lt ..⟩

theorem Enc.reset_fits (c : Config) : Enc.Fits c Enc.reset :=
  ⟨allEntries_replicate (P := (· < 2 ^ c.cntW)) (Nat.two_pow_pos _),
    allEntries_replicate (P := Node.Fits c) ⟨Nat.two_pow_pos _, Nat.two_pow_pos 10, Nat.two_pow_pos 10⟩,
    by decide, by decide, by decide, allEntries_replicate (P := (· < 2 ^ 9)) (by decide),
    allEntries_replicate (P := StkEntry.Fits) ⟨by decide, by decide⟩, by decide⟩

theorem exec_encStart_fits {raw : List Byte} (hs : EncFits s) (h : exec (.encStart raw) s = .next t) : EncFits t := by
  by_cases hw : s.enc.phase.waiting = true
  · cases (exec_encStart_of_waiting raw hw).symm.trans h
    obtain ⟨⟨-, hrest⟩, -⟩ := hs
    exact ⟨⟨allEntries_replicate (P := (· < 2 ^ s.cfg.cntW)) (Nat.two_pow_pos _), hrest⟩, Nat.zero_le _⟩
  · cases (exec_encStart_of_not_waiting raw hw).symm.trans h
    exact hs

/-- No event moves a position out of its stream: a cut ends the stream at the position (R210). -/
theorem applyEvent_encFits (e : HostEvent) (hs : EncFits s) : EncFits (applyEvent e s) := by
  obtain ⟨henc, hpos⟩ := hs
  refine ⟨by rwa [applyEvent_cfg, applyEvent_enc], ?_⟩
  cases e with
  | cutRaw => exact (List.length_take_of_le hpos).ge
  | _ => exact hpos

/-- A step that leaves ENC's registers and input alone keeps their widths. -/
theorem EncFits.of_decFrame (hs : EncFits s) (h : DecFrame s t) : EncFits t := by
  rw [EncFits, h.cfg, h.enc, h.rin]
  exact hs

theorem StepKind.encFits (h : StepKind s s' t) (hcfg : 1 ≤ s'.cfg.cntW) (hs : EncFits s') : EncFits t := by
  cases h with
  | encOp i hi h => exact exec_encFits hi hcfg hs h
  | decOp i hi h => exact hs.of_decFrame (exec_decFrame (unit_of_decOperation hi) h)
  | reset hf h => cases h; exact ⟨Enc.afterReset_fits .., hs.2⟩
  | encStart raw hf h => exact exec_encStart_fits hs h
  | decStart comp hf h => exact hs.of_decFrame (exec_decStart_frame h)
  | event e h => exact h ▸ applyEvent_encFits e hs

end EncFits

section DecFits
variable {c : Config} {d d' : Dec} {n : DNode} {i : Nat} {r : Option Sym} {s s' t : State}

/-- DEC's part of `State.Fits`. -/
def DecFits (s : State) : Prop := Dec.Fits s.cfg s.dec ∧ s.cin.pos ≤ s.cin.data.length

theorem DNode.fits_ofRecord (r : Option Sym) : DNode.Fits (DNode.ofRecord r) := by
  intro b j hj
  cases r with
  | some v => cases hj
  | none => cases b <;> cases hj

theorem DNode.Fits.withLeft (h : n.Fits) (hi : i < 2 ^ 10) : (n.withLeft i).Fits := by
  intro b j hj
  cases n with
  | leaf v => cases hj
  | internal l r =>
    cases b with
    | false => cases hj; exact hi
    | true => exact h true j hj

theorem DNode.Fits.withRight (h : n.Fits) (hi : i < 2 ^ 10) : (n.withRight i).Fits := by
  intro b j hj
  cases n with
  | leaf v => cases hj
  | internal l r =>
    cases b with
    | false => exact h false j hj
    | true => cases hj; exact hi

theorem forall_mem_set {α : Type} {P : α → Prop} {l : List α} {x : α} (h : ∀ y ∈ l, P y) (k : Nat) (hx : P x) :
    ∀ y ∈ l.set k x, P y := fun y hy => by
  obtain hy | rfl := List.mem_or_eq_of_mem_set hy
  · exact h y hy
  · exact hx

theorem allocate_fits (hcap : c.decNodeCap ≤ 2 ^ 10) (h : Dec.Fits c d) (ha : d.allocate r = .ok d') :
    Dec.Fits c d' := by
  obtain ⟨hnodes, hentries, hnode, hstk, hdn, hroot, hcur, hsp⟩ := h
  obtain ⟨hlt, rfl⟩ := Dec.allocate_eq_ok ha
  refine ⟨(List.length_set ..).trans hnodes, hentries, forall_mem_set hnode _ (DNode.fits_ofRecord r), hstk, ?_, hroot,
    hcur, hsp⟩
  simp only
  omega

theorem hang_fits (hi : i < 2 ^ 10) (h : Dec.Fits c d) (hh : d.hang i = .ok d') : Dec.Fits c d' := by
  obtain ⟨hnodes, hentries, hnode, hstk, hdn, hroot, hcur, hsp⟩ := h
  obtain ⟨-, rfl⟩ | ⟨e, n, -, he, hn, ⟨-, rfl⟩ | ⟨-, rfl⟩⟩ := Dec.hang_eq_ok hh
  · exact ⟨hnodes, hentries, hnode, hstk, hdn, hi, hcur, hsp⟩
  · have hparent := hnode n (List.mem_of_getElem? hn)
    exact ⟨(List.length_set ..).trans hnodes, hentries, forall_mem_set hnode _ (hparent.withRight hi), hstk, hdn, hroot,
      hcur, (Nat.sub_le _ 1).trans hsp⟩
  · have hparent := hnode n (List.mem_of_getElem? hn)
    exact ⟨(List.length_set ..).trans hnodes, (List.length_set ..).trans hentries,
      forall_mem_set hnode _ (hparent.withLeft hi), forall_mem_set hstk _ (hstk e (List.mem_of_getElem? he)), hdn,
      hroot, hcur, hsp⟩

theorem await_fits (hi : i < 2 ^ 10) (h : Dec.Fits c d) (hw : d.await r i = .ok d') : Dec.Fits c d' := by
  obtain ⟨hnodes, hentries, hnode, hstk, hdn, hroot, hcur, hsp⟩ := h
  obtain ⟨-, rfl⟩ | ⟨-, hlt, rfl⟩ := Dec.await_eq_ok hw
  · exact ⟨hnodes, hentries, hnode, hstk, hdn, hroot, hcur, hsp⟩
  · exact ⟨hnodes, (List.length_set ..).trans hentries, hnode, forall_mem_set hstk _ hi, hdn, hroot, hcur, by
      simp only; omega⟩

theorem endOfHeader_fits (h : Dec.Fits c d) : Dec.Fits c d.endOfHeader := by
  obtain ⟨hnodes, hentries, hnode, hstk, hdn, hroot, hcur, hsp⟩ := h
  unfold Dec.endOfHeader
  split
  · exact ⟨hnodes, hentries, hnode, hstk, hdn, hroot, hroot, hsp⟩
  · exact ⟨hnodes, hentries, hnode, hstk, hdn, hroot, hcur, hsp⟩

/-- The record's index is below the capacity, so it fits the fields that take it (R182). -/
theorem addRecord_fits (hcap : c.decNodeCap ≤ 2 ^ 10) (h : Dec.Fits c d) (ha : d.addRecord r = .ok d') :
    Dec.Fits c d' := by
  obtain ⟨d1, d2, d3, halloc, hhang, hawait, rfl⟩ := Dec.addRecord_eq_ok ha
  obtain ⟨hlt, -⟩ := Dec.allocate_eq_ok halloc
  have hi : d.dn < 2 ^ 10 := hlt.trans_le (h.1.trans_le hcap)
  exact endOfHeader_fits (await_fits hi (hang_fits hi (allocate_fits hcap h halloc) hhang) hawait)

theorem takeRecord_fits (hcap : s.cfg.decNodeCap ≤ 2 ^ 10) (hs : DecFits s) {k : Nat}
    (hk : k ≤ s.cin.data.length - s.cin.pos)
    (h : takeRecord r { s with cin := { s.cin with pos := s.cin.pos + k } } = .next t) : DecFits t := by
  obtain ⟨hdec, hpos⟩ := hs
  have hread : s.cin.pos + k ≤ s.cin.data.length := by omega
  obtain ⟨-, rfl⟩ | ⟨-, d, hadd, rfl⟩ := takeRecord_next h
  · exact ⟨hdec, hread⟩
  · exact ⟨addRecord_fits hcap hdec hadd, hread⟩

theorem takeMagic_fits {m : MagicWord} (hs : DecFits s) (hk : 32 ≤ s.cin.data.length - s.cin.pos)
    (h : takeMagic m { s with cin := { s.cin with pos := s.cin.pos + 32 } } = .next t) : DecFits t := by
  obtain ⟨hdec, hpos⟩ := hs
  have hread : s.cin.pos + 32 ≤ s.cin.data.length := by omega
  obtain ⟨-, rfl⟩ | ⟨-, rfl⟩ := takeMagic_next h <;> exact ⟨hdec, hread⟩

/-- The walker goes to a child of an entry, or to the root (R190). -/
theorem takeBit_fits {b : Bool} (hs : DecFits s) (hk : 1 ≤ s.cin.data.length - s.cin.pos)
    (h : takeBit b s { s with cin := { s.cin with pos := s.cin.pos + 1 } } = .next t) : DecFits t := by
  obtain ⟨n, k, m, hn, hchild, -, hmove⟩ := takeBit_next h
  obtain ⟨⟨hnodes, hentries, hnode, hstk, hdn, hroot, hcur, hsp⟩, hpos⟩ := hs
  have hread : s.cin.pos + 1 ≤ s.cin.data.length := by omega
  have hk : k < 2 ^ 10 := hnode n (List.mem_of_getElem? hn) b k hchild
  obtain ⟨l, r, -, rfl⟩ | ⟨-, rfl⟩ | ⟨v, -, -, ⟨-, rfl⟩ | ⟨q, hq, rfl⟩⟩ := hmove
  · exact ⟨⟨hnodes, hentries, hnode, hstk, hdn, hroot, hk, hsp⟩, hread⟩
  · exact ⟨⟨hnodes, hentries, hnode, hstk, hdn, hroot, hk, hsp⟩, hread⟩
  · exact ⟨⟨hnodes, hentries, hnode, hstk, hdn, hroot, hcur, hsp⟩, hpos⟩
  · exact ⟨⟨hnodes, hentries, hnode, hstk, hdn, hroot, hroot, hsp⟩, hread⟩

/-- DEC's operations, phase by phase. -/
theorem exec_decFits {i : Instr} (hi : decOperation s.dec.phase = some i) (hcap : s.cfg.decNodeCap ≤ 2 ^ 10)
    (hs : DecFits s) (h : exec i s = .next t) : DecFits t := by
  cases hp : s.dec.phase <;> rw [hp] at hi <;> cases hi
  case idle | done | fault => cases h; exact hs
  case rdmagic =>
    obtain rfl | rfl | ⟨hk, m, h⟩ := execDecRdmagic_next h
    · exact hs
    · exact ⟨hs.1, le_rfl⟩
    · exact takeMagic_fits hs hk h
  case rdhdr =>
    obtain rfl | rfl | ⟨hk, h⟩ | ⟨hk, v, h⟩ := execDecRdhdr_next h
    · exact hs
    · exact ⟨hs.1, le_rfl⟩
    · exact takeRecord_fits hcap hs hk h
    · exact takeRecord_fits hcap hs hk h
  case decode =>
    obtain ⟨-, rfl⟩ | ⟨-, rfl | rfl | ⟨hk, b, h⟩⟩ := execDecDecode_next h
    · exact hs
    · exact hs
    · exact ⟨hs.1, le_rfl⟩
    · exact takeBit_fits hs hk h
  case close => obtain rfl | rfl := execDecClose_next h <;> exact hs

theorem freeDNode_fits (draw idx : Nat) : DNode.Fits (freeDNode draw idx) := by
  unfold freeDNode
  split
  · intro b j hj
    cases hj
  · intro b j hj
    cases b <;> cases hj <;> exact freeBits_lt ..

theorem Dec.afterReset_fits (c : Config) (draw : Nat) : Dec.Fits c (Dec.afterReset c draw) := by
  refine ⟨by simp [Dec.afterReset], by simp [Dec.afterReset], fun n hn => ?_, fun x hx => ?_, (freeBits_lt ..).le,
    freeBits_lt .., freeBits_lt .., Nat.le_of_lt_succ (Nat.mod_lt _ (Nat.succ_pos _))⟩
  · obtain ⟨i, -, rfl⟩ := List.mem_map.mp hn
    exact freeDNode_fits draw i
  · obtain ⟨i, -, rfl⟩ := List.mem_map.mp hx
    exact freeBits_lt ..

theorem Dec.reset_fits (c : Config) : Dec.Fits c (Dec.reset c.decNodeCap) := by
  refine ⟨List.length_replicate, List.length_replicate, fun n hn => ?_, fun x hx => ?_, Nat.zero_le _,
    Nat.two_pow_pos 10, Nat.two_pow_pos 10, Nat.zero_le _⟩
  · obtain rfl := List.eq_of_mem_replicate hn
    intro b j hj
    cases b <;> cases hj <;> exact Nat.two_pow_pos 10
  · obtain rfl := List.eq_of_mem_replicate hx
    exact Nat.two_pow_pos 10

theorem exec_decStart_fits {comp : Bits} (hs : DecFits s) (h : exec (.decStart comp) s = .next t) : DecFits t := by
  by_cases hw : s.dec.phase.waiting = true
  · cases (exec_decStart_of_waiting comp hw).symm.trans h
    obtain ⟨⟨hnodes, hentries, hnode, hstk, -, hroot, hcur, -⟩, -⟩ := hs
    exact ⟨⟨hnodes, hentries, hnode, hstk, Nat.zero_le _, hroot, hcur, Nat.zero_le _⟩, Nat.zero_le _⟩
  · cases (exec_decStart_of_not_waiting comp hw).symm.trans h
    exact hs

/-- No event moves a position out of its stream: a cut ends the stream at the position (R210). -/
theorem applyEvent_decFits (e : HostEvent) (hs : DecFits s) : DecFits (applyEvent e s) := by
  obtain ⟨hdec, hpos⟩ := hs
  refine ⟨by rwa [applyEvent_cfg, applyEvent_dec], ?_⟩
  cases e with
  | cutComp => exact (List.length_take_of_le hpos).ge
  | _ => exact hpos

/-- A step that leaves DEC's registers and input alone keeps their widths. -/
theorem DecFits.of_encFrame (hs : DecFits s) (h : EncFrame s t) : DecFits t := by
  rw [DecFits, h.cfg, h.dec, h.cin]
  exact hs

theorem StepKind.decFits (h : StepKind s s' t) (hcap : s'.cfg.decNodeCap ≤ 2 ^ 10) (hs : DecFits s') : DecFits t := by
  cases h with
  | encOp i hi h => exact hs.of_encFrame (exec_encFrame (unit_of_encOperation hi) h)
  | decOp i hi h => exact exec_decFits hi hcap hs h
  | reset hf h => cases h; exact ⟨Dec.afterReset_fits .., hs.2⟩
  | encStart raw hf h => exact hs.of_encFrame (exec_encStart_frame h)
  | decStart comp hf h => exact exec_decStart_fits hs h
  | event e h => exact h ▸ applyEvent_decFits e hs

end DecFits

theorem state_fits_iff (s : State) : s.Fits ↔ s.cfg.wf ∧ EncFits s ∧ DecFits s := by
  simp only [State.Fits, EncFits, DecFits]
  tauto

/-- Settles O45: the parameters stay, and each unit's registers keep their widths in every step there is. -/
theorem registersKeepTheirWidths : Obligations.RegistersKeepTheirWidths := by
  intro s t hs h
  obtain ⟨hwf, henc, hdec⟩ := (state_fits_iff s).mp hs
  obtain ⟨a, r, hkind⟩ := exists_stepKind h
  have hcfg : t.cfg = s.cfg := hkind.cfg
  have ⟨hcnt, _, hcap⟩ := hwf
  exact (state_fits_iff t).mpr ⟨hcfg ▸ hwf, hkind.encFits hcnt henc, hkind.decFits hcap hdec⟩

end Sys2Proof.Machine
end

section
/-! PROOFS. Handshakes and closed ports (R21, R243, U25): what a port answers that the host does not serve, or that is
closed, decides what the operation does: nothing, or a refusal. -/

namespace Sys2Proof.Machine

section EncHeld
variable {s : State} {r : Byte} {x : StkEntry} {n : Node}

theorem exec_encCount_of_wait (h : s.rin.valid = false) : exec .encCount s = .next s := by
  show execEncCount s = _
  rw [execEncCount, Rin.read_wait h]

theorem exec_encEncode_of_wait (h : s.rin.valid = false) : exec .encEncode s = .next s := by
  show execEncEncode s = _
  rw [execEncEncode, Rin.read_wait h]

/-- A code that the host does not take leaves the byte on the input as well (R243). -/
theorem exec_encEncode_of_held (hr : s.rin.data[s.rin.pos]? = some r) (hc : s.enc.codeValid[byteIndex r] = true)
    (hw : writeCode s.enc (byteIndex r) s.cout = .wait) : exec .encEncode s = .next s := by
  by_cases hv : s.rin.valid = true
  · show execEncEncode s = _
    simp only [execEncEncode, Rin.read_got hv hr, if_pos hc, hw]
  · exact exec_encEncode_of_wait (Bool.eq_false_iff.mpr hv)

theorem exec_encEncode_of_closed (hv : s.rin.valid = true) (hr : s.rin.data[s.rin.pos]? = some r)
    (hc : s.enc.codeValid[byteIndex r] = true) (hw : writeCode s.enc (byteIndex r) s.cout = .closed) :
    exec .encEncode s = .refused .portClosed := by
  show execEncEncode s = _
  simp only [execEncEncode, Rin.read_got hv hr, if_pos hc, hw]

theorem exec_encWreof_of_wait (hw : writeCode s.enc eofIndex s.cout = .wait) : exec .encWreof s = .next s := by
  show execEncWreof s = _
  rw [execEncWreof, hw]

theorem exec_encWreof_of_closed (hw : writeCode s.enc eofIndex s.cout = .closed) :
    exec .encWreof s = .refused .portClosed := by
  show execEncWreof s = _
  rw [execEncWreof, hw]

section NotReady
variable (h : s.cout.ready = false)
include h

theorem exec_encWrmagic_of_not_ready : exec .encWrmagic s = .next s := by
  show execEncWrmagic s = _
  rw [execEncWrmagic, Cout.write_wait (by decide) h]

theorem exec_encClose_of_not_ready : exec .encClose s = .next s := by
  show execEncClose s = _
  rw [execEncClose, Cout.close_wait h]

/-- The first bit of the record waits, whichever record it is. -/
theorem exec_encWrhdr_of_not_ready (hx : s.enc.top = some x) (hn : s.enc.node[x.node]? = some n) :
    exec .encWrhdr s = .next s := by
  show execEncWrhdr s = _
  have hleaf : ∀ v, writeLeafRecord v s.cout = .wait := fun v => by
    rw [writeLeafRecord, Cout.write_wait (by decide) h]
  simp only [execEncWrhdr, Enc.pop_some hx, hn, hleaf, Cout.write_wait (n := 1) (v := 0) (by decide) h]
  cases n.kind <;> rfl

end NotReady

section Closed
variable (hr : s.cout.ready = true) (hc : s.cout.closed = true)
include hr hc

theorem exec_encWrmagic_of_closed : exec .encWrmagic s = .refused .portClosed := by
  show execEncWrmagic s = _
  rw [execEncWrmagic, Cout.write_closed (by decide) hr hc]

theorem exec_encClose_of_closed : exec .encClose s = .refused .portClosed := by
  show execEncClose s = _
  rw [execEncClose, Cout.close_closed hr hc]

/-- The first bit of the record meets the closed port, whichever record it is. -/
theorem exec_encWrhdr_of_closed (hx : s.enc.top = some x) (hn : s.enc.node[x.node]? = some n) :
    exec .encWrhdr s = .refused .portClosed := by
  show execEncWrhdr s = _
  have hleaf : ∀ v, writeLeafRecord v s.cout = .closed := fun v => by
    rw [writeLeafRecord, Cout.write_closed (by decide) hr hc]
  simp only [execEncWrhdr, Enc.pop_some hx, hn, hleaf, Cout.write_closed (n := 1) (v := 0) (by decide) hr hc]
  cases n.kind <;> rfl

end Closed
end EncHeld

section DecHeld
variable {s : State} {b : Bool} {n : DNode} {c : Nat} {v : Sym} {i : Instr}

theorem exec_decRdmagic_of_wait (h : s.cin.valid = false) : exec .decRdmagic s = .next s := by
  show execDecRdmagic s = _
  rw [execDecRdmagic, Cin.read_wait h]

theorem exec_decRdhdr_of_wait (h : s.cin.valid = false) : exec .decRdhdr s = .next s := by
  show execDecRdhdr s = _
  rw [execDecRdhdr, Cin.read_wait h]

theorem exec_decDecode_of_wait (h : s.cin.valid = false) (hroot : s.dec.rootIsLeaf = some false) :
    exec .decDecode s = .next s := by
  show execDecDecode s = _
  simp only [execDecDecode, hroot, Cin.read_wait h]

theorem exec_decClose_of_not_ready (h : s.sout.ready = false) : exec .decClose s = .next s := by
  show execDecClose s = _
  rw [execDecClose, Sout.close_wait h]

theorem exec_decClose_of_closed (hr : s.sout.ready = true) (hc : s.sout.closed = true) :
    exec .decClose s = .refused .portClosed := by
  show execDecClose s = _
  rw [execDecClose, Sout.close_closed hr hc]

theorem Sout.write_closed {p : Sout} (hr : p.ready = true) (hc : p.closed = true) : p.write v = .closed := by
  simp only [Sout.write, hr, hc, if_true]

section Literal
variable {held : State} (hcur : s.dec.dnode[s.dec.cur]? = some n) (hchild : n.child b = some c)
  (hleaf : s.dec.dnode[c]? = some (.leaf v)) (hv : v ≠ pseudoEof)
include hcur hchild hleaf hv

theorem takeBit_literal_wait (hw : s.sout.write v = .wait) : takeBit b held s = .next held := by
  simp only [takeBit, hcur, hchild, hleaf, if_neg hv, hw]

theorem takeBit_literal_closed (hw : s.sout.write v = .closed) : takeBit b held s = .refused .portClosed := by
  simp only [takeBit, hcur, hchild, hleaf, if_neg hv, hw]

theorem takeBit_literal_sent {p : Sout} (hw : s.sout.write v = .sent p) :
    takeBit b held s = .next { s with dec := { s.dec with cur := s.dec.droot }, sout := p } := by
  simp only [takeBit, hcur, hchild, hleaf, if_neg hv, hw]

end Literal

theorem takeBits_of_not_presented {code : Bits} (h : s.cin.valid = false) : takeBits code s = .next s := by
  cases code with
  | nil => rfl
  | cons b bs => rw [takeBits, if_neg fun hp => by rw [h] at hp; cases hp.2]

theorem takeBody_of_root {code : Bits} (hp : s.dec.phase = .decode) (hroot : s.dec.rootIsLeaf = some false) :
    takeBody code s = takeBits code s := by
  simp only [takeBody, if_pos hp, hroot]

/-- A bit that stops the machine stops it in DEC.DECODE and as the first of a body item alike (R190). -/
theorem WalksBit.exec_stops (h : WalksBit b s i) (hroot : s.dec.rootIsLeaf = some false) :
    (∀ f, takeBit b s (pastItem 1 s) = .fault f → exec i s = .fault f) ∧
      (∀ r, takeBit b s (pastItem 1 s) = .refused r → exec i s = .refused r) := by
  obtain ⟨rfl, hbit⟩ | ⟨bs, hi, hp, hv⟩ := h
  · obtain ⟨rl, rr, hnode⟩ := rootIsLeaf_false hroot
    rw [exec_decDecode_of_bit hnode hbit]
    exact ⟨fun _ h => h, fun _ h => h⟩
  · have hexec : exec i s = takeBits (b :: bs) s := by
      obtain rfl | rfl := hi <;> exact takeBody_of_root hp hroot
    rw [hexec, takeBits, if_pos ⟨hp, hv⟩]
    constructor
    · intro f hf
      rw [hf]
    · intro r hr
      rw [hr]

end DecHeld

/-- Settles O28: the port that is not served answers `wait`, and every operation answers that with its old state. -/
theorem heldOperationsChangeNothing : Obligations.HeldOperationsChangeNothing := by
  intro s
  refine ⟨fun h => ⟨exec_encCount_of_wait h, exec_encEncode_of_wait h⟩,
    fun h => ⟨exec_decRdmagic_of_wait h, exec_decRdhdr_of_wait h, exec_decDecode_of_wait h⟩, fun h => ?_, fun h => ?_⟩
  · refine ⟨exec_encWrmagic_of_not_ready h, exec_encClose_of_not_ready h, fun hlen => ?_, fun x n hx hn => ?_,
      fun r hr hc hlen => ?_⟩
    · exact exec_encWreof_of_wait (Cout.write_wait hlen h)
    · exact exec_encWrhdr_of_not_ready h hx hn
    · exact exec_encEncode_of_held hr hc (Cout.write_wait hlen h)
  · refine ⟨exec_decClose_of_not_ready h, fun b l r c v hroot hbit hcur hchild hleaf hv => ?_⟩
    obtain ⟨rl, rr, hnode⟩ := rootIsLeaf_false hroot
    exact (exec_decDecode_of_bit hnode hbit).trans
      (takeBit_literal_wait (s := pastItem 1 s) (n := .internal l r) hcur hchild hleaf hv (Sout.write_wait h))

/-- Settles O29: the item's own condition, the phase and the host's line, fails. -/
theorem itemsOutOfPhaseAreNotTaken : Obligations.ItemsOutOfPhaseAreNotTaken := by
  intro s m v c
  have hnot : ∀ p : DecPhase, s.dec.phase ≠ p ∨ s.cin.valid = false → ¬(s.dec.phase = p ∧ s.cin.valid = true) := by
    rintro p (hp | hv) ⟨hp', hv'⟩
    · exact hp hp'
    · rw [hv] at hv'
      cases hv'
  refine ⟨fun h => if_neg (hnot _ h), fun h => ⟨if_neg (hnot _ h), if_neg (hnot _ h)⟩,
    fun h => ⟨if_neg h, if_neg h⟩, fun hv hroot => ?_⟩
  have hbody : takeBody c s = .next s := by
    by_cases hp : s.dec.phase = .decode
    · rw [takeBody_of_root hp hroot, takeBits_of_not_presented hv]
    · exact if_neg hp
  exact ⟨hbody, hbody⟩

/-- Settles O30: a ready but closed port answers `closed`, and every operation answers that with a refusal. -/
theorem closedPortsRefuse : Obligations.ClosedPortsRefuse := by
  intro s
  constructor
  · intro hr hc
    refine ⟨exec_encWrmagic_of_closed hr hc, exec_encClose_of_closed hr hc, fun hlen => ?_, fun x n hx hn => ?_,
      fun r hv hrd hcode hlen => ?_⟩
    · exact exec_encWreof_of_closed (Cout.write_closed hlen hr hc)
    · exact exec_encWrhdr_of_closed hr hc hx hn
    · exact exec_encEncode_of_closed hv hrd hcode (Cout.write_closed hlen hr hc)
  · intro hr hc
    refine ⟨exec_decClose_of_closed hr hc, fun i b n c v hroot hbit hcur hchild hleaf hv => ?_,
      fun l r v c hp hvalid hcur hrep hmem hv => ?_⟩
    · exact (hbit.exec_stops hroot).2 _
        (takeBit_literal_closed (s := pastItem 1 s) hcur hchild hleaf hv (Sout.write_closed hr hc))
    · have hroot : s.dec.rootIsLeaf = some false := by
        obtain ⟨a, b, hnode, -⟩ := hrep
        exact rootIsLeaf_internal hnode
      obtain ⟨path, b, k, n, j, rfl, -, hn, hj, hleaf, hwalk⟩ :=
        takeBits_code (.node l r) (fun _ => HTree.noConfusion) hrep hmem
      refine (takeBody_of_root hp hroot).trans ((hwalk s rfl hp hvalid hcur).trans ?_)
      rw [takeBits_last (by exact hp) (by exact hvalid) (by exact hn) hj (by exact hleaf) hv,
        Sout.write_closed (by exact hr) (by exact hc)]

end Sys2Proof.Machine
end

section
/-! PROOFS. Accesses outside an address space (R46; notes/assumptions/10.md, 11.md): each operation meets the missing
entry before it has changed anything, and stops. -/

namespace Sys2Proof.Machine

section EncOutside
variable {s : State} {x : StkEntry} {n : Node}

theorem Enc.top_eq_none {e : Enc} (h : e.sp = 0 ∨ encStkCap < e.sp) : e.top = none := by
  rcases h with h | h
  · exact Enc.top_none h
  · rw [Enc.top, if_neg (by omega)]
    exact Vector.getElem?_eq_none (by omega)

theorem exec_encGen_of_no_entry (h : s.enc.top = none) : exec .encGen s = .fault .noSuchStackEntry := by
  show execEncGen s = _
  rw [execEncGen, Enc.pop_none h]

theorem exec_encWrhdr_of_no_entry (h : s.enc.top = none) : exec .encWrhdr s = .fault .noSuchStackEntry := by
  show execEncWrhdr s = _
  rw [execEncWrhdr, Enc.pop_none h]

theorem exec_encGen_of_no_node (hx : s.enc.top = some x) (hn : s.enc.node[x.node]? = none) :
    exec .encGen s = .fault .noSuchNode := by
  show execEncGen s = _
  simp only [execEncGen, Enc.pop_some hx, hn]

theorem exec_encWrhdr_of_no_node (hx : s.enc.top = some x) (hn : s.enc.node[x.node]? = none) :
    exec .encWrhdr s = .fault .noSuchNode := by
  show execEncWrhdr s = _
  simp only [execEncWrhdr, Enc.pop_some hx, hn]

theorem exec_encGen_of_no_symbol {v : Sym} (hx : s.enc.top = some x) (hn : s.enc.node[x.node]? = some n)
    (hkind : n.kind = .leaf v) (hv : nsym ≤ v.toNat) : exec .encGen s = .fault .noSuchSymbol := by
  show execEncGen s = _
  simp only [execEncGen, Enc.pop_some hx, hn, hkind, dif_neg (Nat.not_lt.mpr hv)]

/-- The top entry of a full stack leaves room for one child, not for two. -/
theorem exec_encGen_of_full {l r : Nat} (hsp : s.enc.sp = encStkCap) (hx : s.enc.top = some x)
    (hn : s.enc.node[x.node]? = some n) (hkind : n.kind = .internal l r) :
    exec .encGen s = .fault .noSuchStackEntry := by
  have hfull : ¬ encStkCap - 1 + 1 < encStkCap := by decide
  show execEncGen s = _
  simp only [execEncGen, Enc.pop_some hx, hn, hkind, Enc.pushTwo, hsp, if_neg hfull]

theorem exec_encWrhdr_of_full {l r : Nat} (hsp : s.enc.sp = encStkCap) (hx : s.enc.top = some x)
    (hn : s.enc.node[x.node]? = some n) (hkind : n.kind = .internal l r) (hopen : CoutOpen s) :
    exec .encWrhdr s = .fault .noSuchStackEntry := by
  have hfull : ¬ encStkCap - 1 + 1 < encStkCap := by decide
  show execEncWrhdr s = _
  simp only [execEncWrhdr, Enc.pop_some hx, hn, hkind, Cout.write_open hopen.1 hopen.2, Enc.pushTwoNodes, hsp,
    if_neg hfull]

theorem exec_encMerge_of_full (hq : 1 < s.enc.qsize) (hn : encNodeCap ≤ s.enc.nn) :
    exec .encMerge s = .fault .noSuchNode := by
  show execEncMerge s = _
  rw [execEncMerge, if_pos hq]
  exact if_neg (Nat.not_lt.mpr hn)

end EncOutside

section DecOutside
variable {s : State} {d : Dec} {r : Option Sym} {i : Instr} {f : Fault} {b : Bool} {n : DNode}

/-- DEC.RDHDR on a record and the record's item are one operation (R182). -/
theorem TakesRecord.exec_eq (h : TakesRecord r s i) : exec i s = takeRecord r (pastItem (recordBits r).length s) := by
  rcases h with ⟨rfl, h⟩ | ⟨rfl, hp, hv⟩
  · exact exec_decRdhdr_of_record h
  · exact exec_recordItem_of_rdhdr r hp hv

theorem TakesRecord.exec_of_room (h : TakesRecord r s i) (hdn : s.dec.dn ≠ s.cfg.decNodeCap) :
    exec i s =
      match s.dec.addRecord r with
      | .ok d => .next { pastItem (recordBits r).length s with dec := d }
      | .error f => .fault f :=
  h.exec_eq.trans (if_neg hdn)

theorem TakesRecord.exec_fault (h : TakesRecord r s i) (hdn : s.dec.dn ≠ s.cfg.decNodeCap)
    (hf : s.dec.addRecord r = .error f) : exec i s = .fault f := by
  rw [h.exec_of_room hdn, hf]

theorem addRecord_of_full_store (h : d.dnode.length ≤ d.dn) : d.addRecord r = .error .noSuchDecNode := by
  rw [Dec.addRecord, Dec.allocate, if_neg (Nat.not_lt.mpr h)]

section Room
variable (hroom : d.dn < d.dnode.length)
include hroom

theorem addRecord_of_no_entry (h : d.dstk.length < d.dsp) : d.addRecord r = .error .noSuchDecStackEntry := by
  have hnone : d.dstk[d.dsp - 1]? = none := List.getElem?_eq_none (by omega)
  simp only [Dec.addRecord, Dec.allocate_ok hroom, Dec.hang, if_neg (show ¬ d.dsp = 0 by omega), hnone]

theorem addRecord_of_no_parent {e : DStkEntry} (h0 : 0 < d.dsp) (he : d.dstk[d.dsp - 1]? = some e)
    (hnode : d.dnode.length ≤ e.node) : d.addRecord r = .error .noSuchDecNode := by
  have hnone : (d.dnode.set d.dn (DNode.ofRecord r))[e.node]? = none :=
    List.getElem?_eq_none (by rw [List.length_set]; exact hnode)
  simp only [Dec.addRecord, Dec.allocate_ok hroom, Dec.hang, if_neg (Nat.ne_of_gt h0), he, hnone]

/-- A node that is hung as the root or as a left child finds the stack as full as it was. -/
theorem addRecord_of_full_stack (hfull : d.dsp = d.dstk.length)
    (hparent : d.dsp = 0 ∨ ∃ p, d.dstk[d.dsp - 1]? = some { node := p, side := false } ∧ p < d.dnode.length) :
    d.addRecord none = .error .noSuchDecStackEntry := by
  by_cases h0 : d.dsp = 0
  · have hlen : ¬ d.dsp < d.dstk.length := Nat.not_lt.mpr hfull.ge
    simp only [Dec.addRecord, Dec.allocate_ok hroom, Dec.hang, if_pos h0, Dec.await, if_neg hlen]
  · obtain ⟨p, htop, hp⟩ := hparent.resolve_left h0
    obtain ⟨n, hget⟩ : ∃ n, (d.dnode.set d.dn (DNode.ofRecord none))[p]? = some n :=
      ⟨_, List.getElem?_eq_getElem (by rw [List.length_set]; exact hp)⟩
    have hlen : ¬ d.dsp < (d.dstk.set (d.dsp - 1) { node := p, side := true }).length := by
      rw [List.length_set]
      exact Nat.not_lt.mpr hfull.ge
    simp only [Dec.addRecord, Dec.allocate_ok hroom, Dec.hang, if_neg h0, htop, hget, Bool.false_eq_true, if_false,
      Dec.await, if_neg hlen]

end Room

theorem rootIsLeaf_none (h : d.dnode.length ≤ d.droot) : d.rootIsLeaf = none := by
  rw [Dec.rootIsLeaf, List.getElem?_eq_none h]

theorem takeBit_of_no_node {held : State} (h : s.dec.dnode.length ≤ s.dec.cur) :
    takeBit b held s = .fault .noSuchDecNode := by
  rw [takeBit, List.getElem?_eq_none h]

theorem takeBit_of_no_child {held : State} (hn : s.dec.dnode[s.dec.cur]? = some n) (h : n.child b = none) :
    takeBit b held s = .fault .noChild := by
  simp only [takeBit, hn, h]

theorem takeBit_of_lost_child {held : State} {c : Nat} (hn : s.dec.dnode[s.dec.cur]? = some n)
    (hc : n.child b = some c) (h : s.dec.dnode.length ≤ c) : takeBit b held s = .fault .noSuchDecNode := by
  simp only [takeBit, hn, hc, List.getElem?_eq_none h]

end DecOutside

/-- Settles O31: one lemma for each missing entry. -/
theorem accessesOutsideASpaceFault : Obligations.AccessesOutsideASpaceFault := by
  intro s
  refine ⟨fun h => ?_, fun x hx hn => ?_, fun x w v hx hn hv => ?_, fun x w l r hsp hx hn => ?_,
    exec_encMerge_of_full, fun i r h hdn => ?_, fun h => ?_, fun i b hroot h => ?_⟩
  · exact ⟨exec_encGen_of_no_entry (Enc.top_eq_none h), exec_encWrhdr_of_no_entry (Enc.top_eq_none h)⟩
  · have hnone : s.enc.node[x.node]? = none := Vector.getElem?_eq_none hn
    exact ⟨exec_encGen_of_no_node hx hnone, exec_encWrhdr_of_no_node hx hnone⟩
  · exact exec_encGen_of_no_symbol hx hn rfl hv
  · exact ⟨exec_encGen_of_full hsp hx hn rfl, exec_encWrhdr_of_full hsp hx hn rfl⟩
  · refine ⟨fun hfull => h.exec_fault hdn (addRecord_of_full_store hfull), fun hroom => ⟨fun hlen => ?_,
      fun e h0 he hnode => ?_, ?_⟩⟩
    · exact h.exec_fault hdn (addRecord_of_no_entry hroom hlen)
    · exact h.exec_fault hdn (addRecord_of_no_parent hroom h0 he hnode)
    · rintro rfl hfull hparent
      exact h.exec_fault hdn (addRecord_of_full_stack hroom hfull hparent)
  · have hroot := rootIsLeaf_none h
    have hbody : ∀ c, s.dec.phase = .decode → takeBody c s = .fault .noSuchDecNode := fun c hp => by
      simp only [takeBody, if_pos hp, hroot]
    refine ⟨?_, fun c hp => ⟨hbody c hp, hbody c hp⟩⟩
    show execDecDecode s = _
    simp only [execDecDecode, hroot]
  · refine ⟨fun hcur => ?_, fun n hn => ⟨fun hchild => ?_, fun c hc hlost => ?_⟩⟩
    · exact (h.exec_stops hroot).1 _ (takeBit_of_no_node hcur)
    · exact (h.exec_stops hroot).1 _ (takeBit_of_no_child hn hchild)
    · exact (h.exec_stops hroot).1 _ (takeBit_of_lost_child hn hc hlost)

end Sys2Proof.Machine
end

section
/-! PROOFS. ENC's operations one by one (R143, R151, R160, R162), the state after reset (R49, R230), and what a step of
the machine runs (R40, R90). -/

namespace Sys2Proof.Machine

/-- Settles O1: every register named is a literal of the reset state. -/
theorem resetStateIsIdle : Obligations.ResetStateIsIdle := by
  unfold Obligations.ResetStateIsIdle
  decide

/-- Settles O5: each of the seven operations is defined to answer its state. -/
theorem waitingOperationsChangeNothing : Obligations.WaitingOperationsChangeNothing :=
  fun _ _ => ⟨rfl, rfl, rfl, rfl, rfl, rfl, rfl⟩

section EncOperations
variable {s : State}

theorem exec_encMerge_of_merging (hq : 1 < s.enc.qsize) : exec .encMerge s = mergeTwo s := if_pos hq

theorem exec_encMerge_of_final (hq : ¬ 1 < s.enc.qsize) : exec .encMerge s = finishTree s := if_neg hq

theorem exec_encWrmagic_of_open (hopen : CoutOpen s) :
    exec .encWrmagic s = .next (s.wrote (bits 32 s.cfg.magic.toNat)
      { s.enc with stk := withNode s.enc.stk 0 s.enc.root, sp := 1, phase := .wrhdr }) := by
  show execEncWrmagic s = _
  rw [execEncWrmagic, Cout.write_open hopen.1 hopen.2]
  rfl

end EncOperations

/-- Settles O10: a merging turn writes the store and the queue only; the final turn's index is one of the store. -/
theorem mergeCompletesWithRoom : Obligations.MergeCompletesWithRoom := by
  intro s hroom
  by_cases hq : 1 < s.enc.qsize
  · exact ⟨_, (exec_encMerge_of_merging hq).trans (if_pos (hroom hq)), rfl, rfl, rfl, rfl, rfl, rfl, rfl, rfl, rfl, rfl,
      fun hn => absurd hq hn⟩
  · refine ⟨_, exec_encMerge_of_final hq, rfl, rfl, rfl, rfl, rfl, rfl, rfl, rfl, rfl, rfl, fun _ => ?_⟩
    exact ⟨pickMin_lt _ _ _, rfl, rfl, Vector.getElem?_setIfInBounds_self_of_lt (by decide), rfl⟩

/-- Settles O11: the two lemmas of the generator's walk. -/
theorem genVisitsOneNode : Obligations.GenVisitsOneNode := by
  intro s x w hsp hx
  refine ⟨fun v hv hn => exec_encGen_of_leaf hsp hx hn rfl hv, fun l r hroom hn => ?_⟩
  have hleft : x.below false l = { node := l, len := (x.len + 1) % 2 ^ 9, bits := x.bits <<< 1 } := by
    simp [StkEntry.below, shiftIn]
  rw [exec_encGen_of_internal hsp hx hn rfl hroom, genChildren, hleft]
  rfl

/-- Settles O12: the walk's first entry is written in its node field only. -/
theorem wrmagicWritesMagicAndPreparesWalk : Obligations.WrmagicWritesMagicAndPreparesWalk := by
  intro s hopen
  have hfirst : s.enc.stk[0]? = some s.enc.stk[0] := Vector.getElem?_eq_getElem (by decide)
  exact ⟨_, exec_encWrmagic_of_open hopen, ⟨_, withNode_same hfirst, rfl⟩, fun k hk => withNode_ne hk, rfl⟩

/-- Settles O13: the two lemmas of the header writer's walk. -/
theorem wrhdrWritesOneRecord : Obligations.WrhdrWritesOneRecord := by
  intro s x w hopen hsp hx
  refine ⟨fun v hn => exec_encWrhdr_of_leaf hopen hsp hx hn rfl, fun l r hroom hn => ?_⟩
  obtain ⟨z, hz, hzl⟩ := hdrChildren_left (e := s.enc) (a := l) (b := r) hroom
  obtain ⟨y, hy, hyr⟩ := hdrChildren_right (a := l) (b := r) hsp hroom
  exact ⟨_, exec_encWrhdr_of_internal hopen hsp hx hn rfl hroom, ⟨y, z, hy, hyr, hz, hzl⟩,
    fun k hk hk' => (withNode_ne hk').trans (withNode_ne hk), rfl⟩

/-- Settles O47: idle units have nothing to keep safe, and the reset values fit. -/
theorem resetStateIsSafe : Obligations.ResetStateIsSafe := by
  have hcfg : State.reset.cfg.wf := by decide
  have hphases : State.reset.OutputsAgree ∧ State.reset.PhasesLegal ∧ State.reset.ErrAgrees := by
    unfold State.OutputsAgree State.PhasesLegal State.ErrAgrees
    decide
  obtain ⟨houtputs, hlegal, herr⟩ := hphases
  exact ⟨⟨houtputs, hlegal, trivial, List.length_replicate, List.length_replicate, trivial⟩, herr,
    hcfg, Enc.reset_fits _, Dec.reset_fits _, Nat.zero_le _, Nat.zero_le _⟩

/-- Settles O37: a reserved code selects no operation and is no waiting phase. -/
theorem reservedPhasesOnlyResetLeaves : Obligations.ReservedPhasesOnlyResetLeaves := by
  intro s
  constructor
  · intro hp
    have hnone : encOperation s.enc.phase = none ∧ s.enc.phase.waiting = false ∧ s.enc.phase ≠ .done ∧
        s.enc.phase ≠ .fault := by
      rcases hp with hp | hp | hp <;> rw [hp] <;> decide
    obtain ⟨hop, hwait, hdone, hfault⟩ := hnone
    refine ⟨runUnit_none ((fetchUnit_enc s).trans hop), fun raw => exec_encStart_of_not_waiting raw (by simp [hwait]),
      ?_, decide_eq_false hdone, decide_eq_false hfault⟩
    rw [Enc.busy, hwait]
    rfl
  · intro hp
    refine ⟨runUnit_none ?_, fun comp => exec_decStart_of_not_waiting comp (by simp [hp, DecPhase.waiting]), ?_, ?_, ?_⟩
    · rw [fetchUnit_dec, hp]
      rfl
    · rw [Dec.busy, hp]
      rfl
    · rw [Dec.done, hp]
      rfl
    · rw [Dec.faulted, hp]
      rfl

section Step
variable {s : State} {u : Agent} {a : List Slot} {i : Instr}

theorem step_of_instr {t : State} (hi : (fetch s).instr = some i) (ht : (fetch s).state = t) : step s = exec i t := by
  rw [step, hi, ht]

theorem fetchUnit_of_decode {rest : Bits} (h : decode (phaseCtx u) (phaseWord u s) = .ok (i, rest)) :
    fetchUnit u s = some i := by
  rw [fetchUnit, h]

theorem step_of_command {e : HostEvent} (h : s.agenda = .host e :: a)
    (hi : (fetchHost e { s with agenda := a }).instr = some i) :
    step s = exec i (fetchHost e { s with agenda := a }).state := by
  have hf : fetch s = fetchHost e { s with agenda := a } := by rw [fetch, h]
  rw [step, hf, hi]

theorem step_of_event {e : HostEvent} (h : s.agenda = .host e :: a)
    (hi : (fetchHost e { s with agenda := a }).instr = none) :
    step s = .next (fetchHost e { s with agenda := a }).state := by
  have hf : fetch s = fetchHost e { s with agenda := a } := by rw [fetch, h]
  rw [step, hf, hi]

end Step

/-- Settles O35: fetching decodes the phase word; the agenda and the turn, which a fetch moves, are no part of it. -/
theorem stepRunsTheSelectedOperation : Obligations.StepRunsTheSelectedOperation := by
  intro s u i rest h
  have hf := fetchUnit_of_decode h
  refine ⟨?_, runUnit_some hf, fun a ha => ?_, fun ha hu => ?_⟩
  · cases u with
    | enc => exact hf.symm.trans (fetchUnit_enc s)
    | dec => exact hf.symm.trans (fetchUnit_dec s)
  · exact step_of_instr (by rw [fetch, ha]; exact hf) (by rw [fetch, ha])
  · subst hu
    exact step_of_instr (by rw [fetch, ha]; exact hf) (by rw [fetch, ha])

/-- Settles O36: the fetch of each event; a port that is cut at its position has nothing left to read. -/
theorem stepGivesTheHostsCommand : Obligations.StepGivesTheHostsCommand := by
  intro s raw comp e d a
  refine ⟨fun h => ?_, fun h => step_of_command h rfl, fun h => step_of_command h rfl,
    fun h => step_of_command h rfl, fun h => step_of_event h rfl, fun rv cr cv sr h => step_of_event h rfl,
    fun h => step_of_event h rfl, fun h => ?_, fun h => ?_⟩
  · exact step_of_command h rfl
  · refine ⟨_, rfl, step_of_event h rfl, fun hv => Rin.read_eos hv ?_⟩
    exact List.getElem?_eq_none (List.length_take_le _ _)
  · refine ⟨_, rfl, step_of_event h rfl, fun n hn hv hpos => ?_⟩
    have hlen : (s.cin.data.take s.cin.pos).length = s.cin.pos := List.length_take_of_le hpos
    rw [Cin.read_eos (by exact hv) (by simp only [hlen]; omega)]
    simp only [hlen]

end Sys2Proof.Machine
end

section
/-! PROOFS. DEC takes one item (R180, R182): the magic compared, a header record stored and hung under the pending
parent. -/

namespace Sys2Proof.Machine

/-- Settles O19: the item's condition holds, and DEC compares. -/
theorem magicItemIsCompared : Obligations.MagicItemIsCompared := by
  intro s m hp hv
  refine (show exec (.magic m) s = takeMagic m (pastItem 32 s) from if_pos ⟨hp, hv⟩).trans ?_
  by_cases hm : m = s.cfg.magic
  · exact (if_pos hm).trans (by rw [if_pos hm]; rfl)
  · exact (if_neg hm).trans (by rw [if_neg hm]; rfl)

section Hung
variable {s : State} {d : Dec} {p : Nat} {r : Option Sym}

theorem parentAllocated_of_root (h : d.dsp = 0) : ParentAllocated d := fun _ h0 => absurd h h0

theorem parentAllocated_of_top {side : Bool} (htop : d.dstk[d.dsp - 1]? = some { node := p, side := side })
    (hp : p < d.dn) : ParentAllocated d := by
  intro e _ he
  obtain rfl := Option.some.inj (htop.symm.trans he)
  exact hp

/-- DEC.RDHDR and the record's item both store what `addRecord` answers. -/
theorem takesRecord_of_addRecord (hv : s.cin.valid = true) (hdn : s.dec.dn ≠ s.cfg.decNodeCap)
    (hadd : s.dec.addRecord r = .ok d) :
    (CinPresents (recordBits r) s →
        exec .decRdhdr s = .next { pastItem (recordBits r).length s with dec := d }) ∧
      (s.dec.phase = .rdhdr →
        exec (recordItem r) s = .next { pastItem (recordBits r).length s with dec := d }) := by
  have hexec : ∀ i, TakesRecord r s i → exec i s = .next { pastItem (recordBits r).length s with dec := d } := by
    intro i hi
    rw [hi.exec_of_room hdn, hadd]
  exact ⟨fun h => hexec _ (Or.inl ⟨rfl, h⟩), fun hp => hexec _ (Or.inr ⟨rfl, hp, hv⟩)⟩

end Hung

section Record
variable {d : Dec} {p : Nat} {l r : Option Nat} (hroom : d.dn < d.dnode.length)
include hroom

theorem addRecord_leaf_root (h0 : d.dsp = 0) (v : Sym) :
    d.addRecord (some v) = .ok { d with
      dnode := d.dnode.set d.dn (.leaf v), dn := d.dn + 1, droot := d.dn, cur := d.dn, phase := .decode } := by
  rw [addRecord_leaf (hang_root h0) (parentAllocated_of_root h0) hroom, endOfHeader_zero _ (by exact h0)]

theorem addRecord_node_root (h0 : d.dsp = 0) (hlen : 0 < d.dstk.length) :
    d.addRecord none = .ok { d with
      dnode := d.dnode.set d.dn (.internal none none), dn := d.dn + 1, droot := d.dn
      dstk := d.dstk.set 0 { node := d.dn, side := false }, dsp := 1 } := by
  rw [addRecord_node (hang_root h0) (parentAllocated_of_root h0) hroom (by simp only [h0]; exact hlen)]
  simp only [Dec.waiting, h0]

variable (h0 : 0 < d.dsp) (hp : p < d.dn) (hnode : d.dnode[p]? = some (.internal l r))
include h0 hp hnode

section Left
variable (htop : d.dstk[d.dsp - 1]? = some { node := p, side := false })
include htop

theorem addRecord_leaf_left (v : Sym) :
    d.addRecord (some v) = .ok { d with
      dnode := (d.dnode.set d.dn (.leaf v)).set p (.internal (some d.dn) r), dn := d.dn + 1
      dstk := d.dstk.set (d.dsp - 1) { node := p, side := true } } := by
  rw [addRecord_leaf (hang_left (Nat.ne_of_gt h0) htop hnode) (parentAllocated_of_top htop hp) hroom,
    endOfHeader_pos _ (by exact Nat.ne_of_gt h0)]
  simp only [DNode.withLeft, List.set_comm _ _ (Nat.ne_of_lt hp)]

theorem addRecord_node_left (hlen : d.dsp < d.dstk.length) :
    d.addRecord none = .ok { d with
      dnode := (d.dnode.set d.dn (.internal none none)).set p (.internal (some d.dn) r), dn := d.dn + 1
      dstk := (d.dstk.set (d.dsp - 1) { node := p, side := true }).set d.dsp { node := d.dn, side := false }
      dsp := d.dsp + 1 } := by
  rw [addRecord_node (hang_left (Nat.ne_of_gt h0) htop hnode) (parentAllocated_of_top htop hp) hroom
    (by simp only [List.length_set]; exact hlen)]
  simp only [Dec.waiting, DNode.withLeft, List.set_comm _ _ (Nat.ne_of_lt hp)]

end Left

section Right
variable (htop : d.dstk[d.dsp - 1]? = some { node := p, side := true })
include htop

theorem addRecord_leaf_right (v : Sym) :
    d.addRecord (some v) = .ok { d with
      dnode := (d.dnode.set d.dn (.leaf v)).set p (.internal l (some d.dn)), dn := d.dn + 1, dsp := d.dsp - 1
      cur := if d.dsp = 1 then d.droot else d.cur
      phase := if d.dsp = 1 then .decode else d.phase } := by
  rw [addRecord_leaf (hang_right (Nat.ne_of_gt h0) htop hnode) (parentAllocated_of_top htop hp) hroom]
  by_cases h1 : d.dsp = 1
  · rw [endOfHeader_zero _ (by simp only [h1])]
    simp only [DNode.withRight, List.set_comm _ _ (Nat.ne_of_lt hp), if_pos h1]
  · rw [endOfHeader_pos _ (by simp only; omega)]
    simp only [DNode.withRight, List.set_comm _ _ (Nat.ne_of_lt hp), if_neg h1]

theorem addRecord_node_right :
    d.addRecord none = .ok { d with
      dnode := (d.dnode.set d.dn (.internal none none)).set p (.internal l (some d.dn)), dn := d.dn + 1
      dstk := d.dstk.set (d.dsp - 1) { node := d.dn, side := false } } := by
  have hlen : d.dsp - 1 < d.dstk.length := (List.getElem?_eq_some_iff.mp htop).1
  rw [addRecord_node (hang_right (Nat.ne_of_gt h0) htop hnode) (parentAllocated_of_top htop hp) hroom hlen]
  simp only [Dec.waiting, DNode.withRight, List.set_comm _ _ (Nat.ne_of_lt hp), Nat.sub_add_cancel h0]

end Right
end Record

/-- Settles O21: the leaf is hung at the place it takes, and the end of the header is the empty stack. -/
theorem leafRecordHangsALeaf : Obligations.LeafRecordHangsALeaf := by
  intro s v d hv hroom hdn hcase
  refine takesRecord_of_addRecord (r := some v) hv hdn ?_
  rcases hcase with ⟨h0, rfl⟩ | ⟨p, l, r, h0, htop, hp, hnode, rfl⟩ | ⟨p, l, r, h0, htop, hp, hnode, rfl⟩
  · exact addRecord_leaf_root hroom h0 v
  · exact addRecord_leaf_left hroom h0 hp hnode htop v
  · exact addRecord_leaf_right hroom h0 hp hnode htop v

/-- Settles O22: the node is hung as a leaf is, then waits on the stack in the place that hanging left free. -/
theorem nodeRecordWaitsForChildren : Obligations.NodeRecordWaitsForChildren := by
  intro s d hv hroom hdn hcase
  refine takesRecord_of_addRecord (r := none) hv hdn ?_
  rcases hcase with ⟨h0, hlen, rfl⟩ | ⟨p, l, r, h0, hlen, htop, hp, hnode, rfl⟩ | ⟨p, l, r, h0, htop, hp, hnode, rfl⟩
  · exact addRecord_node_root hroom h0 hlen
  · exact addRecord_node_left hroom h0 hp hnode htop hlen
  · exact addRecord_node_right hroom h0 hp hnode htop

end Sys2Proof.Machine
end

section
/-! PROOFS. The stream items as instructions (R94 to R99, R190): DEC's readers and the item that stands at the port do
the same, a body item walks its code, and the stream's bytes hold its bits (R72). -/

namespace Sys2Proof.Machine

/-- A magic word that decodes is the first 32 bits (R94). -/
theorem magic_of_decode {bs rest : Bits} {i : Instr} (h : decode .magicWord bs = .ok (i, rest)) :
    ∃ m : MagicWord, i = .magic m ∧ bs = bits 32 m.toNat ++ rest := by
  unfold decode at h
  cases hfield : field 32 bs with
  | error e => rw [hfield] at h; cases h
  | ok p =>
    obtain ⟨m, rest'⟩ := p
    rw [hfield] at h
    cases h
    refine ⟨_, rfl, ?_⟩
    rw [BitVec.toNat_ofNat, Nat.mod_eq_of_lt (lt_of_field hfield)]
    exact eq_bits_append_of_field hfield

/-- Settles O23: the bits that decode stand at the port, and the reader takes the decoded item's value from them. -/
theorem readersExecuteTheDecodedItem : Obligations.ReadersExecuteTheDecodedItem := by
  intro s i rest hv
  constructor
  · intro hp h
    obtain ⟨m, rfl, hbits⟩ := magic_of_decode h
    rw [exec_decRdmagic_of_word (cinPresents_of_drop hbits hv)]
    exact (if_pos ⟨hp, hv⟩).symm
  · intro hp h
    obtain ⟨r, rfl, hbits⟩ := record_of_decodeHeader h
    rw [exec_decRdhdr_of_record (cinPresents_of_drop hbits hv), exec_recordItem_of_rdhdr r hp hv]

section BodyItem
variable {s : State} {b : Bool} {n : DNode} {j : Nat} {v : Sym} {l r : HTree} {c : Bits}

/-- An item of one bit is that one bit's move. -/
theorem takeBits_one (hp : s.dec.phase = .decode) (hv : s.cin.valid = true) :
    takeBits [b] s = takeBit b s (pastItem 1 s) := by
  rw [takeBits, if_pos ⟨hp, hv⟩]
  cases takeBit b s (pastItem 1 s) with
  | next t => simp [takeBits]
  | fault f => rfl
  | refused r => rfl

theorem takeBits_last_eof (hp : s.dec.phase = .decode) (hv : s.cin.valid = true)
    (hn : s.dec.dnode[s.dec.cur]? = some n) (hj : n.child b = some j)
    (hl : s.dec.dnode[j]? = some (.leaf pseudoEof)) :
    takeBits [b] s = .next { s with
      cin := { s.cin with pos := s.cin.pos + 1 }, dec := { s.dec with cur := j, phase := .close } } := by
  rw [takeBits_one hp hv]
  simp only [takeBit, pastItem, hn, hj, hl, if_true]

theorem withCur_root {d : Dec} (h : d.cur = d.droot) : { d with cur := d.droot } = d := by
  cases d
  cases h
  rfl

theorem rootIsLeaf_of_node (h : DNodeRep s.dec.dnode (.node l r) s.dec.droot) : s.dec.rootIsLeaf = some false := by
  obtain ⟨_, _, hnode, -⟩ := h
  exact rootIsLeaf_internal hnode

/-- From the root, an item walks to its last branch and does what its last bit does there (R190). -/
theorem takeBody_code (hp : s.dec.phase = .decode) (hv : s.cin.valid = true) (hcur : s.dec.cur = s.dec.droot)
    (hrep : DNodeRep s.dec.dnode (.node l r) s.dec.droot) (hc : (v, c) ∈ (HTree.node l r).codes) :
    ∃ path b k n j, c = path ++ [b] ∧ nodeAlong s.dec.dnode path s.dec.droot = some k ∧ s.dec.dnode[k]? = some n ∧
      n.child b = some j ∧ s.dec.dnode[j]? = some (.leaf v) ∧
      takeBody c s = takeBits [b]
        { s with cin := { s.cin with pos := s.cin.pos + path.length }, dec := { s.dec with cur := k } } := by
  obtain ⟨path, b, k, n, j, hpath, hk, hn, hj, hl, hwalk⟩ :=
    takeBits_code (.node l r) (fun _ => HTree.noConfusion) hrep hc
  exact ⟨path, b, k, n, j, hpath, hk, hn, hj, hl,
    (takeBody_of_root hp (rootIsLeaf_of_node hrep)).trans (hwalk s rfl hp hv hcur)⟩

end BodyItem

/-- Settles O25: the last bit meets the output port on the leaf's parent. -/
theorem bodyCodeWritesItsSymbol : Obligations.BodyCodeWritesItsSymbol := by
  intro s l r v c hp hv hcur hrep hc hne
  obtain ⟨path, b, k, n, j, rfl, hk, hn, hj, hl, hbody⟩ := takeBody_code hp hv hcur hrep hc
  rw [takeBits_last (by exact hp) (by exact hv) (by exact hn) hj (by exact hl) hne] at hbody
  constructor
  · intro hopen
    rw [Sout.write_open (by exact hopen.1) (by exact hopen.2)] at hbody
    refine hbody.trans ?_
    simp only [List.length_append, List.length_singleton, Nat.add_assoc]
    rw [show ({ s.dec with cur := s.dec.droot } : Dec) = s.dec from withCur_root hcur]
  · intro hready
    rw [Sout.write_wait (by exact hready)] at hbody
    exact ⟨path, b, k, n, j, rfl, hk, hn, hj, hl, hbody⟩

/-- Settles O26: the last bit reaches the leaf of 256; a leaf root is it at once. -/
theorem bodyEofEndsTheBody : Obligations.BodyEofEndsTheBody := by
  intro s hp
  constructor
  · intro l r c hv hcur hrep hc
    obtain ⟨path, b, k, n, j, rfl, -, hn, hj, hl, hbody⟩ := takeBody_code hp hv hcur hrep hc
    refine ⟨j, hl, ?_⟩
    rw [takeBits_last_eof (by exact hp) (by exact hv) (by exact hn) hj (by exact hl)] at hbody
    refine hbody.trans ?_
    simp only [List.length_append, List.length_singleton, Nat.add_assoc]
  · intro v hrep
    show takeBody [] s = _
    simp only [takeBody, if_pos hp, rootIsLeaf_leaf hrep]

/-- From a node on the way, the rest of a code takes one turn per bit and does what the item does (R190). -/
theorem Decoding.turns_code {rl rr l r : HTree} {s : State} {v : Sym} {c : Bits}
    (h : Decoding (.node rl rr) (.node l r) s) (hbits : CinPresents c s) (hc : (v, c) ∈ (HTree.node l r).codes) :
    turns .dec c.length s = takeBits c s := by
  induction c generalizing s l r with
  | nil =>
    obtain ⟨_, _, hnil, -⟩ := mem_codes_node hc
    cases hnil
  | cons b c ih =>
    have hc' := mem_codes_node_iff.mp hc
    obtain ⟨hbit, hrest⟩ := CinPresents.of_append (a := [b]) hbits
    obtain ⟨n, k, hn, hk, hrep⟩ := h.exists_child b
    obtain ⟨_, _, hroot, -, -⟩ := h.root
    cases hchild : (if b then r else l) with
    | leaf w =>
      rw [hchild] at hc'
      obtain rfl : c = [] := (Prod.mk.inj (List.mem_singleton.mp hc')).2
      rw [List.length_singleton, turns_one, runUnit_dec_of_decode h.phase, exec_decDecode_of_bit hroot hbit,
        takeBits_one h.phase h.valid]
    | node l' r' =>
      rw [hchild] at hrep hc'
      have hnext : Decoding (.node rl rr) (.node l' r') (s.walked 1 [] k) := h.walked hrep 1 []
      obtain ⟨_, _, hm, -, -⟩ := hrep
      have hrun : runUnit .dec s = .next (s.walked 1 [] k) := by
        rw [runUnit_dec_of_decode h.phase, exec_decDecode_to_internal hroot hbit hn hk hm, State.walked,
          List.append_nil]
      rw [List.length_cons, turns_succ hrun, takeBits_internal h.phase h.valid hn hk hm]
      refine (ih hnext hrest hc').trans ?_
      rw [State.walked, List.append_nil]

/-- Settles O27: from the root both are the walk of the code. -/
theorem bodyItemIsOneTurnPerBit : Obligations.BodyItemIsOneTurnPerBit := by
  intro s l r v c hp hopen hcur hbits hrep hc
  have hdec : Decoding (.node l r) (.node l r) s := ⟨hp, hbits.1, hopen, hrep, hcur ▸ hrep⟩
  have hbody : takeBody c s = takeBits c s := takeBody_of_root hp (rootIsLeaf_of_node hrep)
  rw [hdec.turns_code hbits hc, ← hbody]
  split <;> rfl

section Packing
variable {l : Bits}

theorem bits_ofNat_valueOf (h : l.length = 8) : bits 8 (BitVec.ofNat 8 (valueOf l)).toNat = l := by
  have hlt := valueOf_lt l
  rw [h] at hlt
  rw [BitVec.toNat_ofNat, Nat.mod_eq_of_lt hlt, ← h, bits_valueOf]

/-- The pieces of `n` bits, one after the other, are the bits. -/
theorem flatMap_pieces (l : Bits) (n m : Nat) :
    ((List.range m).flatMap fun j => (l.drop (n * j)).take n) = l.take (n * m) := by
  induction m with
  | zero => simp
  | succ m ih =>
    rw [List.range_succ, List.flatMap_append, ih, List.flatMap_singleton, ← List.take_add]
    rfl

theorem length_padded (l : Bits) : (padded l).length = 8 * ((l.length + 7) / 8) := by
  rw [padded, List.length_append, List.length_replicate, padLength]
  omega

/-- Every byte gives its eight bits back, and the bytes cover the padded stream. -/
theorem unpack_pack (l : Bits) : unpack (pack l) = padded l := by
  have hpiece : ∀ j ∈ List.range ((l.length + 7) / 8),
      bits 8 (BitVec.ofNat 8 (valueOf (((padded l).drop (8 * j)).take 8))).toNat =
        ((padded l).drop (8 * j)).take 8 := by
    intro j hj
    refine bits_ofNat_valueOf (List.length_take_of_le ?_)
    rw [List.length_drop, length_padded]
    have hlt := List.mem_range.mp hj
    omega
  rw [unpack, pack, List.flatMap_map, List.flatMap_congr hpiece, flatMap_pieces, ← length_padded, List.take_length]

end Packing

/-- Settles O58: unpacking gives the padded stream. -/
theorem packingRoundTrips : Obligations.PackingRoundTrips :=
  fun l => ⟨unpack_pack l, padLength_lt _, by rw [pack, List.length_map, List.length_range]⟩

end Sys2Proof.Machine
end

section
/-! PROOFS. ENC's part of a safe state (R232): in every phase its operation answers a state, and a safe one. -/

namespace Sys2Proof.Machine

section Walk
variable {node : Vector Node encNodeCap} {stk stk' : Vector StkEntry encStkCap} {sp : Nat} {ts : List HTree} {T : HTree}
  {x : StkEntry}

/-- The stack's entries, from the bottom on, are the roots of the trees `ts` (R152). -/
def StackHolds (node : Vector Node encNodeCap) (stk : Vector StkEntry encStkCap) (ts : List HTree) : Prop :=
  ∀ k (h : k < ts.length), ∃ x, stk[k]? = some x ∧ NodeRep node ts[k] x.node ∧ SymbolsLegal ts[k]

theorem StackHolds.init (h : StackHolds node stk (ts ++ [T])) : StackHolds node stk ts := fun k hk => by
  obtain ⟨x, hx, hrep, hlegal⟩ := h k (by rw [List.length_append]; omega)
  rw [List.getElem_append_left hk] at hrep hlegal
  exact ⟨x, hx, hrep, hlegal⟩

theorem StackHolds.last (h : StackHolds node stk (ts ++ [T])) :
    ∃ x, stk[ts.length]? = some x ∧ NodeRep node T x.node ∧ SymbolsLegal T := by
  simpa using h ts.length (by simp)

theorem StackHolds.push (h : StackHolds node stk ts) (hx : stk[ts.length]? = some x) (hrep : NodeRep node T x.node)
    (hlegal : SymbolsLegal T) : StackHolds node stk (ts ++ [T]) := by
  intro k hk
  rcases Nat.lt_or_ge k ts.length with hlt | hge
  · rw [List.getElem_append_left hlt]
    exact h k hlt
  · obtain rfl : k = ts.length := by
      rw [List.length_append, List.length_singleton] at hk
      omega
    rw [List.getElem_concat_length rfl]
    exact ⟨x, hx, hrep, hlegal⟩

theorem StackHolds.congr (h : StackHolds node stk ts) (hsame : ∀ k, k < ts.length → stk'[k]? = stk[k]?) :
    StackHolds node stk' ts := fun k hk => by
  rw [hsame k hk]
  exact h k hk

/-- `WalkOk` of the registers it speaks of. -/
def WalkOn (node : Vector Node encNodeCap) (stk : Vector StkEntry encStkCap) (sp : Nat) : Prop :=
  ∃ ts : List HTree, ts.length = sp ∧ 1 ≤ sp ∧ StackHolds node stk ts ∧ (ts.map HTree.leafCount).sum ≤ nsym

theorem walkOk_iff (e : Enc) : WalkOk e ↔ WalkOn e.node e.stk e.sp := Iff.rfl

theorem WalkOn.of_root (hx : stk[0]? = some x) (hrep : NodeRep node T x.node) (hlegal : SymbolsLegal T)
    (hcount : T.leafCount ≤ nsym) : WalkOn node stk 1 :=
  ⟨[T], rfl, Nat.le_refl 1, StackHolds.push (ts := []) (fun _ hk => absurd hk (Nat.not_lt_zero _)) hx hrep hlegal,
    by simpa using hcount⟩

/-- What a walk under way finds on top of its stack, and that the visit leaves a walk under way (R151, R162): a leaf,
after which the rest of the stack is left, or an internal node, which has room for its two children. -/
inductive Visit (node : Vector Node encNodeCap) (stk : Vector StkEntry encStkCap) (sp : Nat) (x : StkEntry) : Prop
  | leaf (w : Nat) (v : Sym) (hn : node[x.node]? = some { weight := w, kind := .leaf v }) (hv : v.toNat < nsym)
      (hrest : sp ≠ 1 → WalkOn node stk (sp - 1))
  | internal (w a b : Nat) (hn : node[x.node]? = some { weight := w, kind := .internal a b }) (hroom : sp < encStkCap)
      (hrest : ∀ stk' y z, (∀ k, k < sp - 1 → stk'[k]? = stk[k]?) → stk'[sp]? = some y → y.node = a →
        stk'[sp - 1]? = some z → z.node = b → WalkOn node stk' (sp + 1))

theorem length_le_sum_leafCount (ts : List HTree) : ts.length ≤ (ts.map HTree.leafCount).sum := by
  have hone : ∀ n ∈ ts.map HTree.leafCount, 1 ≤ n := fun n hn => by
    obtain ⟨T, -, rfl⟩ := List.mem_map.mp hn
    exact one_le_leafCount T
  exact (List.length_map _).symm.trans_le (List.length_le_sum_of_one_le _ hone)

theorem WalkOn.visit (h : WalkOn node stk sp) : 1 ≤ sp ∧ ∃ x, stk[sp - 1]? = some x ∧ Visit node stk sp x := by
  obtain ⟨ts, rfl, hpos, hstk, hsum⟩ := h
  obtain rfl | ⟨ts, T, rfl⟩ := List.eq_nil_or_concat' ts
  · exact absurd hpos (by decide)
  obtain ⟨x, hx, hrep, hlegal⟩ := hstk.last
  have hlen : (ts ++ [T]).length = ts.length + 1 := List.length_append
  rw [hlen, Nat.add_sub_cancel]
  refine ⟨Nat.le_add_left 1 _, x, hx, ?_⟩
  rw [List.map_append, List.sum_append, List.map_singleton, List.sum_singleton] at hsum
  have hle := length_le_sum_leafCount ts
  cases T with
  | leaf v =>
    obtain ⟨w, hn⟩ := hrep
    refine .leaf w v hn (hlegal v (List.mem_singleton_self v)) fun h1 => ?_
    exact ⟨ts, rfl, by omega, hstk.init, by omega⟩
  | node l r =>
    obtain ⟨w, a, b, hn, -, -, hl, hr⟩ := hrep
    have h1l := one_le_leafCount l
    have h1r := one_le_leafCount r
    rw [HTree.leafCount] at hsum
    refine .internal w a b hn (by simp only [nsym, encStkCap] at *; omega) fun stk' y z hsame hy hya hz hzb => ?_
    have hright : StackHolds node stk' (ts ++ [r]) :=
      (hstk.init.congr hsame).push hz (hzb ▸ hr) fun v hv => hlegal v (List.mem_append_right _ hv)
    have hboth : StackHolds node stk' (ts ++ [r] ++ [l]) :=
      hright.push (by simpa using hy) (hya ▸ hl) fun v hv => hlegal v (List.mem_append_left _ hv)
    refine ⟨ts ++ [r] ++ [l], by simp, by omega, hboth, ?_⟩
    simp only [List.map_append, List.sum_append, List.map_singleton, List.sum_singleton]
    omega

end Walk

section Forest
variable {e : Enc}

theorem sum_leafCount (q : List (Nat × HTree)) : (q.map fun p => p.2.leafCount).sum = (forestLeaves q).length := by
  simp only [forestLeaves, List.length_flatMap, length_leafValues]

/-- `ForestOk` by the forest's leaves (R140 to R145). -/
theorem forestOk_iff (e : Enc) :
    ForestOk e ↔ ∃ q, Forest e.fill q ∧ q.length = e.qsize ∧ 1 ≤ e.qsize ∧ e.nn + e.qsize ≤ encNodeCap + 1 ∧
      (∀ v ∈ forestLeaves q, v.toNat < nsym) ∧ (forestLeaves q).length ≤ nsym := by
  constructor
  · rintro ⟨q, hnodup, hqueue, hlen, hpos, hroom, htree, hsum⟩
    refine ⟨q, ⟨hnodup, hqueue, fun p hp => ?_⟩, hlen, hpos, hroom, fun v hv => ?_, sum_leafCount q ▸ hsum⟩
    · obtain ⟨hlt, hrep, -⟩ := htree p hp
      exact ⟨hlt, hrep⟩
    · obtain ⟨p, hp, hvp⟩ := List.mem_flatMap.mp hv
      obtain ⟨-, -, hlegal⟩ := htree p hp
      exact hlegal v hvp
  · rintro ⟨q, hforest, hlen, hpos, hroom, hlegal, hcount⟩
    refine ⟨q, hforest.nodup, hforest.mem_queue, hlen, hpos, hroom, fun p hp => ?_, sum_leafCount q ▸ hcount⟩
    obtain ⟨hlt, hrep⟩ := hforest.tree p hp
    exact ⟨hlt, hrep, fun v hv => hlegal v (List.mem_flatMap.mpr ⟨p, hp, hv⟩)⟩

/-- ENC.QINIT's leaves are a forest as the merges need it (R142). -/
theorem forestOk_of_qinit (heof : e.cnt[eofIndex] ≠ 0) :
    ForestOk { e with node := (insertLeaves e).node, inq := (insertLeaves e).inq, nn := (insertLeaves e).nn
                      qsize := (insertLeaves e).nn, phase := .merge } := by
  obtain ⟨q, hforest, hnn, hlen, hleaves⟩ := insertLeaves_forest e
  have hpos := List.length_pos_of_mem (mem_presentSymbols.mpr heof)
  have hle := length_presentSymbols_le (cnt := e.cnt)
  refine (forestOk_iff _).mpr ⟨q, hforest, hnn.symm, ?_, ?_, fun v hv => ?_, ?_⟩
  · simp only
    omega
  · simp only [encNodeCap, nsym] at *
    omega
  · obtain ⟨i, -, rfl⟩ := List.mem_map.mp (hleaves.mem_iff.mp hv)
    exact (symbolAt_toNat i).trans_lt i.isLt
  · rw [hleaves.length_eq, List.length_map]
    exact hle

end Forest

end Sys2Proof.Machine
end

section
/-! PROOFS. ENC's operation in a safe state (R232): phase by phase, it answers a state, and a safe one. -/

namespace Sys2Proof.Machine

section Phases
variable {e : Enc}

theorem Enc.safe_qinit (h : e.phase = .qinit) : e.Safe ↔ e.cnt[eofIndex] = 1 := by rw [Enc.Safe, h]

theorem Enc.safe_merge (h : e.phase = .merge) : e.Safe ↔ ForestOk e := by rw [Enc.Safe, h]

theorem Enc.safe_gen (h : e.phase = .gen) : e.Safe ↔ TreeOk e ∧ WalkOk e := by rw [Enc.Safe, h]

theorem Enc.safe_wrmagic (h : e.phase = .wrmagic) : e.Safe ↔ TreeOk e := by rw [Enc.Safe, h]

theorem Enc.safe_wrhdr (h : e.phase = .wrhdr) : e.Safe ↔ WalkOk e := by rw [Enc.Safe, h]

/-- The phases in which nothing is asked of ENC's registers. -/
def encFree : List EncPhase := [.idle, .count, .rewind, .encode, .wreof, .close, .done, .fault]

theorem Enc.safe_of_free (h : e.phase ∈ encFree) : e.Safe := by
  rw [Enc.Safe]
  generalize e.phase = p at h
  fin_cases h <;> trivial

/-- From these phases a run goes on to such phases only (R41). -/
def encSettled : List EncPhase := [.idle, .rewind, .encode, .wreof, .close, .done, .fault]

theorem encSettled_moves : ∀ p ∈ encSettled, p ∈ encFree ∧ ∀ q ∈ encMoves p, q ∈ encFree := by decide

end Phases

section EncTurn
variable {s t : State} {i : Instr}

/-- The operation answers a state in which ENC is safe. -/
def EncKeepsSafe (i : Instr) (s : State) : Prop := ∃ t, exec i s = .next t ∧ t.enc.Safe

theorem encKeepsSafe_of_settled (hi : encOperation s.enc.phase = some i) (hp : s.enc.phase ∈ encSettled)
    (h : ∃ t, exec i s = .next t) : EncKeepsSafe i s := by
  obtain ⟨t, h⟩ := h
  obtain ⟨hfree, hmoves⟩ := encSettled_moves _ hp
  refine ⟨t, h, Enc.safe_of_free ?_⟩
  obtain hq | hq := (exec_encControl (f := none) hi h).phase_moves
  · exact hq ▸ hfree
  · exact hmoves _ hq

/-- An open port takes what is written, or the host does not serve it. -/
theorem Cout.write_of_not_closed {p : Cout} (hc : p.closed = false) (n v : Nat) :
    p.write n v = .wait ∨ ∃ q, p.write n v = .sent q := by
  cases h : p.write n v with
  | wait => exact .inl rfl
  | closed =>
    rw [Cout.write_closed_iff h] at hc
    cases hc
  | sent q => exact .inr ⟨q, rfl⟩

theorem exec_encCount_safe (hp : s.enc.phase = .count) : EncKeepsSafe .encCount s := by
  obtain ⟨hv, -⟩ | ⟨hv, hr, -⟩ | ⟨r, hv, hr, -⟩ := Rin.read_cases s.rin
  · exact ⟨s, exec_encCount_of_wait hv, Enc.safe_of_free (by rw [hp]; decide)⟩
  · exact ⟨_, exec_encCount_of_eos hv hr, (Enc.safe_qinit rfl).mpr (Vector.getElem_set_self _)⟩
  · exact ⟨_, exec_encCount_of_byte hv hr, Enc.safe_of_free (by rw [counted_phase, hp]; decide)⟩

theorem exec_encQinit_safe (h : s.enc.cnt[eofIndex] = 1) : EncKeepsSafe .encQinit s :=
  ⟨_, rfl, (Enc.safe_merge rfl).mpr (forestOk_of_qinit (by rw [h]; decide))⟩

theorem exec_encMerge_safe (hp : s.enc.phase = .merge) (h : ForestOk s.enc) : EncKeepsSafe .encMerge s := by
  obtain ⟨q, hforest, hlen, hpos, hroom, hlegal, hcount⟩ := (forestOk_iff _).mp h
  by_cases hq : 1 < s.enc.qsize
  · obtain ⟨a, b, q', hmina, hminb, hlen', hleaves, hjoin⟩ :=
      hforest.join (by omega) (show s.enc.nn < encNodeCap by omega)
    refine ⟨_, exec_encMerge_of_two hq (by omega) hmina hminb,
      (Enc.safe_merge (by exact hp)).mpr ((forestOk_iff _).mpr ?_)⟩
    refine ⟨q', hjoin _, ?_, ?_, ?_, fun v hv => hlegal v (hleaves.mem_iff.mp hv), hleaves.length_eq.trans_le hcount⟩
    · show q'.length = s.enc.qsize - 1
      omega
    · show 1 ≤ s.enc.qsize - 1
      omega
    · show s.enc.nn + 1 + (s.enc.qsize - 1) ≤ encNodeCap + 1
      omega
  · obtain ⟨r, T, q', hmin, hperm⟩ := hforest.exists_min (List.ne_nil_of_length_pos (by omega))
    have hlen' := hperm.length_eq
    rw [List.length_cons] at hlen'
    obtain rfl : q' = [] := List.eq_nil_of_length_eq_zero (by omega)
    have hleaves : (forestLeaves q).Perm (HTree.leafValues T) :=
      (forestLeaves_perm hperm).trans (List.Perm.of_eq (List.append_nil _))
    have hrep : NodeRep s.enc.node T r := (hforest.tree _ (hperm.mem_iff.mpr (List.mem_singleton_self _))).2
    have hT : SymbolsLegal T := fun v hv => hlegal v (hleaves.mem_iff.mpr hv)
    have hle : T.leafCount ≤ nsym := by rwa [← length_leafValues, ← hleaves.length_eq]
    refine ⟨_, exec_encMerge_of_one hq hmin, (Enc.safe_gen rfl).mpr ⟨⟨T, hrep, hT, hle⟩, ?_⟩⟩
    exact WalkOn.of_root (x := { node := r, len := 0, bits := 0#256 })
      (Vector.getElem?_setIfInBounds_self_of_lt (by decide)) hrep hT hle

theorem exec_encGen_safe (hp : s.enc.phase = .gen) (htree : TreeOk s.enc) (hwalk : WalkOk s.enc) :
    EncKeepsSafe .encGen s := by
  obtain ⟨hsp, x, hx, hvisit⟩ := ((walkOk_iff _).mp hwalk).visit
  cases hvisit with
  | leaf w v hn hv hrest =>
    refine ⟨_, exec_encGen_of_leaf hsp hx hn rfl hv, ?_⟩
    by_cases h1 : s.enc.sp = 1
    · exact (Enc.safe_wrmagic (if_pos h1)).mpr htree
    · exact (Enc.safe_gen ((if_neg h1).trans hp)).mpr ⟨htree, hrest h1⟩
  | internal w a b hn hroom hrest =>
    refine ⟨_, exec_encGen_of_internal hsp hx hn rfl hroom, (Enc.safe_gen (by exact hp)).mpr ⟨htree, ?_⟩⟩
    exact hrest _ _ _ (fun k hk => genChildren_below hk) (genChildren_left hroom) rfl (genChildren_right hsp hroom) rfl

theorem exec_encWrmagic_safe (hp : s.enc.phase = .wrmagic) (hc : s.cout.closed = false) (htree : TreeOk s.enc) :
    EncKeepsSafe .encWrmagic s := by
  cases hr : s.cout.ready with
  | false => exact ⟨s, exec_encWrmagic_of_not_ready hr, (Enc.safe_wrmagic hp).mpr htree⟩
  | true =>
    obtain ⟨T, hrep, hlegal, hcount⟩ := htree
    have hfirst : s.enc.stk[0]? = some s.enc.stk[0] := Vector.getElem?_eq_getElem (by decide)
    exact ⟨_, exec_encWrmagic_of_open ⟨hr, hc⟩,
      (Enc.safe_wrhdr rfl).mpr (WalkOn.of_root (withNode_same hfirst) hrep hlegal hcount)⟩

theorem exec_encWrhdr_safe (hp : s.enc.phase = .wrhdr) (hc : s.cout.closed = false) (hwalk : WalkOk s.enc) :
    EncKeepsSafe .encWrhdr s := by
  obtain ⟨hsp, x, hx, hvisit⟩ := ((walkOk_iff _).mp hwalk).visit
  cases hr : s.cout.ready with
  | false =>
    obtain ⟨n, hn⟩ : ∃ n, s.enc.node[x.node]? = some n := by cases hvisit <;> exact ⟨_, ‹_›⟩
    exact ⟨s, exec_encWrhdr_of_not_ready hr (Enc.top_some hsp hx) hn, (Enc.safe_wrhdr hp).mpr hwalk⟩
  | true =>
    cases hvisit with
    | leaf w v hn hv hrest =>
      refine ⟨_, exec_encWrhdr_of_leaf ⟨hr, hc⟩ hsp hx hn rfl, ?_⟩
      by_cases h1 : s.enc.sp = 1
      · refine Enc.safe_of_free ?_
        rw [wrote_enc, Enc.popTree, if_pos h1]
        show EncPhase.rewind ∈ encFree
        decide
      · exact (Enc.safe_wrhdr ((if_neg h1).trans hp)).mpr (hrest h1)
    | internal w a b hn hroom hrest =>
      obtain ⟨y, hy, hya⟩ := hdrChildren_left (e := s.enc) (a := a) (b := b) hroom
      obtain ⟨z, hz, hzb⟩ := hdrChildren_right (a := a) (b := b) hsp hroom
      exact ⟨_, exec_encWrhdr_of_internal ⟨hr, hc⟩ hsp hx hn rfl hroom,
        (Enc.safe_wrhdr (by exact hp)).mpr (hrest _ y z (fun k hk => hdrChildren_below hk) hy hya hz hzb)⟩

theorem exists_exec_encEncode (hc : s.cout.closed = false) : ∃ t, exec .encEncode s = .next t := by
  obtain ⟨hv, -⟩ | ⟨hv, hr, -⟩ | ⟨r, hv, hr, -⟩ := Rin.read_cases s.rin
  · exact ⟨s, exec_encEncode_of_wait hv⟩
  · exact ⟨_, exec_encEncode_of_eos hv hr⟩
  · cases hcode : s.enc.codeValid[byteIndex r] with
    | false => exact ⟨_, exec_encEncode_of_no_code hv hr hcode⟩
    | true =>
      obtain hw | ⟨q, hw⟩ := Cout.write_of_not_closed hc s.enc.codeLen[byteIndex r] s.enc.codeBits[byteIndex r].toNat
      · exact ⟨s, exec_encEncode_of_held hr hcode hw⟩
      · exact ⟨_, exec_encEncode_of_code hv hr hcode hw⟩

theorem exists_exec_encWreof (hc : s.cout.closed = false) : ∃ t, exec .encWreof s = .next t := by
  obtain hw | ⟨q, hw⟩ := Cout.write_of_not_closed hc s.enc.codeLen[eofIndex] s.enc.codeBits[eofIndex].toNat
  · exact ⟨s, exec_encWreof_of_wait hw⟩
  · exact ⟨_, exec_encWreof_of_sent hw⟩

theorem exists_exec_encClose (hc : s.cout.closed = false) : ∃ t, exec .encClose s = .next t := by
  cases hr : s.cout.ready with
  | false => exact ⟨s, exec_encClose_of_not_ready hr⟩
  | true => exact ⟨_, exec_encClose_of_open ⟨hr, hc⟩⟩

/-- The operation of a safe ENC. -/
theorem exec_encSafe (hi : encOperation s.enc.phase = some i) (hout : EncOutputOk s) (h : s.enc.Safe) :
    EncKeepsSafe i s := by
  have hc : s.enc.phase.waiting = false → s.cout.closed = false := hout.open_of_busy
  have hsettled := encKeepsSafe_of_settled hi
  cases hp : s.enc.phase <;> rw [hp] at hi hc hsettled <;> cases hi
  case idle | done | fault => exact hsettled (by decide) ⟨s, rfl⟩
  case count => exact exec_encCount_safe hp
  case qinit => exact exec_encQinit_safe ((Enc.safe_qinit hp).mp h)
  case merge => exact exec_encMerge_safe hp ((Enc.safe_merge hp).mp h)
  case gen =>
    obtain ⟨htree, hwalk⟩ := (Enc.safe_gen hp).mp h
    exact exec_encGen_safe hp htree hwalk
  case wrmagic => exact exec_encWrmagic_safe hp (hc rfl) ((Enc.safe_wrmagic hp).mp h)
  case wrhdr => exact exec_encWrhdr_safe hp (hc rfl) ((Enc.safe_wrhdr hp).mp h)
  case rewind => exact hsettled (by decide) ⟨_, rfl⟩
  case encode => exact hsettled (by decide) (exists_exec_encEncode (hc rfl))
  case wreof => exact hsettled (by decide) (exists_exec_encWreof (hc rfl))
  case close => exact hsettled (by decide) (exists_exec_encClose (hc rfl))

end EncTurn

end Sys2Proof.Machine
end

section
/-! PROOFS. The header reader's store (R182, R183): which nodes are complete and which wait, kept by every record, until
the tree is finished (R36). -/

namespace Sys2Proof.Machine

/-- The children a pending parent holds are those its side says (R38). -/
def Awaits (dnode : List DNode) (n : Nat) (x : DStkEntry) : Prop :=
  if x.side then ∃ l, dnode[x.node]? = some (.internal (some l) none) ∧ l < n
  else dnode[x.node]? = some (.internal none none)

/-- A node, if it is internal, has both its children, and they are allocated. -/
def Complete (dnode : List DNode) (n i : Nat) : Prop :=
  ∀ l r, dnode[i]? = some (.internal l r) → ∃ a b, l = some a ∧ r = some b ∧ a < n ∧ b < n

/-- Of the first `n` nodes those of `xs` wait for children and the others are complete. -/
structure Pending (dnode : List DNode) (n : Nat) (xs : List DStkEntry) : Prop where
  nodup : (xs.map DStkEntry.node).Nodup
  awaits : ∀ x ∈ xs, x.node < n ∧ Awaits dnode n x
  complete : ∀ i, i < n → i ∉ xs.map DStkEntry.node → Complete dnode n i

theorem pendingOk_iff (d : Dec) : PendingOk d ↔
    d.dsp ≤ d.dn ∧ (0 < d.dn → d.droot = 0 ∧ 0 < d.dsp) ∧ Pending d.dnode d.dn (d.dstk.take d.dsp) :=
  ⟨fun ⟨hdsp, hroot, hnodup, hawaits, hcomplete⟩ => ⟨hdsp, hroot, hnodup, hawaits, hcomplete⟩,
    fun ⟨hdsp, hroot, hnodup, hawaits, hcomplete⟩ => ⟨hdsp, hroot, hnodup, hawaits, hcomplete⟩⟩

section Pending
variable {dnode dnode' : List DNode} {n n' i k p l : Nat} {x : DStkEntry} {xs ys : List DStkEntry}

theorem Awaits.congr (h : Awaits dnode n x) (hsame : dnode'[x.node]? = dnode[x.node]?) (hn : n ≤ n') :
    Awaits dnode' n' x := by
  obtain ⟨p, side⟩ := x
  cases side with
  | false => exact hsame.trans h
  | true =>
    obtain ⟨l, hl, hlt⟩ := h
    exact ⟨l, hsame.trans hl, hlt.trans_le hn⟩

theorem Complete.congr (h : Complete dnode n i) (hsame : dnode'[i]? = dnode[i]?) (hn : n ≤ n') :
    Complete dnode' n' i := fun l r hi => by
  obtain ⟨a, b, hl, hr, ha, hb⟩ := h l r (hsame ▸ hi)
  exact ⟨a, b, hl, hr, ha.trans_le hn, hb.trans_le hn⟩

theorem pending_nil (dnode : List DNode) : Pending dnode 0 [] :=
  ⟨List.nodup_nil, fun _ hx => absurd hx (List.not_mem_nil), fun _ hi => absurd hi (Nat.not_lt_zero _)⟩

theorem Pending.perm (h : Pending dnode n xs) (hp : xs.Perm ys) : Pending dnode n ys where
  nodup := (hp.map _).nodup_iff.mp h.nodup
  awaits x hx := h.awaits x (hp.mem_iff.mpr hx)
  complete i hi hnot := h.complete i hi fun hmem => hnot ((hp.map _).mem_iff.mp hmem)

section Allocate
variable (h : Pending dnode n xs) (hroom : n < dnode.length)
include h hroom

/-- A leaf is complete where it is stored. -/
theorem Pending.leaf (v : Sym) : Pending (dnode.set n (.leaf v)) (n + 1) xs where
  nodup := h.nodup
  awaits x hx := by
    obtain ⟨hlt, hawaits⟩ := h.awaits x hx
    exact ⟨Nat.lt_succ_of_lt hlt, hawaits.congr (List.getElem?_set_ne (Nat.ne_of_gt hlt)) (Nat.le_succ n)⟩
  complete i hi hnot := by
    rcases Nat.lt_succ_iff_lt_or_eq.mp hi with hlt | rfl
    · exact (h.complete i hlt hnot).congr (List.getElem?_set_ne (Nat.ne_of_gt hlt)) (Nat.le_succ n)
    · intro l r hinternal
      rw [List.getElem?_set_self hroom] at hinternal
      cases hinternal

/-- An internal node waits for both its children where it is stored. -/
theorem Pending.node : Pending (dnode.set n (.internal none none)) (n + 1) ({ node := n, side := false } :: xs) where
  nodup := by
    refine List.nodup_cons.mpr ⟨fun hmem => ?_, h.nodup⟩
    obtain ⟨x, hx, hxn⟩ := List.mem_map.mp hmem
    exact absurd (h.awaits x hx).1 (Nat.not_lt.mpr hxn.ge)
  awaits x hx := by
    rcases List.mem_cons.mp hx with rfl | hx
    · exact ⟨Nat.lt_succ_self n, List.getElem?_set_self hroom⟩
    · obtain ⟨hlt, hawaits⟩ := h.awaits x hx
      exact ⟨Nat.lt_succ_of_lt hlt, hawaits.congr (List.getElem?_set_ne (Nat.ne_of_gt hlt)) (Nat.le_succ n)⟩
  complete i hi hnot := by
    rw [List.map_cons, List.mem_cons, not_or] at hnot
    have hlt : i < n := Nat.lt_of_le_of_ne (Nat.le_of_lt_succ hi) hnot.1
    exact (h.complete i hlt hnot.2).congr (List.getElem?_set_ne (Nat.ne_of_gt hlt)) (Nat.le_succ n)

end Allocate

/-- The other entries and the other nodes do not see what is written at a pending parent. -/
theorem Pending.others {m : DNode} (h : Pending dnode n (x :: xs)) :
    (∀ y ∈ xs, y.node < n ∧ Awaits (dnode.set x.node m) n y) ∧
      ∀ i, i < n → i ≠ x.node → i ∉ xs.map DStkEntry.node → Complete (dnode.set x.node m) n i := by
  constructor
  · intro y hy
    obtain ⟨hlt, hawaits⟩ := h.awaits y (List.mem_cons_of_mem _ hy)
    have hne : x.node ≠ y.node := fun heq =>
      (List.nodup_cons.mp h.nodup).1 (List.mem_map.mpr ⟨y, hy, heq.symm⟩)
    exact ⟨hlt, hawaits.congr (List.getElem?_set_ne hne) (Nat.le_refl n)⟩
  · intro i hi hne hnot
    have hnot' : i ∉ (x :: xs).map DStkEntry.node := by
      rw [List.map_cons, List.mem_cons, not_or]
      exact ⟨hne, hnot⟩
    exact (h.complete i hi hnot').congr (List.getElem?_set_ne (Ne.symm hne)) (Nat.le_refl n)

section Hang
variable (hk : k < n)
include hk

/-- The first child makes a pending parent wait for its second. -/
theorem Pending.left (h : Pending dnode n ({ node := p, side := false } :: xs)) :
    Pending (dnode.set p (.internal (some k) none)) n ({ node := p, side := true } :: xs) where
  nodup := h.nodup
  awaits y hy := by
    rcases List.mem_cons.mp hy with rfl | hy
    · obtain ⟨hlt, hp⟩ := h.awaits _ (List.mem_cons_self ..)
      have hlen : p < dnode.length := (List.getElem?_eq_some_iff.mp hp).1
      exact ⟨hlt, k, List.getElem?_set_self hlen, hk⟩
    · exact (h.others).1 y hy
  complete i hi hnot := by
    rw [List.map_cons, List.mem_cons, not_or] at hnot
    exact (h.others).2 i hi hnot.1 hnot.2

/-- The second child completes a pending parent. -/
theorem Pending.right (h : Pending dnode n ({ node := p, side := true } :: xs))
    (hp : dnode[p]? = some (.internal (some l) none)) :
    Pending (dnode.set p (.internal (some l) (some k))) n xs where
  nodup := (List.nodup_cons.mp h.nodup).2
  awaits := (h.others).1
  complete i hi hnot := by
    by_cases hip : i = p
    · subst hip
      obtain ⟨-, l', hl', hlt⟩ := h.awaits _ (List.mem_cons_self ..)
      have hll : l' = l := by
        have heq := hl'.symm.trans hp
        simpa using heq
      intro a b hab
      rw [List.getElem?_set_self (List.getElem?_eq_some_iff.mp hp).1] at hab
      cases hab
      exact ⟨l, k, rfl, rfl, hll ▸ hlt, hk⟩
    · exact (h.others).2 i hi hip hnot

end Hang
end Pending

section Top
variable {α : Type} {l : List α} {x : α} {k : Nat}

theorem take_eq_concat_top (h0 : 0 < k) (h : l[k - 1]? = some x) : l.take k = l.take (k - 1) ++ [x] := by
  obtain ⟨j, rfl⟩ := Nat.exists_eq_add_one.mpr h0
  rw [Nat.add_sub_cancel] at h ⊢
  rw [List.take_add_one, h]
  rfl

theorem take_set_top (h0 : 0 < k) (hk : k - 1 < l.length) (x : α) :
    (l.set (k - 1) x).take k = l.take (k - 1) ++ [x] := by
  rw [take_eq_concat_top h0 (List.getElem?_set_self hk), List.take_set_of_le (Nat.le_refl _)]

theorem perm_cons_concat (x y : α) (l : List α) : (x :: (l ++ [y])).Perm (y :: x :: l) :=
  ((List.perm_append_singleton y l).cons x).trans (.swap ..)

theorem perm_concat_concat (x y : α) (l : List α) : (l ++ [x] ++ [y]).Perm (x :: y :: l) :=
  (List.perm_append_singleton y _).trans (perm_cons_concat y x l)

end Top

section AddRecord
variable {d : Dec}

/-- With no parent pending the tree is finished, and the walker goes to its root (R183, R190). -/
theorem decodeOk_of_pending (h : Pending d.dnode d.dn []) (hroot : d.droot < d.dn) (hcur : d.cur = d.droot)
    (hlen : d.dn ≤ d.dnode.length) : DecodeOk d :=
  ⟨hlen, hroot, hcur ▸ hroot, fun i hi => h.complete i hi (List.not_mem_nil), fun hleaf => by
    rw [hcur]
    exact rootIsLeaf_false hleaf⟩

/-- What a record leaves: stores of the same size, and a header to be read on or a finished tree. -/
def RecordKept (d d' : Dec) : Prop :=
  d'.dnode.length = d.dnode.length ∧ d'.dstk.length = d.dstk.length ∧
    ((d'.phase = d.phase ∧ d'.dn = d.dn + 1 ∧ PendingOk d') ∨ (d'.phase = .decode ∧ DecodeOk d'))

/-- Where the next node will be hung (R182): it is the root, or `p` waits for it on top of the stack. -/
inductive Place (d : Dec) : Prop
  | root (h0 : d.dsp = 0) (hdn : d.dn = 0)
  | left (p : Nat) (h0 : 0 < d.dsp) (hp : p < d.dn) (hnode : d.dnode[p]? = some (.internal none none))
      (htop : d.dstk[d.dsp - 1]? = some { node := p, side := false })
  | right (p l : Nat) (h0 : 0 < d.dsp) (hp : p < d.dn) (hnode : d.dnode[p]? = some (.internal (some l) none))
      (htop : d.dstk[d.dsp - 1]? = some { node := p, side := true })

variable (h : PendingOk d) (hroom : d.dn < d.dnode.length) (hstk : d.dstk.length = d.dnode.length)
include h hroom hstk

theorem PendingOk.place : Place d := by
  obtain ⟨hdsp, hroot, hpend⟩ := (pendingOk_iff d).mp h
  rcases Nat.eq_zero_or_pos d.dsp with h0 | h0
  · refine .root h0 ?_
    by_contra hdn
    obtain ⟨-, hpos⟩ := hroot (Nat.pos_of_ne_zero hdn)
    omega
  · obtain ⟨⟨p, side⟩, htop⟩ : ∃ x, d.dstk[d.dsp - 1]? = some x := ⟨_, List.getElem?_eq_getElem (by omega)⟩
    have hmem : { node := p, side := side } ∈ d.dstk.take d.dsp := by
      rw [take_eq_concat_top h0 htop]
      exact List.mem_append_right _ (List.mem_singleton_self _)
    obtain ⟨hp, hawaits⟩ := hpend.awaits _ hmem
    cases side with
    | false => exact .left p h0 hp hawaits htop
    | true =>
      obtain ⟨l, hnode, -⟩ := hawaits
      exact .right p l h0 hp hnode htop

theorem PendingOk.addRecord_leaf (v : Sym) : ∃ d', d.addRecord (some v) = .ok d' ∧ RecordKept d d' := by
  obtain ⟨hdsp, hroot, hpend⟩ := (pendingOk_iff d).mp h
  cases h.place hroom hstk with
  | root h0 hdn =>
    rw [h0, List.take_zero] at hpend
    refine ⟨_, addRecord_leaf_root hroom h0 v, List.length_set .., rfl, .inr ⟨rfl, ?_⟩⟩
    exact decodeOk_of_pending (hpend.leaf hroom v) (Nat.lt_succ_self _) rfl (by rw [List.length_set]; exact hroom)
  | left p h0 hp hnode htop =>
    obtain ⟨hr, -⟩ := hroot (Nat.zero_lt_of_lt hp)
    rw [take_eq_concat_top h0 htop] at hpend
    have hnew := (((hpend.leaf hroom v).perm (List.perm_append_singleton _ _)).left (Nat.lt_succ_self _)).perm
      (List.perm_append_singleton _ _).symm
    refine ⟨_, addRecord_leaf_left hroom h0 hp hnode htop v, by simp, by simp, .inl ⟨rfl, rfl, ?_⟩⟩
    refine (pendingOk_iff _).mpr ⟨Nat.le_succ_of_le hdsp, fun _ => ⟨hr, h0⟩, ?_⟩
    rw [take_set_top h0 (by omega)]
    exact hnew
  | right p l h0 hp hnode htop =>
    obtain ⟨hr, -⟩ := hroot (Nat.zero_lt_of_lt hp)
    rw [take_eq_concat_top h0 htop] at hpend
    have hnode' : (d.dnode.set d.dn (.leaf v))[p]? = some (.internal (some l) none) :=
      (List.getElem?_set_ne (Nat.ne_of_gt hp)).trans hnode
    have hnew := ((hpend.leaf hroom v).perm (List.perm_append_singleton _ _)).right (Nat.lt_succ_self _) hnode'
    refine ⟨_, addRecord_leaf_right hroom h0 hp hnode htop v, by simp, rfl, ?_⟩
    by_cases h1 : d.dsp = 1
    · rw [h1, Nat.sub_self, List.take_zero] at hnew
      refine .inr ⟨if_pos h1, decodeOk_of_pending hnew ?_ (if_pos h1) ?_⟩
      · exact hr.trans_lt (Nat.succ_pos _)
      · simpa using hroom
    · refine .inl ⟨if_neg h1, rfl, (pendingOk_iff _).mpr ⟨?_, fun _ => ⟨hr, ?_⟩, hnew⟩⟩
      · exact (Nat.sub_le _ _).trans (Nat.le_succ_of_le hdsp)
      · show 0 < d.dsp - 1
        omega

theorem PendingOk.addRecord_node : ∃ d', d.addRecord none = .ok d' ∧ RecordKept d d' := by
  obtain ⟨hdsp, hroot, hpend⟩ := (pendingOk_iff d).mp h
  cases h.place hroom hstk with
  | root h0 hdn =>
    rw [h0, List.take_zero] at hpend
    have hlen : 0 < d.dstk.length := by omega
    refine ⟨_, addRecord_node_root hroom h0 hlen, by simp, by simp, .inl ⟨rfl, rfl, ?_⟩⟩
    refine (pendingOk_iff _).mpr ⟨Nat.le_add_left 1 _, fun _ => ⟨hdn, Nat.one_pos⟩, ?_⟩
    rw [show (d.dstk.set 0 { node := d.dn, side := false }).take 1 = [{ node := d.dn, side := false }] from
      take_set_top (k := 1) Nat.one_pos hlen _]
    exact hpend.node hroom
  | left p h0 hp hnode htop =>
    obtain ⟨hr, -⟩ := hroot (Nat.zero_lt_of_lt hp)
    rw [take_eq_concat_top h0 htop] at hpend
    have hnew := ((hpend.node hroom).perm (perm_cons_concat _ _ _)).left (Nat.lt_succ_self _)
    refine ⟨_, addRecord_node_left hroom h0 hp hnode htop (by omega), by simp, by simp, .inl ⟨rfl, rfl, ?_⟩⟩
    refine (pendingOk_iff _).mpr ⟨Nat.succ_le_succ hdsp, fun _ => ⟨hr, Nat.succ_pos _⟩, ?_⟩
    have htake := take_set_top (l := d.dstk.set (d.dsp - 1) { node := p, side := true }) (Nat.succ_pos d.dsp)
      (by rw [List.length_set, Nat.succ_sub_one]; omega) { node := d.dn, side := false }
    rw [Nat.succ_sub_one, take_set_top h0 (by omega)] at htake
    rw [show d.dsp + 1 = d.dsp.succ from rfl, htake]
    exact hnew.perm (perm_concat_concat _ _ _).symm
  | right p l h0 hp hnode htop =>
    obtain ⟨hr, -⟩ := hroot (Nat.zero_lt_of_lt hp)
    rw [take_eq_concat_top h0 htop] at hpend
    have hnode' : (d.dnode.set d.dn (.internal none none))[p]? = some (.internal (some l) none) :=
      (List.getElem?_set_ne (Nat.ne_of_gt hp)).trans hnode
    have hnew := ((hpend.node hroom).perm (perm_cons_concat _ _ _)).right (Nat.lt_succ_self _) hnode'
    refine ⟨_, addRecord_node_right hroom h0 hp hnode htop, by simp, by simp, .inl ⟨rfl, rfl, ?_⟩⟩
    refine (pendingOk_iff _).mpr ⟨Nat.le_succ_of_le hdsp, fun _ => ⟨hr, h0⟩, ?_⟩
    rw [take_set_top h0 (by omega)]
    exact hnew.perm (List.perm_append_singleton _ _).symm

end AddRecord

end Sys2Proof.Machine
end

section
/-! PROOFS. DEC in a safe state (R232, R245): a turn of a reading DEC is held, ends the run, or consumes bits and leaves
DEC safe. -/

namespace Sys2Proof.Machine

section Phases
variable {c : Config} {d : Dec}

/-- DEC's stores have their sizes (R36, R38). -/
def StoresSized (c : Config) (d : Dec) : Prop := d.dnode.length = c.decNodeCap ∧ d.dstk.length = c.decNodeCap

theorem Dec.Safe.sized (h : Dec.Safe c d) : StoresSized c d := ⟨h.1, h.2.1⟩

theorem Dec.safe_rdmagic (h : d.phase = .rdmagic) : Dec.Safe c d ↔ StoresSized c d ∧ d.dn = 0 ∧ d.dsp = 0 := by
  rw [Dec.Safe, h, StoresSized, and_assoc]

theorem Dec.safe_rdhdr (h : d.phase = .rdhdr) :
    Dec.Safe c d ↔ StoresSized c d ∧ d.dn ≤ c.decNodeCap ∧ PendingOk d := by
  rw [Dec.Safe, h, StoresSized, and_assoc]

theorem Dec.safe_decode (h : d.phase = .decode) : Dec.Safe c d ↔ StoresSized c d ∧ DecodeOk d := by
  rw [Dec.Safe, h, StoresSized, and_assoc]

/-- The phases in which nothing but the stores' sizes is asked of DEC. -/
def decFree : List DecPhase := [.idle, .close, .done, .fault]

theorem Dec.safe_of_free (h : d.phase ∈ decFree) (hs : StoresSized c d) : Dec.Safe c d := by
  refine ⟨hs.1, hs.2, ?_⟩
  generalize d.phase = p at h
  fin_cases h <;> trivial

/-- The phases in which DEC reads the compressed input. -/
def decReading : List DecPhase := [.rdmagic, .rdhdr, .decode]

theorem waiting_of_decReading : ∀ p ∈ decReading, p.waiting = false := by decide

end Phases

/-- What a turn of a reading DEC does: it is held by a port, it ends the run, or it consumes bits and reads on. -/
inductive DecTurn (s t : State) : Prop
  | held (hport : s.cin.valid = false ∨ s.sout.ready = false) (ht : t = s)
  | ended (d : Dec) (k : Nat) (hd : d.phase = .close) (hsized : StoresSized s.cfg d)
      (hk : s.cin.pos ≤ s.cin.data.length → k ≤ s.cin.data.length)
      (ht : t = { s with cin := { s.cin with pos := k }, dec := d })
  | moved (d : Dec) (k : Nat) (p : Sout) (h0 : 0 < k) (hk : k ≤ s.cin.data.length - s.cin.pos)
      (hd : d.phase ∈ decReading) (hsafe : Dec.Safe s.cfg d) (hp : p.ready = s.sout.ready)
      (ht : t = { s with cin := { s.cin with pos := s.cin.pos + k }, dec := d, sout := p })

theorem DecTurn.safe {s t : State} (h : DecTurn s t) (hs : Dec.Safe s.cfg s.dec) : Dec.Safe t.cfg t.dec := by
  cases h with
  | held _ ht => exact ht ▸ hs
  | ended d k hd hsized _ ht => exact ht ▸ Dec.safe_of_free (by rw [hd]; decide) hsized
  | moved d k p _ _ _ hsafe _ ht => exact ht ▸ hsafe

/-- An error ends the run (R204). -/
theorem decTurn_raise {s : State} {k : Nat} (e : Err) (hsized : StoresSized s.cfg s.dec)
    (hk : s.cin.pos ≤ s.cin.data.length → k ≤ s.cin.data.length) :
    DecTurn s { s with cin := { s.cin with pos := k }, dec := { s.dec with err := e, phase := .close } } :=
  .ended { s.dec with err := e, phase := .close } k rfl hsized hk rfl

section Turn
variable {s : State} {i : Instr} {k : Nat}

/-- The operation answers a state, by such a turn. -/
def TakesTurn (i : Instr) (s : State) : Prop := ∃ t, exec i s = .next t ∧ DecTurn s t

/-- Before the first record nothing is stored and nothing waits (R123). -/
theorem pendingOk_of_empty {d : Dec} (hdn : d.dn = 0) (hdsp : d.dsp = 0) : PendingOk d := by
  refine (pendingOk_iff d).mpr ⟨hdsp.trans_le (Nat.zero_le _), fun h => absurd h (Nat.not_lt.mpr hdn.le), ?_⟩
  rw [hdn, hdsp]
  exact pending_nil _

theorem exec_decRdmagic_of_enough (hv : s.cin.valid = true) (h : 32 ≤ s.cin.data.length - s.cin.pos) :
    exec .decRdmagic s =
      takeMagic (BitVec.ofNat 32 (valueOf ((s.cin.data.drop s.cin.pos).take 32))) (pastItem 32 s) := by
  show execDecRdmagic s = _
  rw [execDecRdmagic, Cin.read_got hv h]
  rfl

theorem exec_decRdmagic_turn (hp : s.dec.phase = .rdmagic) (hs : Dec.Safe s.cfg s.dec) : TakesTurn .decRdmagic s := by
  obtain ⟨hsized, hdn, hdsp⟩ := (Dec.safe_rdmagic hp).mp hs
  obtain ⟨hv, -⟩ | ⟨hv, hshort, -⟩ | ⟨hv, henough, -⟩ := Cin.read_cases 32 s.cin
  · exact ⟨s, exec_decRdmagic_of_wait hv, .held (.inl hv) rfl⟩
  · exact ⟨_, exec_decRdmagic_of_short hv hshort, decTurn_raise _ hsized fun _ => Nat.le_refl _⟩
  · have hexec := exec_decRdmagic_of_enough hv henough
    generalize BitVec.ofNat 32 (valueOf ((s.cin.data.drop s.cin.pos).take 32)) = m at hexec
    by_cases hm : m = s.cfg.magic
    · refine ⟨_, hexec.trans (if_pos hm), .moved _ 32 s.sout (by decide) henough ?_ ?_ rfl rfl⟩
      · show DecPhase.rdhdr ∈ decReading
        decide
      · refine (Dec.safe_rdhdr rfl).mpr ⟨hsized, hdn.trans_le (Nat.zero_le _), pendingOk_of_empty hdn hdsp⟩
    · exact ⟨_, hexec.trans (if_neg hm), decTurn_raise _ hsized fun _ => by omega⟩

/-- A presenting host and one bit at least: the record is cut, or it is a whole one (R182). -/
theorem exec_decRdhdr_of_bit (hv : s.cin.valid = true) (h : 1 ≤ s.cin.data.length - s.cin.pos) :
    (exec .decRdhdr s = .next { s with
      cin := { s.cin with pos := s.cin.data.length }
      dec := { s.dec with err := .headerCorrupt, phase := .close } }) ∨
    ∃ r, (recordBits r).length ≤ s.cin.data.length - s.cin.pos ∧
      exec .decRdhdr s = takeRecord r (pastItem (recordBits r).length s) := by
  show (execDecRdhdr s = _) ∨ ∃ r, _ ∧ execDecRdhdr s = _
  simp only [execDecRdhdr, Cin.read_got hv h]
  split
  · obtain ⟨hv', -⟩ | ⟨-, -, heos⟩ | ⟨-, hnine, hgot⟩ := Cin.read_cases 9 { s.cin with pos := s.cin.pos + 1 }
    · exact absurd (hv.symm.trans hv') (by decide)
    · rw [heos]
      exact .inl rfl
    · rw [hgot]
      refine .inr ⟨some _, ?_, rfl⟩
      simp only at hnine
      rw [recordBits, List.length_cons, length_bits]
      omega
  · exact .inr ⟨none, h, rfl⟩

theorem takeRecord_turn (hp : s.dec.phase = .rdhdr) (hs : Dec.Safe s.cfg s.dec) (r : Option Sym) (h0 : 0 < k)
    (hk : k ≤ s.cin.data.length - s.cin.pos) : ∃ t, takeRecord r (pastItem k s) = .next t ∧ DecTurn s t := by
  obtain ⟨hsized, hdn, hpend⟩ := (Dec.safe_rdhdr hp).mp hs
  obtain ⟨hnode, hstk⟩ := hsized
  by_cases hfull : s.dec.dn = s.cfg.decNodeCap
  · exact ⟨_, takeRecord_of_full r hfull, decTurn_raise _ ⟨hnode, hstk⟩ fun _ => by omega⟩
  · have hroom : s.dec.dn < s.dec.dnode.length := by omega
    have hstores : s.dec.dstk.length = s.dec.dnode.length := hstk.trans hnode.symm
    obtain ⟨d', hadd, hnode', hstk', hkept⟩ : ∃ d', s.dec.addRecord r = .ok d' ∧ RecordKept s.dec d' := by
      cases r with
      | none => exact hpend.addRecord_node hroom hstores
      | some v => exact hpend.addRecord_leaf hroom hstores v
    have hsized' : StoresSized s.cfg d' := ⟨hnode'.trans hnode, hstk'.trans hstk⟩
    have hexec : takeRecord r (pastItem k s) = .next { pastItem k s with dec := d' } := by
      rw [takeRecord, if_neg (by exact hfull), show (pastItem k s).dec.addRecord r = .ok d' from hadd]
    refine ⟨_, hexec, ?_⟩
    obtain ⟨hphase, hdn', hpend'⟩ | ⟨hphase, hdecode⟩ := hkept
    · have hp' : d'.phase = .rdhdr := hphase.trans hp
      exact .moved d' k s.sout h0 hk (by rw [hp']; decide)
        ((Dec.safe_rdhdr hp').mpr ⟨hsized', by omega, hpend'⟩) rfl rfl
    · exact .moved d' k s.sout h0 hk (by rw [hphase]; decide) ((Dec.safe_decode hphase).mpr ⟨hsized', hdecode⟩) rfl rfl

theorem exec_decRdhdr_turn (hp : s.dec.phase = .rdhdr) (hs : Dec.Safe s.cfg s.dec) : TakesTurn .decRdhdr s := by
  have hsized := hs.sized
  obtain ⟨hv, -⟩ | ⟨hv, hnone, -⟩ | ⟨hv, hsome, -⟩ := Cin.read_cases 1 s.cin
  · exact ⟨s, exec_decRdhdr_of_wait hv, .held (.inl hv) rfl⟩
  · exact ⟨_, exec_decRdhdr_of_no_bit hv (by omega), decTurn_raise _ hsized fun _ => Nat.le_refl _⟩
  · obtain hcut | ⟨r, hlen, hexec⟩ := exec_decRdhdr_of_bit hv hsome
    · exact ⟨_, hcut, decTurn_raise _ hsized fun _ => Nat.le_refl _⟩
    · obtain ⟨t, ht, hturn⟩ := takeRecord_turn hp hs r (by cases r <;> exact Nat.succ_pos _) hlen
      exact ⟨t, hexec.trans ht, hturn⟩

theorem DecodeOk.exists_rootIsLeaf {d : Dec} (h : DecodeOk d) : ∃ isLeaf, d.rootIsLeaf = some isLeaf := by
  obtain ⟨hlen, hlt, -⟩ := h
  have hroot := List.getElem?_eq_getElem (hlt.trans_le hlen)
  cases hn : d.dnode[d.droot]'(hlt.trans_le hlen) with
  | leaf v => exact ⟨true, rootIsLeaf_leaf (hn ▸ hroot)⟩
  | internal l r => exact ⟨false, rootIsLeaf_internal (hn ▸ hroot)⟩

/-- From an internal node a bit leads to an allocated one (R190). -/
theorem DecodeOk.exists_child {d : Dec} (h : DecodeOk d) (hroot : d.rootIsLeaf = some false) (b : Bool) :
    ∃ n c m, d.dnode[d.cur]? = some n ∧ n.child b = some c ∧ c < d.dn ∧ d.dnode[c]? = some m := by
  obtain ⟨hlen, -, hcur, hcomplete, hwalker⟩ := h
  obtain ⟨l, r, hn⟩ := hwalker hroot
  obtain ⟨x, y, rfl, rfl, hx, hy⟩ := hcomplete _ hcur _ _ hn
  have hlt : (if b then y else x) < d.dn := by cases b <;> assumption
  exact ⟨_, if b then y else x, _, hn, by cases b <;> rfl, hlt, List.getElem?_eq_getElem (hlt.trans_le hlen)⟩

/-- The walker may go to any allocated internal node. -/
theorem DecodeOk.walk {d : Dec} (h : DecodeOk d) {c : Nat} (hc : c < d.dn) {l r : Option Nat}
    (hn : d.dnode[c]? = some (.internal l r)) : DecodeOk { d with cur := c } := by
  obtain ⟨hlen, hroot, -, hcomplete, -⟩ := h
  exact ⟨hlen, hroot, hc, hcomplete, fun _ => ⟨l, r, hn⟩⟩

theorem takeBit_turn (hp : s.dec.phase = .decode) (hs : Dec.Safe s.cfg s.dec) (hroot : s.dec.rootIsLeaf = some false)
    (hc : s.sout.closed = false) (b : Bool) (hk : 1 ≤ s.cin.data.length - s.cin.pos) :
    ∃ t, takeBit b s (pastItem 1 s) = .next t ∧ DecTurn s t := by
  obtain ⟨hsized, hok⟩ := (Dec.safe_decode hp).mp hs
  obtain ⟨n, c, m, hn, hchild, hlt, hm⟩ := hok.exists_child hroot b
  have hmoved : ∀ (j : Nat) (q : Sout), j < s.dec.dn → (∃ l r, s.dec.dnode[j]? = some (.internal l r)) →
      q.ready = s.sout.ready →
      DecTurn s { s with cin := { s.cin with pos := s.cin.pos + 1 }, dec := { s.dec with cur := j }, sout := q } := by
    rintro j q hj ⟨l, r, hnode⟩ hq
    refine .moved { s.dec with cur := j } 1 q Nat.one_pos hk ?_
      ((Dec.safe_decode (by exact hp)).mpr ⟨hsized, hok.walk hj hnode⟩) hq rfl
    show s.dec.phase ∈ decReading
    rw [hp]
    decide
  cases m with
  | internal l r =>
    refine ⟨_, ?_, hmoved c s.sout hlt ⟨l, r, hm⟩ rfl⟩
    simp only [takeBit, pastItem, hn, hchild, hm]
  | leaf v =>
    by_cases hv : v = pseudoEof
    · subst hv
      refine ⟨_, ?_, .ended { s.dec with cur := c, phase := .close } (s.cin.pos + 1) rfl hsized (fun _ => by omega) rfl⟩
      simp only [takeBit, pastItem, hn, hchild, hm, if_true]
    · cases hr : s.sout.ready with
      | false =>
        exact ⟨s, takeBit_literal_wait (s := pastItem 1 s) hn hchild hm hv (Sout.write_wait hr), .held (.inr hr) rfl⟩
      | true =>
        exact ⟨_, takeBit_literal_sent (s := pastItem 1 s) hn hchild hm hv (Sout.write_open hr hc),
          hmoved s.dec.droot _ hok.2.1 (rootIsLeaf_false hroot) rfl⟩

theorem exec_decDecode_turn (hp : s.dec.phase = .decode) (hs : Dec.Safe s.cfg s.dec) (hc : s.sout.closed = false) :
    TakesTurn .decDecode s := by
  obtain ⟨hsized, hok⟩ := (Dec.safe_decode hp).mp hs
  obtain ⟨isLeaf, hroot⟩ := hok.exists_rootIsLeaf
  cases isLeaf with
  | true =>
    obtain ⟨v, hv⟩ := rootIsLeaf_true hroot
    exact ⟨_, exec_decDecode_of_leaf_root hv, .ended { s.dec with phase := .close } s.cin.pos rfl hsized id rfl⟩
  | false =>
    obtain ⟨l, r, hnode⟩ := rootIsLeaf_false hroot
    obtain ⟨hv, -⟩ | ⟨hv, hnone, -⟩ | ⟨hv, hsome, -⟩ := Cin.read_cases 1 s.cin
    · exact ⟨s, exec_decDecode_of_wait hv hroot, .held (.inl hv) rfl⟩
    · exact ⟨_, exec_decDecode_of_no_bit hnode hv (by omega), decTurn_raise _ hsized fun _ => Nat.le_refl _⟩
    · have hne : s.cin.data.drop s.cin.pos ≠ [] := List.ne_nil_of_length_pos (by rw [List.length_drop]; omega)
      obtain ⟨b, bs, hbits⟩ := List.exists_cons_of_ne_nil hne
      rw [TakesTurn, exec_decDecode_of_bit hnode (cinPresents_of_drop_eq_cons hv hbits)]
      exact takeBit_turn hp hs hroot hc b hsome

/-- The turn of a reading, safe DEC. -/
theorem exec_dec_turn (hi : decOperation s.dec.phase = some i) (hp : s.dec.phase ∈ decReading)
    (hs : Dec.Safe s.cfg s.dec) (hout : DecOutputOk s) : TakesTurn i s := by
  have hc : s.sout.closed = false := hout.open_of_busy (waiting_of_decReading _ hp)
  simp only [decReading, List.mem_cons, List.not_mem_nil, or_false] at hp
  obtain hp | hp | hp := hp
  · rw [hp] at hi
    cases hi
    exact exec_decRdmagic_turn hp hs
  · rw [hp] at hi
    cases hi
    exact exec_decRdhdr_turn hp hs
  · rw [hp] at hi
    cases hi
    exact exec_decDecode_turn hp hs hc

end Turn

end Sys2Proof.Machine
end

section
/-! PROOFS. Safe states lead to safe states (R232), and every run of DEC ends (R245). -/

namespace Sys2Proof.Machine

section Safe
variable {s t : State} {i : Instr}

/-- ENC's part of a safe state. -/
def EncSafe (s : State) : Prop := EncOutputOk s ∧ s.enc.Safe

/-- DEC's part of a safe state. -/
def DecSafe (s : State) : Prop := DecOutputOk s ∧ Dec.Safe s.cfg s.dec

theorem safe_iff (s : State) : s.Safe ↔ EncSafe s ∧ DecSafe s := by
  rw [State.Safe, ← and_assoc, outputsOk_iff]
  exact ⟨fun ⟨⟨heo, hdo⟩, he, hd⟩ => ⟨⟨heo, he⟩, hdo, hd⟩, fun ⟨⟨heo, he⟩, hdo, hd⟩ => ⟨⟨heo, hdo⟩, he, hd⟩⟩

theorem EncSafe.congr (h : EncSafe s) (henc : t.enc = s.enc) (hclosed : t.cout.closed = s.cout.closed) :
    EncSafe t := by
  unfold EncSafe EncOutputOk at h ⊢
  rwa [henc, hclosed]

theorem DecSafe.congr (h : DecSafe s) (hcfg : t.cfg = s.cfg) (hdec : t.dec = s.dec)
    (hclosed : t.sout.closed = s.sout.closed) : DecSafe t := by
  unfold DecSafe DecOutputOk at h ⊢
  rwa [hcfg, hdec, hclosed]

theorem exec_encOperation_safe (hi : encOperation s.enc.phase = some i) (h : EncSafe s) :
    ∃ t, exec i s = .next t ∧ EncSafe t := by
  obtain ⟨t, hexec, hsafe⟩ := exec_encSafe hi h.1 h.2
  exact ⟨t, hexec, (exec_encControl (f := none) hi hexec).outputOk h.1, hsafe⟩

/-- Waiting and closing ask for the stores' sizes only, and keep them. -/
theorem exec_decIdle_safe (hi : decOperation s.dec.phase = some i) (hp : s.dec.phase ∉ decReading) (h : DecSafe s) :
    ∃ t, exec i s = .next t ∧ Dec.Safe t.cfg t.dec := by
  obtain ⟨hout, hsafe⟩ := h
  cases hphase : s.dec.phase <;> rw [hphase] at hi hp <;> cases hi
  case rdmagic | rdhdr | decode => exact absurd (by decide) hp
  case idle | done | fault => exact ⟨s, rfl, hsafe⟩
  case close =>
    have hc := hout.open_of_busy (by rw [hphase]; rfl)
    cases hr : s.sout.ready with
    | false => exact ⟨s, exec_decClose_of_not_ready hr, hsafe⟩
    | true =>
      refine ⟨_, exec_decClose_of_open ⟨hr, hc⟩, Dec.safe_of_free ?_ hsafe.sized⟩
      show (if s.dec.err = .none then DecPhase.done else .fault) ∈ decFree
      split <;> decide

theorem exec_decOperation_safe (hi : decOperation s.dec.phase = some i) (h : DecSafe s) :
    ∃ t, exec i s = .next t ∧ DecSafe t := by
  obtain ⟨t, hexec, hsafe⟩ : ∃ t, exec i s = .next t ∧ Dec.Safe t.cfg t.dec := by
    by_cases hp : s.dec.phase ∈ decReading
    · obtain ⟨t, hexec, hturn⟩ := exec_dec_turn hi hp h.2 h.1
      exact ⟨t, hexec, hturn.safe h.2⟩
    · exact exec_decIdle_safe hi hp h
  exact ⟨t, hexec, (exec_decControl (f := none) hi hexec).outputOk h.1, hsafe⟩

/-- The next state exists and is safe. -/
def LeadsToSafe (r : Result) : Prop := ∃ t, r = .next t ∧ t.Safe

theorem runUnit_safe (u : Agent) (h : s.Safe) : LeadsToSafe (runUnit u s) := by
  obtain ⟨henc, hdec⟩ := (safe_iff s).mp h
  cases hf : fetchUnit u s with
  | none => exact ⟨s, runUnit_none hf, h⟩
  | some i =>
    rw [runUnit_some hf]
    cases u with
    | enc =>
      have hi := (fetchUnit_enc s).symm.trans hf
      obtain ⟨t, hexec, hsafe⟩ := exec_encOperation_safe hi henc
      have hframe := exec_encFrame (unit_of_encOperation hi) hexec
      exact ⟨t, hexec, (safe_iff t).mpr ⟨hsafe, hdec.congr hframe.cfg hframe.dec (by rw [hframe.sout])⟩⟩
    | dec =>
      have hi := (fetchUnit_dec s).symm.trans hf
      obtain ⟨t, hexec, hsafe⟩ := exec_decOperation_safe hi hdec
      have hframe := exec_decFrame (unit_of_decOperation hi) hexec
      exact ⟨t, hexec, (safe_iff t).mpr ⟨henc.congr hframe.enc (by rw [hframe.cout]), hsafe⟩⟩

theorem exec_reset_safe (h : s.Safe) : LeadsToSafe (exec .reset s) := by
  obtain ⟨henc, hdec⟩ := (safe_iff s).mp h
  refine ⟨_, exec_reset s, (safe_iff _).mpr ⟨⟨?_, ?_⟩, ?_, ?_⟩⟩
  · exact EncControl.outputOk (f := some .reset) (s := s) (.reset rfl rfl rfl rfl) henc.1
  · exact Enc.safe_of_free (List.mem_cons_self ..)
  · exact DecControl.outputOk (f := some .reset) (s := s) (.reset rfl rfl rfl rfl) hdec.1
  · exact Dec.safe_of_free (List.mem_cons_self ..) ⟨by simp [Dec.afterReset], by simp [Dec.afterReset]⟩

theorem exec_encStart_safe (raw : List Byte) (h : s.Safe) : LeadsToSafe (exec (.encStart raw) s) := by
  obtain ⟨henc, hdec⟩ := (safe_iff s).mp h
  by_cases hw : s.enc.phase.waiting = true
  · refine ⟨_, exec_encStart_of_waiting raw hw, (safe_iff _).mpr ⟨⟨?_, ?_⟩, hdec⟩⟩
    · exact (EncControl.start (f := some (.encStart raw)) raw rfl hw rfl rfl rfl).outputOk henc.1
    · exact Enc.safe_of_free (List.mem_cons_of_mem _ (List.mem_cons_self ..))
  · exact ⟨s, exec_encStart_of_not_waiting raw hw, h⟩

theorem exec_decStart_safe (comp : Bits) (h : s.Safe) : LeadsToSafe (exec (.decStart comp) s) := by
  obtain ⟨henc, hdec⟩ := (safe_iff s).mp h
  by_cases hw : s.dec.phase.waiting = true
  · refine ⟨_, exec_decStart_of_waiting comp hw, (safe_iff _).mpr ⟨henc, ?_, ?_⟩⟩
    · exact (DecControl.start (f := some (.decStart comp)) comp rfl hw rfl rfl rfl).outputOk hdec.1
    · exact (Dec.safe_rdmagic rfl).mpr ⟨hdec.2.sized, rfl, rfl⟩
  · exact ⟨s, exec_decStart_of_not_waiting comp hw, h⟩

theorem applyEvent_safe (e : HostEvent) (h : s.Safe) : (applyEvent e s).Safe := by
  obtain ⟨henc, hdec⟩ := (safe_iff s).mp h
  exact (safe_iff _).mpr ⟨henc.congr (applyEvent_enc e s) (applyEvent_cout_closed e s),
    hdec.congr (applyEvent_cfg e s) (applyEvent_dec e s) (applyEvent_sout_closed e s)⟩

end Safe

/-- Settles O46: each thing a step can be answers a safe state. -/
theorem safeStatesNeverStop : Obligations.SafeStatesNeverStop := by
  intro s hs
  obtain ⟨a, r, hstep⟩ := step_cases s
  have hs' : State.Safe { s with agenda := a, turn := r } := hs
  obtain ⟨u, hstep⟩ | ⟨i, hstep, hi⟩ | ⟨e, hstep⟩ := hstep
  · rw [hstep]
    exact runUnit_safe u hs'
  · rw [hstep]
    obtain rfl | ⟨raw, rfl⟩ | ⟨comp, rfl⟩ := hi
    · exact exec_reset_safe hs'
    · exact exec_encStart_safe raw hs'
    · exact exec_decStart_safe comp hs'
  · exact ⟨_, hstep, applyEvent_safe e hs'⟩

section Run
variable {s : State} {comp : Bits}

/-- DEC reads `comp`, the host serving both its ports. -/
structure DecReads (comp : Bits) (s : State) : Prop where
  phase : s.dec.phase ∈ decReading
  data : s.cin.data = comp
  pos : s.cin.pos ≤ comp.length
  valid : s.cin.valid = true
  ready : s.sout.ready = true
  safe : DecSafe s

/-- DEC's run on `comp` has ended (R65, R68, R206). -/
def DecHasEnded (comp : Bits) (t : State) : Prop :=
  ((t.dec.phase = .done ∧ t.dec.err = .none) ∨ (t.dec.phase = .fault ∧ t.dec.err ≠ .none)) ∧
    t.sout.closed = true ∧ t.cin.pos ≤ comp.length

theorem runUnit_dec_closes (hp : s.dec.phase = .close) (hopen : SoutOpen s) (hpos : s.cin.pos ≤ comp.length) :
    ∃ t, runUnit .dec s = .next t ∧ DecHasEnded comp t := by
  have hrun : runUnit .dec s = exec .decClose s := runUnit_some (by rw [fetchUnit_dec, hp]; rfl)
  refine ⟨_, hrun.trans (exec_decClose_of_open hopen), ?_, rfl, hpos⟩
  by_cases herr : s.dec.err = .none
  · exact .inl ⟨if_pos herr, herr⟩
  · exact .inr ⟨if_neg herr, herr⟩

theorem exists_decOperation : ∀ p ∈ decReading, ∃ i, decOperation p = some i := by
  intro p hp
  fin_cases hp <;> exact ⟨_, rfl⟩

/-- From any reading phase, one turn per bit that is left, at most, and two more end the run. -/
theorem DecReads.turns_end (h : DecReads comp s) :
    ∃ k t, k ≤ comp.length - s.cin.pos + 2 ∧ turns .dec k s = .next t ∧ DecHasEnded comp t := by
  induction hm : comp.length - s.cin.pos using Nat.strong_induction_on generalizing s with
  | _ m ih =>
    obtain ⟨hphase, rfl, hpos, hvalid, hready, hout, hsafe⟩ := h
    obtain ⟨i, hi⟩ := exists_decOperation _ hphase
    obtain ⟨t, hexec, hturn⟩ := exec_dec_turn hi hphase hsafe hout
    have hrun : runUnit .dec s = .next t := (runUnit_some ((fetchUnit_dec s).trans hi)).trans hexec
    have hout' : DecOutputOk t := (exec_decControl (f := none) hi hexec).outputOk hout
    cases hturn with
    | held hport ht =>
      rw [hvalid, hready] at hport
      exact absurd hport (by decide)
    | ended d k hd hsized hk ht =>
      have hp : t.dec.phase = .close := by rw [ht]; exact hd
      have hopen : SoutOpen t := ⟨by rw [ht]; exact hready, hout'.open_of_busy (by rw [hp]; rfl)⟩
      obtain ⟨u, hclose, hended⟩ := runUnit_dec_closes hp hopen (by rw [ht]; exact hk hpos)
      exact ⟨2, u, Nat.le_add_left 2 m, (turns_succ hrun).trans ((turns_one _ _).trans hclose), hended⟩
    | moved d k p h0 hk hd hsafe' hp ht =>
      have hreads : DecReads s.cin.data t := by
        subst ht
        exact ⟨hd, rfl, show s.cin.pos + k ≤ s.cin.data.length by omega, hvalid, hp.trans hready, hout', hsafe'⟩
      have hpos' : t.cin.pos = s.cin.pos + k := by rw [ht]
      obtain ⟨j, u, hj, hturns, hended⟩ := ih (s.cin.data.length - t.cin.pos) (by omega) hreads rfl
      exact ⟨j + 1, u, by omega, (turns_succ hrun).trans hturns, hended⟩

end Run

/-- Settles O57: a started run reads its stream from the first bit. -/
theorem decoderRunAlwaysEnds : Obligations.DecoderRunAlwaysEnds := by
  intro s comp hw hv hready hnode hstk
  have hreads : DecReads comp { s with
      dec := { s.dec with dn := 0, dsp := 0, err := .none, phase := .rdmagic }
      cin := { s.cin with data := comp, pos := 0 }
      sout := { s.sout with bytes := [], closed := false } } :=
    { phase := List.mem_cons_self .., data := rfl, pos := Nat.zero_le _, valid := hv, ready := hready
      safe := ⟨decOutputOk_of_busy rfl rfl DecPhase.noConfusion, (Dec.safe_rdmagic rfl).mpr ⟨⟨hnode, hstk⟩, rfl, rfl⟩⟩ }
  obtain ⟨k, t, hk, hturns, hended⟩ := hreads.turns_end
  exact ⟨_, k, t, exec_decStart_of_waiting comp hw, hk, hturns, hended⟩

end Sys2Proof.Machine
end
